-- ==== Sys2Proof/Word.lean ====
section
/-! DEFINITION. The words of the CORE: the 32-bit OM word (20_memory.md R60), the 16-bit word address
(10_state.md R43) and the 64-bit command word (30_encoding.md R90). -/

namespace Sys2Proof

/-- A word of operand memory and of STATUS: 32 bits (00_scope.md R7). -/
abbrev Word := BitVec 32

/-- An OM word address, as the D, A and B fields and the host's moves carry it: 16 bits (10_state.md R43). -/
abbrev Addr := BitVec 16

/-- A command word: 64 bits (30_encoding.md R90). -/
abbrev Cmd := BitVec 64

/-- `W` = 2^256, one more than the largest element (00_scope.md R8). -/
abbrev W : Nat := 2 ^ 256

end Sys2Proof
end

