-- ==== Sys2Proof/Syntax.lean ====
section
/-! DEFINITION. The commands of the CORE as syntax: one constructor of `Instr` per row of
spec/opcode_table.json (30_encoding.md R94). -/

namespace Sys2Proof

/-- The modulus a modular command takes, its M bit: P (M = 0) or N (M = 1) (30_encoding.md R92). -/
inductive Modulus where
  | p
  | n
deriving DecidableEq, Repr

/-- What a D, A or B field of an opcode names (30_encoding.md R94): an element, a point, a table, a
constant index, or nothing (the field must be 0). -/
inductive Kind where
  | element
  | point
  | table
  | constant
  | unused
deriving DecidableEq, Repr

/-- The assigned opcodes (30_encoding.md R94). -/
inductive Opcode where
  | add | sub | cmp | tst | shl1 | shr1 | mov | ldk
  | addm | subm | negm | mulm | invm
  | pdbl | padd | pneg | pchk
  | tbld
deriving DecidableEq, Repr

/-- A command: its mnemonic and the fields it uses, in the assembler's order M, D, A, B
(30_encoding.md R94, R104). `k` is LDK's constant index. -/
inductive Instr where
  | add (d a b : Addr)
  | sub (d a b : Addr)
  | cmp (a b : Addr)
  | tst (a : Addr)
  | shl1 (d a : Addr)
  | shr1 (d a : Addr)
  | mov (d a : Addr)
  | ldk (d k : Addr)
  | addm (m : Modulus) (d a b : Addr)
  | subm (m : Modulus) (d a b : Addr)
  | negm (m : Modulus) (d a : Addr)
  | mulm (m : Modulus) (d a b : Addr)
  | invm (m : Modulus) (d a : Addr)
  | pdbl (d a : Addr)
  | padd (d a b : Addr)
  | pneg (d a : Addr)
  | pchk (a : Addr)
  | tbld (d a : Addr)
deriving DecidableEq, Repr

end Sys2Proof
end

