-- ==== Sys2Proof/WellFormed.lean ====
section
/-! DEFINITION. Which terms of `Instr` are commands: all but an LDK whose constant index is no index of the
ROM (30_encoding.md R100). Every other field of `Instr` has only legal values, by its type. -/

namespace Sys2Proof

/-- The one check: LDK's constant index K is 0 to 6 (30_encoding.md R93, R100). -/
def Instr.wellFormed : Instr → Bool
  | .ldk _ k => decide (k.toNat ≤ 6)
  | .add _ _ _ | .sub _ _ _ | .cmp _ _ | .tst _ | .shl1 _ _ | .shr1 _ _ | .mov _ _
  | .addm _ _ _ _ | .subm _ _ _ _ | .negm _ _ _ | .mulm _ _ _ _ | .invm _ _ _
  | .pdbl _ _ | .padd _ _ _ | .pneg _ _ | .pchk _ | .tbld _ _ => true

end Sys2Proof
end

