-- ==== Sys2Proof/Decode.lean ====
section
/-! DEFINITION. The decoder, total on all 2^64 command words and rejecting by name (30_encoding.md R90 to
R103), and after it the encoder written from the same table. -/

namespace Sys2Proof

/-! ### The opcode map (30_encoding.md R94) -/

/-- The OPC value of an opcode. -/
def Opcode.code : Opcode → Nat
  | .add => 0x01 | .sub => 0x02 | .cmp => 0x03 | .tst => 0x04
  | .shl1 => 0x05 | .shr1 => 0x06 | .mov => 0x07 | .ldk => 0x08
  | .addm => 0x10 | .subm => 0x11 | .negm => 0x12
  | .mulm => 0x20 | .invm => 0x21
  | .pdbl => 0x30 | .padd => 0x31 | .pneg => 0x32 | .pchk => 0x33
  | .tbld => 0x40

/-- The opcode of an OPC value, none for the unassigned values (R96). -/
def Opcode.ofCode : Nat → Option Opcode
  | 0x01 => some .add | 0x02 => some .sub | 0x03 => some .cmp | 0x04 => some .tst
  | 0x05 => some .shl1 | 0x06 => some .shr1 | 0x07 => some .mov | 0x08 => some .ldk
  | 0x10 => some .addm | 0x11 => some .subm | 0x12 => some .negm
  | 0x20 => some .mulm | 0x21 => some .invm
  | 0x30 => some .pdbl | 0x31 => some .padd | 0x32 => some .pneg | 0x33 => some .pchk
  | 0x40 => some .tbld
  | _ => none

/-- R94's column "M?". -/
def Opcode.takesM : Opcode → Bool
  | .addm | .subm | .negm | .mulm | .invm => true
  | .add | .sub | .cmp | .tst | .shl1 | .shr1 | .mov | .ldk
  | .pdbl | .padd | .pneg | .pchk | .tbld => false

/-- R94's column D. -/
def Opcode.kindD : Opcode → Kind
  | .cmp | .tst | .pchk => .unused
  | .add | .sub | .shl1 | .shr1 | .mov | .ldk
  | .addm | .subm | .negm | .mulm | .invm => .element
  | .pdbl | .padd | .pneg => .point
  | .tbld => .table

/-- R94's column A. -/
def Opcode.kindA : Opcode → Kind
  | .ldk => .constant
  | .add | .sub | .cmp | .tst | .shl1 | .shr1 | .mov
  | .addm | .subm | .negm | .mulm | .invm => .element
  | .pdbl | .padd | .pneg | .pchk | .tbld => .point

/-- R94's column B. -/
def Opcode.kindB : Opcode → Kind
  | .add | .sub | .cmp | .addm | .subm | .mulm => .element
  | .padd => .point
  | .tst | .shl1 | .shr1 | .mov | .ldk | .negm | .invm
  | .pdbl | .pneg | .pchk | .tbld => .unused

/-! ### The fields of a command word (30_encoding.md R91) -/

/-- OPC, bits 7:0. -/
def opcField (w : Cmd) : Nat := (w.extractLsb' 0 8).toNat

/-- M, bit 8. -/
def mField (w : Cmd) : Bool := w.getLsbD 8

/-- RSV, bits 15:9. -/
def rsvField (w : Cmd) : BitVec 7 := w.extractLsb' 9 7

/-- D, bits 31:16. -/
def dField (w : Cmd) : Addr := w.extractLsb' 16 16

/-- A, bits 47:32; for LDK the constant index K. -/
def aField (w : Cmd) : Addr := w.extractLsb' 32 16

/-- B, bits 63:48. -/
def bField (w : Cmd) : Addr := w.extractLsb' 48 16

/-- M = 0 selects P, M = 1 selects N (R92). -/
def Modulus.ofBit : Bool → Modulus
  | false => .p
  | true => .n

/-- The M bit that selects a modulus (R92). -/
def Modulus.bit : Modulus → Bool
  | .p => false
  | .n => true

/-! ### Decoding (30_encoding.md R95) -/

/-- Why a word is no command. Every one of these is the fault cause ILLEGAL_COMMAND (R95 steps 1 to 5). -/
inductive DecodeError where
  | unassignedOpcode     -- step 1, R96
  | reservedBits         -- step 2, R97
  | modulusBit           -- step 3, R99
  | unusedField          -- step 4, R98
  | constantIndex        -- step 5, R100
deriving DecidableEq, Repr

/-- A field of kind `k` holding `x` passes step 4: it is used, or it is 0. -/
def Kind.clear (k : Kind) (x : Addr) : Bool := k != .unused || x == 0

/-- The command of a legal word, from its fields. -/
def Opcode.build (op : Opcode) (m : Modulus) (d a b : Addr) : Instr :=
  match op with
  | .add => .add d a b
  | .sub => .sub d a b
  | .cmp => .cmp a b
  | .tst => .tst a
  | .shl1 => .shl1 d a
  | .shr1 => .shr1 d a
  | .mov => .mov d a
  | .ldk => .ldk d a
  | .addm => .addm m d a b
  | .subm => .subm m d a b
  | .negm => .negm m d a
  | .mulm => .mulm m d a b
  | .invm => .invm m d a
  | .pdbl => .pdbl d a
  | .padd => .padd d a b
  | .pneg => .pneg d a
  | .pchk => .pchk a
  | .tbld => .tbld d a

/-- Steps 1 to 5 of R95, in that order. Step 6, the range check, depends on `OM_WORDS` and belongs to the
machine (R102; Machine/Ops.lean). -/
def decode (w : Cmd) : Except DecodeError Instr :=
  match Opcode.ofCode (opcField w) with
  | none => .error .unassignedOpcode
  | some op =>
    if rsvField w != 0 then .error .reservedBits
    else if mField w && !op.takesM then .error .modulusBit
    else if !(op.kindD.clear (dField w) && op.kindA.clear (aField w) && op.kindB.clear (bField w)) then
      .error .unusedField
    else if op.kindA == .constant && 6 < (aField w).toNat then .error .constantIndex
    else .ok (op.build (.ofBit (mField w)) (dField w) (aField w) (bField w))

/-- The instruction a word decodes to, if any. -/
def decode? (w : Cmd) : Option Instr :=
  match decode w with
  | .ok i => some i
  | .error _ => none

/-- The instruction of a row of spec/opcode_table.json given by its bits: the CORE has one 64-bit format,
whose bits are numbered as the table numbers them (R90, R91). -/
def decodeTableWord (nbits w : Nat) : Option Instr :=
  decode? (BitVec.ofNat 64 (w % 2 ^ nbits))

/-! ### Encoding (30_encoding.md R91) -/

/-- The opcode of a command. -/
def Instr.opcode : Instr → Opcode
  | .add _ _ _ => .add
  | .sub _ _ _ => .sub
  | .cmp _ _ => .cmp
  | .tst _ => .tst
  | .shl1 _ _ => .shl1
  | .shr1 _ _ => .shr1
  | .mov _ _ => .mov
  | .ldk _ _ => .ldk
  | .addm _ _ _ _ => .addm
  | .subm _ _ _ _ => .subm
  | .negm _ _ _ => .negm
  | .mulm _ _ _ _ => .mulm
  | .invm _ _ _ => .invm
  | .pdbl _ _ => .pdbl
  | .padd _ _ _ => .padd
  | .pneg _ _ => .pneg
  | .pchk _ => .pchk
  | .tbld _ _ => .tbld

/-- The modulus of a command; P for the commands that take none, since their M bit is 0 (R99). -/
def Instr.modulus : Instr → Modulus
  | .addm m _ _ _ | .subm m _ _ _ | .negm m _ _ | .mulm m _ _ _ | .invm m _ _ => m
  | .add _ _ _ | .sub _ _ _ | .cmp _ _ | .tst _ | .shl1 _ _ | .shr1 _ _ | .mov _ _ | .ldk _ _
  | .pdbl _ _ | .padd _ _ _ | .pneg _ _ | .pchk _ | .tbld _ _ => .p

/-- The D field of a command; 0 where the opcode does not use it (R98). -/
def Instr.d : Instr → Addr
  | .add d _ _ | .sub d _ _ | .shl1 d _ | .shr1 d _ | .mov d _ | .ldk d _
  | .addm _ d _ _ | .subm _ d _ _ | .negm _ d _ | .mulm _ d _ _ | .invm _ d _
  | .pdbl d _ | .padd d _ _ | .pneg d _ | .tbld d _ => d
  | .cmp _ _ | .tst _ | .pchk _ => 0

/-- The A field of a command, which every opcode uses; LDK's holds the constant index. -/
def Instr.a : Instr → Addr
  | .add _ a _ | .sub _ a _ | .cmp a _ | .tst a | .shl1 _ a | .shr1 _ a | .mov _ a | .ldk _ a
  | .addm _ _ a _ | .subm _ _ a _ | .negm _ _ a | .mulm _ _ a _ | .invm _ _ a
  | .pdbl _ a | .padd _ a _ | .pneg _ a | .pchk a | .tbld _ a => a

/-- The B field of a command; 0 where the opcode does not use it (R98). -/
def Instr.b : Instr → Addr
  | .add _ _ b | .sub _ _ b | .cmp _ b | .addm _ _ _ b | .subm _ _ _ b | .mulm _ _ _ b
  | .padd _ _ b => b
  | .tst _ | .shl1 _ _ | .shr1 _ _ | .mov _ _ | .ldk _ _ | .negm _ _ _ | .invm _ _ _
  | .pdbl _ _ | .pneg _ _ | .pchk _ | .tbld _ _ => 0

/-- R91: `cmd = OPC + M·2^8 + RSV·2^9 + D·2^16 + A·2^32 + B·2^48`, with RSV = 0 (R97). -/
def encode (i : Instr) : Cmd :=
  BitVec.ofNat 64 (i.opcode.code + i.modulus.bit.toNat * 2 ^ 8
    + i.d.toNat * 2 ^ 16 + i.a.toNat * 2 ^ 32 + i.b.toNat * 2 ^ 48)

/-! ### Match and mask (30_encoding.md R103) -/

/-- The match value of an opcode: OPC. -/
def Opcode.matchWord (op : Opcode) : Cmd := BitVec.ofNat 64 op.code

/-- The mask of an opcode: OPC and RSV, M where the opcode takes none, and the fields it does not use. -/
def Opcode.maskWord (op : Opcode) : Cmd :=
  BitVec.ofNat 64 (0x00000000000000FF + 0x000000000000FE00
    + (if op.takesM then 0 else 0x0000000000000100)
    + (if op.kindD = .unused then 0x00000000FFFF0000 else 0)
    + (if op.kindA = .unused then 0x0000FFFF00000000 else 0)
    + (if op.kindB = .unused then 0xFFFF000000000000 else 0))

end Sys2Proof
end

