-- ==== Sys2Proof/Config.lean ====
section
/-! DEFINITION. What an implementation fixes: the legal range of the OPEN parameters LANES and OM_WORDS
(00_scope.md R7), the sizes State.reset takes (DESIGN CHOICE, log 1), and the free values (log 9). -/

namespace Sys2Proof.Config

/-- `LANES` ≥ 1 and 256 ≤ `OM_WORDS` ≤ 65536 (00_scope.md R7, decisions D2 and D3). -/
abbrev LegalSizes (lanes omWords : Nat) : Prop :=
  1 ≤ lanes ∧ 256 ≤ omWords ∧ omWords ≤ 65536

/-- DESIGN CHOICE (log 1): the number of lanes of State.reset. Statements hold for every number. -/
def resetLanes : Nat := 1

/-- DESIGN CHOICE (log 1): the OM size of State.reset, the one the spec's test vectors take
(95_test_vectors.md, conventions). Statements hold for every size. -/
def resetOmWords : Nat := 1024

/-- FREE VALUE (log 9), without a body: the n-th unspecified 32-bit word, returned by a host OM read that
the spec leaves unspecified (60_exceptions.md R281; 70_reset_and_hazards.md R297). -/
opaque freeWord : Nat → Word

/-- FREE VALUE (log 9), without a body: the n-th unspecified flag, left by a command whose OM the host
touched while it was in flight (70_reset_and_hazards.md R297, decision D33). -/
opaque freeFlag : Nat → Bool

end Sys2Proof.Config
end

