-- ==== Sys2Proof/Machine/State.lean ====
section
/-! DEFINITION. The state of the machine as plain data (10_state.md), the moves of its environment
(60_exceptions.md R280), the ways a step can stop, and the state after reset (10_state.md R46). -/

namespace Sys2Proof.Machine

/-- One cell of operand memory: a word address and the 32-bit word there. The unit of OM is the word and
there is no byte address (20_memory.md R60; log 11). -/
abbrev Cell := Nat × Word

/-- A lane's operand memory: the words *written* since the last reset (10_state.md R32), addresses strictly
rising. A word that is not listed has no value (log 5). -/
abbrev Memory := List Cell

/-- The canonical form: addresses strictly rising, so that equal memories are equal lists. An unlisted
word has no value, so no entry can equal what an unlisted address reads as. -/
abbrev Memory.wf (m : Memory) : Prop := (m.map Prod.fst).Pairwise (· < ·)

/-- The fields of STATUS (10_state.md R36). Bit 7 and bits 31:12 are reserved, read 0 and are never
written, so they have no storage; `Status.word` (Machine/Flags.lean) is the 32-bit register. -/
structure Status where
  /-- bit 0 -/
  c : Bool
  /-- bit 1 -/
  z : Bool
  /-- bit 2 -/
  inf : Bool
  /-- bit 3, sticky -/
  dz : Bool
  /-- bit 4 -/
  busy : Bool
  /-- bit 5, sticky -/
  ovr : Bool
  /-- bit 6 -/
  flt : Bool
  /-- bits 11:8 -/
  fcause : BitVec 4
deriving DecidableEq, Repr

/-- STATUS = 0x00000000, its reset value (10_state.md R46). -/
def Status.reset : Status :=
  { c := false, z := false, inf := false, dz := false, busy := false, ovr := false, flt := false,
    fcause := 0 }

/-- The command in flight (10_state.md R44): the accepted command word. `disturbed` is the model's own
bit: the host touched OM while the command was in flight (70_reset_and_hazards.md R297; log 8). -/
structure InFlight where
  cmd : Cmd
  disturbed : Bool
deriving DecidableEq, Repr

/-- A lane: everything that is per lane (10_state.md R31, R36, R41, R44, R45). -/
structure Lane where
  om : Memory
  status : Status
  fcmd : Cmd
  inFlight : Option InFlight
deriving DecidableEq, Repr

/-- A lane after reset (10_state.md R46; 70_reset_and_hazards.md R290): no OM word counts as written
(R32; log 5), STATUS and FCMD are 0, no command is in flight. -/
def Lane.reset : Lane :=
  { om := [], status := .reset, fcmd := 0, inFlight := none }

/-- The moves: the seven host actions, each naming its lane (60_exceptions.md R276, R280), and the lane's
own move, completing its command in flight (R280; 70_reset_and_hazards.md R296). -/
inductive Move where
  | hostWriteOM (lane : Nat) (addr : Addr) (w : Word)
  | hostReadOM (lane : Nat) (addr : Addr)
  | hostIssue (lane : Nat) (cmd : Cmd)
  | hostReadStatus (lane : Nat)
  | hostWriteStatus (lane : Nat) (v : Word)
  | hostReadFCMD (lane : Nat)
  | hostReset (lane : Nat)
  | laneTurn (lane : Nat)
deriving DecidableEq, Repr

/-- The value the last host read action returned (60_exceptions.md R281, R283, R285); the model's own
(log 12). -/
inductive Reply where
  | nothing
  | word (w : Word)
  | command (c : Cmd)
deriving DecidableEq, Repr

/-- The whole machine. `omWords` and the length of `lanes` are the OPEN parameters `OM_WORDS` and `LANES`
(00_scope.md R7; log 1). The last four fields are the model's own (log 2, log 9, log 12): the moves to
come, the lane whose command `exec` runs, the last value returned to the host, and the number of the next
free value. The constant ROM never changes and is `rom` in Machine/Rom.lean. -/
structure State where
  omWords : Nat
  lanes : List Lane
  agenda : List Move
  active : Nat
  reply : Reply
  fresh : Nat
deriving DecidableEq, Repr

/-- The ways a run of the model stops. -/
inductive Fault where
  /-- UNINIT: a command's rule, or HostReadOM, reads an OM word not written since reset. The spec asks a
  model for this fault, which the block itself does not raise (10_state.md R32; 70_reset_and_hazards.md
  R293). Raised by `State.runRule` and `hostReadOM`. Safe: the block goes on with an unspecified value. -/
  | uninit
deriving DecidableEq, Repr

/-- What the model has no meaning for. -/
inductive Refusal where
  /-- An instruction that has no meaning yet. No arm of `exec` answers so. Safe. -/
  | notModelled (mnemonic : String)
  /-- A move, or `exec`, for a lane index not below `LANES`: there is no such move (60_exceptions.md
  R276). Raised by `State.onLane`, `State.runRule`, `State.enterFault` and `laneTurn`. Safe. -/
  | noSuchLane
deriving DecidableEq, Repr

/-- Power-on of a machine with given parameters: a reset of every lane (70_reset_and_hazards.md R291). The
host has made no move yet. -/
def State.powerOn (lanes omWords : Nat) : State :=
  { omWords := omWords, lanes := List.replicate lanes .reset, agenda := [], active := 0,
    reply := .nothing, fresh := 0 }

/-- The machine right after reset (10_state.md R46), with the sizes of log 1. -/
def State.reset : State := .powerOn Config.resetLanes Config.resetOmWords

end Sys2Proof.Machine
end

