-- ==== Sys2Proof/Machine/Rom.lean ====
section
/-! DEFINITION. The constant ROM (10_state.md R40), shared by every lane and never written. -/

namespace Sys2Proof.Machine

/-- The field prime 2^256 − 2^32 − 977, written out in R40. -/
abbrev primeP : Nat := 0xFFFFFFFFFFFFFFFFFFFFFFFFFFFFFFFFFFFFFFFFFFFFFFFFFFFFFFFEFFFFFC2F

/-- The curve order (R40; general knowledge by the spec's own mark, log 13). -/
abbrev orderN : Nat := 0xFFFFFFFFFFFFFFFFFFFFFFFFFFFFFFFEBAAEDCE6AF48A03BBFD25E8CD0364141

/-- The x coordinate of the base point (R40; log 13). -/
abbrev baseX : Nat := 0x79BE667EF9DCBBAC55A06295CE870B07029BFCDB2DCE28D959F2815B16F81798

/-- The y coordinate of the base point (R40; log 13). -/
abbrev baseY : Nat := 0x483ADA7726A3C4655DA4FBFC0E1108A8FD17B448A68554199C47D08FFB10D4B8

/-- Constant `k` of the ROM: ZERO, ONE, P, N, GX, GY, B. There is no constant from 7 on (30_encoding.md
R100). -/
def rom : Nat → Option Nat
  | 0 => some 0
  | 1 => some 1
  | 2 => some primeP
  | 3 => some orderN
  | 4 => some baseX
  | 5 => some baseY
  | 6 => some 7
  | _ => none

/-- `Mod`, the modulus a command's M bit selects (00_scope.md R10). -/
def modulusOf : Modulus → Nat
  | .p => primeP
  | .n => orderN

end Sys2Proof.Machine
end

