-- ==== Sys2Proof/Machine/Field.lean ====
section
/-! DEFINITION. The arithmetic of the adder/subtractor and of the multiplier as functions on values
(40_adder_subtractor.md, 41_multiplier.md). Values are natural numbers below `W` (00_scope.md R8). -/

namespace Sys2Proof.Machine

/-! ### Plain 256-bit operations: the result and C (40_adder_subtractor.md R121 to R126) -/

/-- ADD (R121): the sum modulo `W` and the carry out. -/
def add256 (va vb : Nat) : Nat × Bool := ((va + vb) % W, decide ((va + vb) / W = 1))

/-- SUB (R122): the difference modulo `W` and the borrow. -/
def sub256 (va vb : Nat) : Nat × Bool :=
  ((((va : Int) - vb) % (W : Int)).toNat, decide (va < vb))

/-- SHL1 (R125): twice the value modulo `W`, and bit 255. -/
def shl256 (va : Nat) : Nat × Bool := (va * 2 % W, va.testBit 255)

/-- SHR1 (R126): half the value, and bit 0. -/
def shr256 (va : Nat) : Nat × Bool := (va / 2, va.testBit 0)

/-! ### Modular add and subtract: the literal single-correction algorithms (R129 to R132) -/

/-- ADDM (R130): the result, and whether `md` was subtracted. Inputs not below `md` are not reduced
first (R129). -/
def addMod (md va vb : Nat) : Nat × Bool :=
  let s := va + vb
  if s / W = 1 ∨ md ≤ s % W then ((((s : Int) - md) % (W : Int)).toNat, true) else (s % W, false)

/-- SUBM (R131): the result, and whether `md` was added back. -/
def subMod (md va vb : Nat) : Nat × Bool :=
  if va < vb then ((((va : Int) - vb + W + md) % (W : Int)).toNat, true) else (va - vb, false)

/-- NEGM (R132): the result, and whether `md` was added back. -/
def negMod (md va : Nat) : Nat × Bool :=
  if 0 < va then ((((W : Int) - va + md) % (W : Int)).toNat, true) else (0, false)

/-! ### Multiply and inverse (41_multiplier.md) -/

/-- MULM (R172): the full product reduced modulo `md`. -/
def mulMod (md va vb : Nat) : Nat := va * vb % md

/-- One round a bit of the exponent, from the least significant: `acc` collects the powers of `b` whose
bit is 1. -/
def powModLoop (md : Nat) : Nat → Nat → Nat → Nat → Nat
  | 0, _, _, acc => acc
  | k + 1, b, e, acc => powModLoop md k (b * b % md) (e / 2) (if e % 2 = 1 then acc * b % md else acc)

/-- `b ^ e` modulo `md` for `e` below 2^256, by squaring, so that it can be evaluated (log 14). That it is
`b ^ e % md` is `powMod_eq` in Laws/Field.lean. -/
def powMod (md b e : Nat) : Nat := powModLoop md 256 (b % md) e (1 % md)

/-- `inv_Mod(v)` = v^(Mod−2) mod Mod (R171): the inverse of `v`, and 0 when `v` is 0 modulo `md`. -/
def invMod (md v : Nat) : Nat := powMod md v (md - 2)

end Sys2Proof.Machine
end

