-- ==== Sys2Proof/Machine/Curve.lean ====
section
/-! DEFINITION. Points and the group-law functions of the point unit and the table builder
(42_point.md R200 to R203, R207; 43_table_builder.md R240). All arithmetic is modulo P. -/

namespace Sys2Proof.Machine

/-- A point: `Inf`, or `Aff(x, y)` (00_scope.md R10). -/
inductive Point where
  | inf
  | aff (x y : Nat)
deriving DecidableEq, Repr

/-- The point is `Inf`. -/
def Point.isInf : Point → Bool
  | .inf => true
  | .aff _ _ => false

/-- The residue of an integer modulo P, in 0 .. P−1 (00_scope.md R8). -/
def modP (v : Int) : Nat := (v % (primeP : Int)).toNat

/-- Reduction of a point on reading (R200). -/
def Point.reduce : Point → Point
  | .inf => .inf
  | .aff x y => .aff (x % primeP) (y % primeP)

/-- The doubling function DBL, on a reduced point (R201). -/
def dbl : Point → Point
  | .inf => .inf
  | .aff x y =>
    if y = 0 then .inf
    else
      let lam := modP (3 * x * x * invMod primeP (2 * y))
      let x3 := modP (lam * lam - 2 * x)
      let y3 := modP (lam * ((x : Int) - x3) - y)
      .aff x3 y3

/-- The addition function ADDP, on reduced points, with the degenerate bit dz (R202). -/
def addp : Point → Point → Point × Bool
  | .inf, q => (q, false)
  | .aff x1 y1, .inf => (.aff x1 y1, false)
  | .aff x1 y1, .aff x2 y2 =>
    if x1 = x2 then
      if y1 = y2 then (dbl (.aff x1 y1), false)
      else (.inf, decide (y2 ≠ modP ((primeP : Int) - y1)))
    else
      let lam := modP (((y2 : Int) - y1) * invMod primeP (modP ((x2 : Int) - x1)))
      let x3 := modP (lam * lam - x1 - x2)
      let y3 := modP (lam * ((x1 : Int) - x3) - y1)
      (.aff x3 y3, false)

/-- The negation function NEG, on a reduced point (R203). -/
def neg : Point → Point
  | .inf => .inf
  | .aff x y => .aff x (modP ((primeP : Int) - y))

/-- The curve check on unreduced coordinates: both canonical, and y² = x³ + 7 modulo P (R207). -/
def onCurve (x y : Nat) : Bool :=
  decide (x < primeP) && decide (y < primeP) &&
    modP ((y : Int) * y - ((x : Int) * x * x + 7)) == 0

/-- The table function TAB, on a reduced point: the points 1, 3, 5 and 7 times the base by the fixed
chain, and the degenerate bit (43_table_builder.md R240). -/
def tab (b1 : Point) : List Point × Bool :=
  let b2 := dbl b1
  let r3 := addp b2 b1
  let r5 := addp r3.1 b2
  let r7 := addp r5.1 b2
  ([b1, r3.1, r5.1, r7.1], r3.2 || r5.2 || r7.2)

end Sys2Proof.Machine
end

