-- ==== Sys2Proof/Machine/Operands.lean ====
section
/-! DEFINITION. Operand memory and the operand forms: words, elements, points and tables
(20_memory.md R61 to R63), their extents, and the range check (R67, R68). -/

namespace Sys2Proof.Machine

/-! ### Words -/

/-- The word at address `a`, none if it has not been written since reset (10_state.md R32; log 5). -/
def Memory.read (m : Memory) (a : Nat) : Option Word :=
  match m with
  | [] => none
  | (b, v) :: rest => if b = a then some v else Memory.read rest a

/-- Write one word, keeping the addresses rising. -/
def Memory.write (m : Memory) (a : Nat) (w : Word) : Memory :=
  match m with
  | [] => [(a, w)]
  | (b, v) :: rest =>
    if a < b then (a, w) :: (b, v) :: rest
    else if a = b then (a, w) :: rest
    else (b, v) :: Memory.write rest a w

/-- `MemRead(a, n)` (00_scope.md R10): none if any of the words has not been written. -/
def Memory.readList (m : Memory) (a : Nat) : Nat → Option (List Word)
  | 0 => some []
  | n + 1 =>
    match m.read a, m.readList (a + 1) n with
    | some w, some ws => some (w :: ws)
    | _, _ => none

/-- `MemWrite(a, n, ws)` (00_scope.md R10). -/
def Memory.writeList (m : Memory) (a : Nat) : List Word → Memory
  | [] => m
  | w :: ws => Memory.writeList (m.write a w) (a + 1) ws

/-- The `n` words from `a` on count as not written any more (log 8). -/
def Memory.forget (m : Memory) (a n : Nat) : Memory :=
  m.filter fun c => decide (c.1 < a) || decide (a + n ≤ c.1)

/-! ### Elements (20_memory.md R61) -/

/-- The value of words in little-endian limb order. -/
def valueOfWords : List Word → Nat
  | [] => 0
  | w :: ws => w.toNat + 2 ^ 32 * valueOfWords ws

/-- The first `n` limbs of a value, least significant first. -/
def wordsOfValue : Nat → Nat → List Word
  | 0, _ => []
  | n + 1, v => BitVec.ofNat 32 v :: wordsOfValue n (v / 2 ^ 32)

/-- The 8 words of an element. -/
def elementWords (v : Nat) : List Word := wordsOfValue 8 v

/-- `ReadE(a)` (00_scope.md R10). -/
def readE (m : Memory) (a : Nat) : Option Nat := (m.readList a 8).map valueOfWords

/-- `WriteE(a, v)` (00_scope.md R10). -/
def writeE (m : Memory) (a v : Nat) : Memory := m.writeList a (elementWords v)

/-! ### Points (20_memory.md R62) -/

/-- The flag word says `Inf`: its bit 0; bits 31:1 are ignored. -/
def flagIsInf (f : Word) : Bool := f.getLsbD 0

/-- `ReadPt(a)` (00_scope.md R10). Every word of the operand is read (20_memory.md R65, R68), so every one must
have been written (70_reset_and_hazards.md R293); of infinity the coordinates' values do not matter (R62; log 6). -/
def readPt (m : Memory) (a : Nat) : Option Point :=
  match readE m a, readE m (a + 8), m.read (a + 16) with
  | some x, some y, some f => some (if flagIsInf f then .inf else .aff x y)
  | _, _, _ => none

/-- The 17 words `WritePt` writes. -/
def pointWords : Point → List Word
  | .inf => elementWords 0 ++ elementWords 0 ++ [1]
  | .aff x y => elementWords x ++ elementWords y ++ [0]

/-! ### Tables (20_memory.md R63) -/

/-- The 24 words of one table entry: x, y and −y, or zeros for infinity (43_table_builder.md R241). -/
def entryWords : Point → List Word
  | .inf => elementWords 0 ++ elementWords 0 ++ elementWords 0
  | .aff x y => elementWords x ++ elementWords y ++ elementWords (modP ((primeP : Int) - y))

/-- The words of a table: its entries in order. -/
def tableWords : List Point → List Word
  | [] => []
  | e :: es => entryWords e ++ tableWords es

/-! ### Extents and the range check (20_memory.md R67, R68) -/

/-- The words a field of this kind names, none if the field is no address. -/
def kindExtent : Kind → Option Nat
  | .element => some 8
  | .point => some 17
  | .table => some 96
  | .constant | .unused => none

/-- A field as an operand: its address and its extent, if it is an address. -/
def operandOf (x : Addr) (k : Kind) : List (Nat × Nat) :=
  match kindExtent k with
  | some n => [(x.toNat, n)]
  | none => []

/-- The source operands of a command, address and extent (R68). -/
def sourceOperands (i : Instr) : List (Nat × Nat) :=
  operandOf i.a i.opcode.kindA ++ operandOf i.b i.opcode.kindB

/-- The destination operand of a command, none for the commands that only write flags (R68). -/
def destOperand (i : Instr) : List (Nat × Nat) := operandOf i.d i.opcode.kindD

/-- Every operand of a command lies in OM: `x + n ≤ OM_WORDS`, without wrap-around (R67; step 6 of
30_encoding.md R95). -/
def inRange (omWords : Nat) (i : Instr) : Bool :=
  (destOperand i ++ sourceOperands i).all fun o => decide (o.1 + o.2 ≤ omWords)

end Sys2Proof.Machine
end

