-- ==== Sys2Proof/Machine/Flags.lean ====
section
/-! DEFINITION. STATUS: the register the host reads and writes (10_state.md R36; 60_exceptions.md R283,
R284), and the flags each shape of command writes (10_state.md R34, R35). -/

namespace Sys2Proof.Machine

/-! ### The register -/

/-- The value HostReadStatus returns (60_exceptions.md R283):
`C | Z<<1 | INF<<2 | DZ<<3 | BUSY<<4 | OVR<<5 | FLT<<6 | FCAUSE<<8`. -/
def Status.word (t : Status) : Word :=
  BitVec.ofNat 32 (t.c.toNat + t.z.toNat * 2 + t.inf.toNat * 4 + t.dz.toNat * 8 + t.busy.toNat * 16
    + t.ovr.toNat * 32 + t.flt.toNat * 64 + t.fcause.toNat * 256)

/-- HostWriteStatus (60_exceptions.md R284): bit 3 clears DZ, bit 5 clears OVR, bit 6 clears FLT and
FCAUSE; every other bit is ignored. -/
def Status.hostWrite (t : Status) (v : Word) : Status :=
  { t with
    dz := t.dz && !v.getLsbD 3
    ovr := t.ovr && !v.getLsbD 5
    flt := t.flt && !v.getLsbD 6
    fcause := if v.getLsbD 6 then 0 else t.fcause }

/-! ### The flags of a completed command -/

/-- The three flags every completed command writes (10_state.md R34). -/
structure Flags where
  c : Bool
  z : Bool
  inf : Bool
deriving DecidableEq, Repr

/-- A command with an element result `r`: Z is "result = 0", INF is 0. -/
def Flags.ofElement (r : Nat) (c : Bool) : Flags := { c := c, z := r == 0, inf := false }

/-- CMP (40_adder_subtractor.md R123). -/
def Flags.ofCompare (va vb : Nat) : Flags := { c := decide (va < vb), z := va == vb, inf := false }

/-- TST (40_adder_subtractor.md R124). -/
def Flags.ofTest (va : Nat) : Flags := { c := false, z := va == 0, inf := false }

/-- A command with a point result (42_point.md R204 to R206). -/
def Flags.ofPoint (r : Point) : Flags := { c := false, z := false, inf := r.isInf }

/-- PCHK, on the unreduced point (42_point.md R207). -/
def Flags.ofCheck : Point → Flags
  | .inf => { c := false, z := false, inf := true }
  | .aff x y => { c := false, z := onCurve x y, inf := false }

/-- TBLD, on the table's entries (43_table_builder.md R241). -/
def Flags.ofTable (es : List Point) : Flags :=
  { c := false, z := false, inf := es.any Point.isInf }

/-- STATUS after a command completes: C, Z and INF as its rule says, DZ set if the rule sets it and
otherwise as before, BUSY 0 (10_state.md R34, R37; 70_reset_and_hazards.md R296). -/
def Status.retire (t : Status) (f : Flags) (setDz : Bool) : Status :=
  { t with c := f.c, z := f.z, inf := f.inf, dz := t.dz || setDz, busy := false }

/-- STATUS when a command is accepted (60_exceptions.md R282). -/
def Status.accept (t : Status) : Status := { t with busy := true }

/-- STATUS when a HostIssue is dropped (10_state.md R38). -/
def Status.drop (t : Status) : Status := { t with ovr := true }

end Sys2Proof.Machine
end

