-- ==== Sys2Proof/Machine/Ops.lean ====
section
/-! DEFINITION. The operations the meanings share: the lane under execution, a command's result, the fault
entry (60_exceptions.md R266) and the return from it (R269), and running a command's rule
(00_scope.md R11; 70_reset_and_hazards.md R296). -/

namespace Sys2Proof.Machine

/-- The answers of a step. -/
abbrev Out := Host.Outcome State Fault Refusal

/-! ### Lanes -/

/-- Lane `l`, if there is one. -/
def State.lane (s : State) (l : Nat) : Option Lane := s.lanes[l]?

/-- The state with lane `l` replaced. -/
def State.setLane (s : State) (l : Nat) (L : Lane) : State := { s with lanes := s.lanes.set l L }

/-- The lane whose command `exec` runs. -/
def State.cur (s : State) : Option Lane := s.lane s.active

/-- The state with the lane under execution replaced. -/
def State.setCur (s : State) (L : Lane) : State := s.setLane s.active L

/-! ### The result of a command -/

/-- What a command's WRITE lines write (00_scope.md R11): `words` from OM address `dest` on, the flags, and
whether DZ is set. -/
structure Result where
  dest : Nat
  words : List Word
  flags : Flags
  setDz : Bool
deriving DecidableEq, Repr

/-- No OM write. -/
def Result.flagsOnly (f : Flags) : Result := { dest := 0, words := [], flags := f, setDz := false }

/-- An element written at `d`, with carry `c`. -/
def Result.element (d : Addr) (r : Nat) (c : Bool) (setDz : Bool := false) : Result :=
  { dest := d.toNat, words := elementWords r, flags := .ofElement r c, setDz := setDz }

/-- A point written at `d`. -/
def Result.point (d : Addr) (r : Point) (setDz : Bool := false) : Result :=
  { dest := d.toNat, words := pointWords r, flags := .ofPoint r, setDz := setDz }

/-- A table written at `d`. -/
def Result.table (d : Addr) (es : List Point) (setDz : Bool) : Result :=
  { dest := d.toNat, words := tableWords es, flags := .ofTable es, setDz := setDz }

/-- All of a command's WRITE lines, then BUSY ← 0 (70_reset_and_hazards.md R296). -/
def Lane.retire (L : Lane) (r : Result) : Lane :=
  { L with
    om := L.om.writeList r.dest r.words
    status := L.status.retire r.flags r.setDz
    inFlight := none }

/-! ### Faults -/

/-- The two fault causes (60_exceptions.md R262). -/
inductive Cause where
  | illegalCommand
  | addressRange
deriving DecidableEq, Repr

/-- The FCAUSE code of a cause (R262). -/
def Cause.code : Cause → BitVec 4
  | .illegalCommand => 1
  | .addressRange => 2

/-- Taking a fault (R266): FLT ← 1, FCAUSE ← cause, FCMD ← the command word, BUSY ← 0, nothing else. -/
def Lane.faultEntry (L : Lane) (c : Cause) (cmd : Cmd) : Lane :=
  { L with
    status := { L.status with flt := true, fcause := c.code, busy := false }
    fcmd := cmd
    inFlight := none }

/-- The return from a fault, and every other HostWriteStatus (R269, R284). FCMD keeps the faulting word. -/
def Lane.writeStatus (L : Lane) (v : Word) : Lane := { L with status := L.status.hostWrite v }

/-- Taking a fault on the lane under execution. -/
def State.enterFault (s : State) (c : Cause) (cmd : Cmd) : Out :=
  match s.cur with
  | none => .refused .noSuchLane
  | some L => .next (s.setCur (L.faultEntry c cmd))

/-! ### Running a command -/

/-- A legal command `i` on the lane under execution: the range check (step 6 of 30_encoding.md R95; FCMD
is the command's word, log 16), then its rule on the OM as it is before the command (20_memory.md R65), then
its writes. The rule answers none exactly when it reads a word not written since reset (log 5). -/
def State.runRule (s : State) (i : Instr) (rule : Memory → Option Result) : Out :=
  match s.cur with
  | none => .refused .noSuchLane
  | some L =>
    if inRange s.omWords i then
      match rule L.om with
      | none => .fault .uninit
      | some r => .next (s.setCur (L.retire r))
    else .next (s.setCur (L.faultEntry .addressRange (encode i)))

/-- The READ lines of a command with one element operand. -/
def withElement (m : Memory) (a : Addr) (f : Nat → Result) : Option Result :=
  (readE m a.toNat).map f

/-- The READ lines of a command with two element operands. -/
def withElements (m : Memory) (a b : Addr) (f : Nat → Nat → Result) : Option Result :=
  match readE m a.toNat, readE m b.toNat with
  | some va, some vb => some (f va vb)
  | _, _ => none

/-- The READ line of a command with one point operand, not reduced. -/
def withPoint (m : Memory) (a : Addr) (f : Point → Result) : Option Result :=
  (readPt m a.toNat).map f

/-- The READ lines of a command with two point operands, not reduced. -/
def withPoints (m : Memory) (a b : Addr) (f : Point → Point → Result) : Option Result :=
  match readPt m a.toNat, readPt m b.toNat with
  | some p, some q => some (f p q)
  | _, _ => none

/-! ### OM touched by the host while a command is in flight (70_reset_and_hazards.md R297; log 8) -/

/-- The host touched OM: a command in flight is marked; otherwise nothing. -/
def Lane.touch (L : Lane) : Lane :=
  { L with inFlight := L.inFlight.map fun f => { f with disturbed := true } }

/-- After a disturbed command: the words it wrote count as not written, C, Z and INF are free values, and
DZ, which was `dz0` before it, may have been set. -/
def Lane.scramble (L : Lane) (i : Instr) (dz0 : Bool) (n : Nat) : Lane :=
  { L with
    om := (destOperand i).foldl (fun m o => m.forget o.1 o.2) L.om
    status := { L.status with
      c := Config.freeFlag n, z := Config.freeFlag (n + 1), inf := Config.freeFlag (n + 2)
      dz := dz0 || Config.freeFlag (n + 3) } }

end Sys2Proof.Machine
end

