-- ==== Sys2Proof/Machine/AddSub.lean ====
section
/-! DEFINITION. The commands of the adder/subtractor unit (40_adder_subtractor.md). -/

namespace Sys2Proof.Machine

/-- ADD (R121). -/
def execAdd (d a b : Addr) (s : State) : Out :=
  s.runRule (.add d a b) fun m => withElements m a b fun va vb =>
    .element d (add256 va vb).1 (add256 va vb).2

/-- SUB (R122). -/
def execSub (d a b : Addr) (s : State) : Out :=
  s.runRule (.sub d a b) fun m => withElements m a b fun va vb =>
    .element d (sub256 va vb).1 (sub256 va vb).2

/-- CMP (R123). -/
def execCmp (a b : Addr) (s : State) : Out :=
  s.runRule (.cmp a b) fun m => withElements m a b fun va vb => .flagsOnly (.ofCompare va vb)

/-- TST (R124). -/
def execTst (a : Addr) (s : State) : Out :=
  s.runRule (.tst a) fun m => withElement m a fun va => .flagsOnly (.ofTest va)

/-- SHL1 (R125). -/
def execShl1 (d a : Addr) (s : State) : Out :=
  s.runRule (.shl1 d a) fun m => withElement m a fun va =>
    .element d (shl256 va).1 (shl256 va).2

/-- SHR1 (R126). -/
def execShr1 (d a : Addr) (s : State) : Out :=
  s.runRule (.shr1 d a) fun m => withElement m a fun va =>
    .element d (shr256 va).1 (shr256 va).2

/-- MOV (R127). -/
def execMov (d a : Addr) (s : State) : Out :=
  s.runRule (.mov d a) fun m => withElement m a fun va => .element d va false

/-- LDK (R128). A term with no constant `k` is no command: its word is illegal (30_encoding.md R100;
log 15). -/
def execLdk (d k : Addr) (s : State) : Out :=
  match rom k.toNat with
  | none => s.enterFault .illegalCommand (encode (.ldk d k))
  | some v => s.runRule (.ldk d k) fun _ => some (.element d v false)

/-- ADDM (R130). -/
def execAddm (m : Modulus) (d a b : Addr) (s : State) : Out :=
  s.runRule (.addm m d a b) fun om => withElements om a b fun va vb =>
    .element d (addMod (modulusOf m) va vb).1 (addMod (modulusOf m) va vb).2

/-- SUBM (R131). -/
def execSubm (m : Modulus) (d a b : Addr) (s : State) : Out :=
  s.runRule (.subm m d a b) fun om => withElements om a b fun va vb =>
    .element d (subMod (modulusOf m) va vb).1 (subMod (modulusOf m) va vb).2

/-- NEGM (R132). -/
def execNegm (m : Modulus) (d a : Addr) (s : State) : Out :=
  s.runRule (.negm m d a) fun om => withElement om a fun va =>
    .element d (negMod (modulusOf m) va).1 (negMod (modulusOf m) va).2

end Sys2Proof.Machine
end

