-- ==== Sys2Proof/Machine/Multiplier.lean ====
section
/-! DEFINITION. The commands of the modular multiplier unit (41_multiplier.md). -/

namespace Sys2Proof.Machine

/-- MULM (R172): the residue itself, not a Montgomery form (R170; 90_conflicts.md C1). -/
def execMulm (m : Modulus) (d a b : Addr) (s : State) : Out :=
  s.runRule (.mulm m d a b) fun om => withElements om a b fun va vb =>
    .element d (mulMod (modulusOf m) va vb) false

/-- INVM (R173): an input that is 0 modulo the modulus gives 0 and sets DZ; it is no fault. -/
def execInvm (m : Modulus) (d a : Addr) (s : State) : Out :=
  s.runRule (.invm m d a) fun om => withElement om a fun va =>
    .element d (invMod (modulusOf m) va) false (va % modulusOf m == 0)

end Sys2Proof.Machine
end

