-- ==== Sys2Proof/Machine/PointUnit.lean ====
section
/-! DEFINITION. The commands of the point unit (42_point.md). Points are reduced on reading (R200), but for
PCHK (R207). -/

namespace Sys2Proof.Machine

/-- PDBL (R204). -/
def execPdbl (d a : Addr) (s : State) : Out :=
  s.runRule (.pdbl d a) fun m => withPoint m a fun p => .point d (dbl p.reduce)

/-- PADD (R205). -/
def execPadd (d a b : Addr) (s : State) : Out :=
  s.runRule (.padd d a b) fun m => withPoints m a b fun p q =>
    .point d (addp p.reduce q.reduce).1 (addp p.reduce q.reduce).2

/-- PNEG (R206). -/
def execPneg (d a : Addr) (s : State) : Out :=
  s.runRule (.pneg d a) fun m => withPoint m a fun p => .point d (neg p.reduce)

/-- PCHK (R207), on the point as it stands in OM. -/
def execPchk (a : Addr) (s : State) : Out :=
  s.runRule (.pchk a) fun m => withPoint m a fun p => .flagsOnly (.ofCheck p)

end Sys2Proof.Machine
end

