-- ==== Sys2Proof/Machine/TableBuilder.lean ====
section
/-! DEFINITION. The command of the precomputed-table builder (43_table_builder.md). -/

namespace Sys2Proof.Machine

/-- TBLD (R241). -/
def execTbld (d a : Addr) (s : State) : Out :=
  s.runRule (.tbld d a) fun m => withPoint m a fun p =>
    .table d (tab p.reduce).1 (tab p.reduce).2

end Sys2Proof.Machine
end

