-- ==== Sys2Proof/Machine/Dispatch.lean ====
section
/-! DEFINITION. The meaning of every command, one arm a constructor, on the lane under execution. -/

namespace Sys2Proof.Machine

def exec (i : Instr) (s : State) : Host.Outcome State Fault Refusal :=
  match i with
  -- adder/subtractor, 40_adder_subtractor.md
  | .add d a b => Sys2Proof.Machine.execAdd d a b s
  | .sub d a b => Sys2Proof.Machine.execSub d a b s
  | .cmp a b => Sys2Proof.Machine.execCmp a b s
  | .tst a => Sys2Proof.Machine.execTst a s
  | .shl1 d a => Sys2Proof.Machine.execShl1 d a s
  | .shr1 d a => Sys2Proof.Machine.execShr1 d a s
  | .mov d a => Sys2Proof.Machine.execMov d a s
  | .ldk d k => Sys2Proof.Machine.execLdk d k s
  | .addm m d a b => Sys2Proof.Machine.execAddm m d a b s
  | .subm m d a b => Sys2Proof.Machine.execSubm m d a b s
  | .negm m d a => Sys2Proof.Machine.execNegm m d a s
  -- modular multiplier, 41_multiplier.md
  | .mulm m d a b => Sys2Proof.Machine.execMulm m d a b s
  | .invm m d a => Sys2Proof.Machine.execInvm m d a s
  -- point unit, 42_point.md
  | .pdbl d a => Sys2Proof.Machine.execPdbl d a s
  | .padd d a b => Sys2Proof.Machine.execPadd d a b s
  | .pneg d a => Sys2Proof.Machine.execPneg d a s
  | .pchk a => Sys2Proof.Machine.execPchk a s
  -- table builder, 43_table_builder.md
  | .tbld d a => Sys2Proof.Machine.execTbld d a s

end Sys2Proof.Machine
end

