-- ==== Sys2Proof/Machine/HostMoves.lean ====
section
/-! DEFINITION. The moves: the seven host actions (60_exceptions.md R280 to R286) and the lane's own move
(70_reset_and_hazards.md R296), and what happens when the agenda is empty. -/

namespace Sys2Proof.Machine

/-- Do `f` on lane `l`; there is no such move if there is no such lane (60_exceptions.md R276; log 10). -/
def State.onLane (s : State) (l : Nat) (f : Lane → Out) : Out :=
  match s.lane l with
  | none => .refused .noSuchLane
  | some L => f L

/-- HostWriteOM (R281). An address not below `OM_WORDS` changes no word (log 7). While BUSY = 1 the command in
flight is marked (70_reset_and_hazards.md R297; log 8), also, by DESIGN CHOICE, by an address not below
`OM_WORDS`: R281 gives that write no effect, R297 makes the results of any such call unspecified (log 19). -/
def hostWriteOM (l : Nat) (a : Addr) (w : Word) (s : State) : Out :=
  s.onLane l fun L =>
    if a.toNat < s.omWords then .next (s.setLane l { L.touch with om := L.om.write a.toNat w })
    else .next (s.setLane l L.touch)

/-- The host is returned an unspecified word, a free value. -/
def State.replyFree (s : State) : State :=
  { s with reply := .word (Config.freeWord s.fresh), fresh := s.fresh + 1 }

/-- HostReadOM (R281). A word not written since reset is UNINIT (10_state.md R32); an address not below
`OM_WORDS` returns an unspecified word (log 7), and so does a read while BUSY = 1, which marks the command
in flight (70_reset_and_hazards.md R297; log 8), whatever the address (DESIGN CHOICE, log 19). -/
def hostReadOM (l : Nat) (a : Addr) (s : State) : Out :=
  s.onLane l fun L =>
    if a.toNat < s.omWords then
      match L.om.read a.toNat with
      | none => .fault .uninit
      | some w =>
        if L.status.busy then .next (s.setLane l L.touch).replyFree
        else .next { s with reply := .word w }
    else .next (s.setLane l L.touch).replyFree

/-- A lane on HostIssue (R282): dropped, with OVR set, while BUSY = 1 or FLT = 1; otherwise accepted, whatever
the word. -/
def Lane.issue (L : Lane) (c : Cmd) : Lane :=
  if L.status.busy || L.status.flt then { L with status := L.status.drop }
  else { L with status := L.status.accept, inFlight := some { cmd := c, disturbed := false } }

/-- HostIssue (R282). -/
def hostIssue (l : Nat) (c : Cmd) (s : State) : Out :=
  s.onLane l fun L => .next (s.setLane l (L.issue c))

/-- HostReadStatus (R283). -/
def hostReadStatus (l : Nat) (s : State) : Out :=
  s.onLane l fun L => .next { s with reply := .word L.status.word }

/-- HostWriteStatus (R284), with bit 6 the return from a fault (R269). -/
def hostWriteStatus (l : Nat) (v : Word) (s : State) : Out :=
  s.onLane l fun L => .next (s.setLane l (L.writeStatus v))

/-- HostReadFCMD (R285). -/
def hostReadFCMD (l : Nat) (s : State) : Out :=
  s.onLane l fun L => .next { s with reply := .command L.fcmd }

/-- HostReset (R286; 70_reset_and_hazards.md R290), at any time. The command in flight is abandoned, and
no OM word counts as written any more (10_state.md R32; log 5). -/
def hostReset (l : Nat) (s : State) : Out :=
  s.onLane l fun _ => .next (s.setLane l .reset)

/-- The state after a disturbed command `i` (log 8). -/
def State.scrambleCur (s : State) (i : Instr) (dz0 : Bool) : State :=
  match s.cur with
  | none => s
  | some L => { s.setCur (L.scramble i dz0 s.fresh) with fresh := s.fresh + 4 }

/-- A disturbed command that ran leaves unspecified results; one that took a fault has accessed nothing. -/
def settle (s : State) (i : Instr) (f : InFlight) (dz0 : Bool) (o : Out) : Out :=
  match o with
  | .next t => if f.disturbed && inRange s.omWords i then .next (t.scrambleCur i dz0) else .next t
  | .fault r => .fault r
  | .refused r => .refused r

/-- Execute the command in flight on the lane under execution, as one atomic step: decode, then the fault
entry or the command's rule, and BUSY ← 0 (70_reset_and_hazards.md R296). -/
def runInFlight (s : State) (L : Lane) (f : InFlight) : Out :=
  match decode f.cmd with
  | .error _ => s.enterFault .illegalCommand f.cmd
  | .ok i => settle s i f L.status.dz (exec i s)

/-- The lane's own move: complete the command in flight. An idle lane executes nothing
(70_reset_and_hazards.md R295; log 4). -/
def laneTurn (l : Nat) (s : State) : Out :=
  s.onLane l fun L =>
    match L.inFlight with
    | none => .next s
    | some f => runInFlight { s with active := l } L f

/-- One move. -/
def perform (m : Move) (s : State) : Out :=
  match m with
  | .hostWriteOM l a w => hostWriteOM l a w s
  | .hostReadOM l a => hostReadOM l a s
  | .hostIssue l c => hostIssue l c s
  | .hostReadStatus l => hostReadStatus l s
  | .hostWriteStatus l v => hostWriteStatus l v s
  | .hostReadFCMD l => hostReadFCMD l s
  | .hostReset l => hostReset l s
  | .laneTurn l => laneTurn l s

/-- The index of the first lane with a command in flight, if any. -/
def firstInFlight : List Lane → Option Nat
  | [] => none
  | L :: Ls => if L.inFlight.isSome then some 0 else (firstInFlight Ls).map (· + 1)

/-- The agenda is empty: the host is silent, and the lowest-numbered lane with a command in flight
completes it (R303, every command completes; log 3). With every lane idle nothing happens (R295). -/
def quietStep (s : State) : Out :=
  match firstInFlight s.lanes with
  | none => .next s
  | some l => laneTurn l s

end Sys2Proof.Machine
end

