-- ==== Sys2Proof/Machine/Step.lean ====
section
/-! DEFINITION. One step of the machine: the next move of the agenda (log 2). There is no program counter
and no command is fetched from memory (10_state.md R33, R77; 70_reset_and_hazards.md R295). -/

namespace Sys2Proof.Machine

/-- One step: the first move of the agenda, or the quiet step when the agenda is empty. -/
def step (s : State) : Host.Outcome State Fault Refusal :=
  match s.agenda with
  | [] => quietStep s
  | m :: rest => perform m { s with agenda := rest }

/-- A lane that has accepted the command word `c`: BUSY = 1 and the command in flight, as HostIssue on an
idle lane leaves it (60_exceptions.md R282). -/
def Lane.withCommand (L : Lane) (c : Cmd) : Lane :=
  { L with status := L.status.accept, inFlight := some { cmd := c, disturbed := false } }

/-- The state in which the lane under execution has accepted the instruction and its turn comes next, so
that the very next step runs it (log 2). -/
def State.withFetchWord (s : State) (nbits w : Nat) : State :=
  match s.cur with
  | none => s
  | some L =>
    { s.setCur (L.withCommand (BitVec.ofNat 64 (w % 2 ^ nbits))) with
      agenda := .laneTurn s.active :: s.agenda }

end Sys2Proof.Machine
end

