-- ==== Sys2Proof/Machine/Assembler.lean ====
section
/-! DEFINITION. The assembler text of one command (30_encoding.md R104) and the pseudo-instructions (R105).
No behaviour of the machine depends on it (decision D19). Text is a list of characters. What R104 leaves open is
the model's choice: numbers that no legal command holds (log 20), letter case, blanks and number forms (log 21). -/

namespace Sys2Proof.Machine

/-- An operand as written: an address, or a constant index after `#`. -/
inductive AsmOperand where
  | address (x : Nat)
  | constant (k : Nat)
deriving DecidableEq, Repr

/-- A comment starts with `;` and runs to the end of the line. -/
def stripComment (line : List Char) : List Char := line.takeWhile (· != ';')

/-- Pieces of a text between the separators for which `sep` holds. -/
def splitChars (sep : Char → Bool) : List Char → List (List Char)
  | [] => [[]]
  | c :: cs =>
    if sep c then [] :: splitChars sep cs
    else
      match splitChars sep cs with
      | [] => [[c]]
      | w :: ws => (c :: w) :: ws

/-- Space or tab: the blanks of the syntax (DESIGN CHOICE, log 21). -/
def isBlank (c : Char) : Bool := c == ' ' || c == '\t'

/-- A text without the blanks around it. -/
def trimBlanks (t : List Char) : List Char :=
  ((t.dropWhile isBlank).reverse.dropWhile isBlank).reverse

/-- The value of a digit, if it is below the base; hex digits in either case (DESIGN CHOICE, log 21). -/
def digitValue (base : Nat) (c : Char) : Option Nat :=
  let n := c.toNat
  let v : Option Nat :=
    if 48 ≤ n ∧ n ≤ 57 then some (n - 48)
    else if 97 ≤ n ∧ n ≤ 102 then some (n - 87)
    else if 65 ≤ n ∧ n ≤ 70 then some (n - 55)
    else none
  match v with
  | some x => if x < base then some x else none
  | none => none

/-- Digits, continuing the number `acc`. -/
def parseDigits (base : Nat) : Nat → List Char → Option Nat
  | acc, [] => some acc
  | acc, c :: cs =>
    match digitValue base c with
    | some v => parseDigits base (acc * base + v) cs
    | none => none

/-- A number, decimal or `0x` hexadecimal (R104), the `x` in lower case, with any number of digits and no sign
(DESIGN CHOICE, log 21). -/
def parseNumber : List Char → Option Nat
  | [] => none
  | '0' :: 'x' :: d :: ds => parseDigits 16 0 (d :: ds)
  | d :: ds => parseDigits 10 0 (d :: ds)

/-- The constant names of R104, in upper case as R104 writes them (DESIGN CHOICE, log 21). -/
def constantIndexOf (name : List Char) : Option Nat :=
  if name = ['Z', 'E', 'R', 'O'] then some 0
  else if name = ['O', 'N', 'E'] then some 1
  else if name = ['P'] then some 2
  else if name = ['N'] then some 3
  else if name = ['G', 'X'] then some 4
  else if name = ['G', 'Y'] then some 5
  else if name = ['B'] then some 6
  else none

/-- One operand: a number, or `#` and, with no blank between (DESIGN CHOICE, log 21), a number or a constant's
name. -/
def parseOperand : List Char → Option AsmOperand
  | '#' :: t =>
    match constantIndexOf t with
    | some k => some (.constant k)
    | none => (parseNumber t).map .constant
  | t => (parseNumber t).map .address

/-- The operands of a line; none if one of them is malformed. -/
def parseOperands : List (List Char) → Option (List AsmOperand)
  | [] => some []
  | t :: ts =>
    match parseOperand (trimBlanks t), parseOperands ts with
    | some o, some os => some (o :: os)
    | _, _ => none

/-- The command of a mnemonic, its suffix (`.P` or `.N`, required on the five modular commands and forbidden
elsewhere) and its operands in the order D, A, B (R104), and the pseudo-instructions (R105). Mnemonics are in upper
case, as R104 writes them (DESIGN CHOICE, log 21). An LDK index of 7 or more makes the LDK of that index, whose word
is illegal (DESIGN CHOICE, log 20). -/
def buildLine (mnemonic : List Char) (suffix : Option Modulus) (ops : List AsmOperand) : Option Instr :=
  let addr (x : Nat) : Addr := BitVec.ofNat 16 x
  let is (s : List Char) : Bool := mnemonic == s
  match suffix, ops with
  | none, [.address a] =>
    if is ['T', 'S', 'T'] then some (.tst (addr a))
    else if is ['C', 'M', 'P', 'Z'] then some (.tst (addr a))
    else if is ['P', 'C', 'H', 'K'] then some (.pchk (addr a))
    else if is ['C', 'L', 'R'] then some (.ldk (addr a) 0)
    else if is ['L', 'D', 'O', 'N', 'E'] then some (.ldk (addr a) 1)
    else none
  | none, [.address d, .constant k] =>
    if is ['L', 'D', 'K'] then some (.ldk (addr d) (addr k)) else none
  | none, [.address d, .address a] =>
    if is ['C', 'M', 'P'] then some (.cmp (addr d) (addr a))
    else if is ['S', 'H', 'L', '1'] then some (.shl1 (addr d) (addr a))
    else if is ['S', 'H', 'R', '1'] then some (.shr1 (addr d) (addr a))
    else if is ['M', 'O', 'V'] then some (.mov (addr d) (addr a))
    else if is ['P', 'D', 'B', 'L'] then some (.pdbl (addr d) (addr a))
    else if is ['P', 'N', 'E', 'G'] then some (.pneg (addr d) (addr a))
    else if is ['T', 'B', 'L', 'D'] then some (.tbld (addr d) (addr a))
    else none
  | none, [.address d, .address a, .address b] =>
    if is ['A', 'D', 'D'] then some (.add (addr d) (addr a) (addr b))
    else if is ['S', 'U', 'B'] then some (.sub (addr d) (addr a) (addr b))
    else if is ['P', 'A', 'D', 'D'] then some (.padd (addr d) (addr a) (addr b))
    else none
  | some m, [.address d, .address a] =>
    if is ['N', 'E', 'G', 'M'] then some (.negm m (addr d) (addr a))
    else if is ['I', 'N', 'V', 'M'] then some (.invm m (addr d) (addr a))
    else if is ['S', 'Q', 'R', 'M'] then some (.mulm m (addr d) (addr a) (addr a))
    else if is ['D', 'B', 'L', 'M'] then some (.addm m (addr d) (addr a) (addr a))
    else none
  | some m, [.address d, .address a, .address b] =>
    if is ['A', 'D', 'D', 'M'] then some (.addm m (addr d) (addr a) (addr b))
    else if is ['S', 'U', 'B', 'M'] then some (.subm m (addr d) (addr a) (addr b))
    else if is ['M', 'U', 'L', 'M'] then some (.mulm m (addr d) (addr a) (addr b))
    else none
  | _, _ => none

/-- An operand fits its 16-bit field; a line with one that does not is no command (DESIGN CHOICE, log 20). -/
def AsmOperand.fits : AsmOperand → Bool
  | .address x => decide (x < 65536)
  | .constant k => decide (k < 65536)

/-- One line of assembler text, `MNEMONIC[.P|.N] operands` (R104); none for a line that is no command.
The suffix is in upper case and follows the mnemonic without a blank, and blanks may stand around every operand and at
both ends (DESIGN CHOICE, log 21). -/
def assembleLine (line : List Char) : Option Instr :=
  let text := trimBlanks (stripComment line)
  let head := text.takeWhile (fun c => !isBlank c)
  let tail := text.drop head.length
  match parseOperands (splitChars (· == ',') tail) with
  | none => none
  | some ops =>
    if ops.all AsmOperand.fits then
      match splitChars (· == '.') head with
      | [m] => buildLine m none ops
      | [m, ['P']] => buildLine m (some .p) ops
      | [m, ['N']] => buildLine m (some .n) ops
      | _ => none
    else none

end Sys2Proof.Machine
end

