-- ==== Sys2Proof/Safety.lean ====
section
/-! DEFINITION. What a good state and a safe run are, in the terms the statements use: the invariant of every
step, the host's duties (60_exceptions.md R287), as predicates on moves and as host procedures, and the run of a
host program and its end (70_reset_and_hazards.md R304). -/

namespace Sys2Proof.Machine

/-! ### The invariant -/

/-- A lane's fields agree: OM is canonical and lies in the address space (20_memory.md R71), BUSY says that a
command is in flight (10_state.md R37, R44), a halted lane is not busy (60_exceptions.md R268), and
FCAUSE is a cause while FLT = 1 and 0 while FLT = 0 (10_state.md R36, R39). -/
structure Lane.Inv (omWords : Nat) (L : Lane) : Prop where
  om_wf : L.om.wf
  om_bound : ∀ c ∈ L.om, c.1 < omWords
  busy_iff : L.status.busy = L.inFlight.isSome
  halted_idle : L.status.flt = true → L.status.busy = false
  fcause_flt : L.status.flt = true → L.status.fcause = 1 ∨ L.status.fcause = 2
  fcause_clear : L.status.flt = false → L.status.fcause = 0

/-- The invariant of the machine: legal sizes (00_scope.md R7), an existing lane under execution, and every
lane good. -/
structure State.Inv (s : State) : Prop where
  sizes : Config.LegalSizes s.lanes.length s.omWords
  active_lt : s.active < s.lanes.length
  lanes_inv : ∀ L ∈ s.lanes, Lane.Inv s.omWords L

/-! ### The host's duties (60_exceptions.md R287) -/

/-- Every word of every source operand of the command has been written. -/
def sourcesWritten (m : Memory) (i : Instr) : Bool :=
  (sourceOperands i).all fun o => (m.readList o.1 o.2).isSome

/-- The words a command word will read, if it is a command that runs, have been written. -/
def commandReady (omWords : Nat) (m : Memory) (c : Cmd) : Bool :=
  match decode c with
  | .ok i => !inRange omWords i || sourcesWritten m i
  | .error _ => true

/-- A move by which the host keeps its duties: OM is accessed in range and only while BUSY = 0, only written
words are read, and a command is issued only while BUSY = 0 and FLT = 0 with its sources written. -/
def Move.dutiful (s : State) : Move → Bool
  | .hostWriteOM l a _ =>
    (s.lane l).any fun L => !L.status.busy && decide (a.toNat < s.omWords)
  | .hostReadOM l a =>
    (s.lane l).any fun L =>
      !L.status.busy && decide (a.toNat < s.omWords) && (L.om.read a.toNat).isSome
  | .hostIssue l c =>
    (s.lane l).any fun L =>
      !L.status.busy && !L.status.flt && commandReady s.omWords L.om c
  | .hostReadStatus l | .hostWriteStatus l _ | .hostReadFCMD l | .hostReset l | .laneTurn l =>
    (s.lane l).isSome

/-- The duties on the operands of a command: INVM's is not 0 modulo the modulus, and TBLD's base passes PCHK
(42_point.md R207) unless the host trusts it. Which points a host trusts is its own knowledge. -/
def operandsCareful (trusted : Point → Bool) (m : Memory) : Instr → Bool
  | .invm md _ a => (readE m a.toNat).all fun v => v % modulusOf md != 0
  | .tbld _ a => (readPt m a.toNat).all fun p => trusted p || (Flags.ofCheck p).z
  | .add _ _ _ | .sub _ _ _ | .cmp _ _ | .tst _ | .shl1 _ _ | .shr1 _ _ | .mov _ _ | .ldk _ _
  | .addm _ _ _ _ | .subm _ _ _ _ | .negm _ _ _ | .mulm _ _ _ _
  | .pdbl _ _ | .padd _ _ _ | .pneg _ _ | .pchk _ => true

/-- The command word, if it is a command that runs, has operands as `operandsCareful` says. -/
def commandCareful (trusted : Point → Bool) (omWords : Nat) (m : Memory) (c : Cmd) : Bool :=
  match decode c with
  | .ok i => !inRange omWords i || operandsCareful trusted m i
  | .error _ => true

/-- A move by which the host keeps every duty of R287 that one move can keep: it is dutiful, and a command it
issues is careful. The check of DZ after a sequence is `checkedSequence`. -/
def Move.keepsDuties (trusted : Point → Bool) (s : State) (m : Move) : Bool :=
  m.dutiful s && match m with
    | .hostIssue l c => (s.lane l).any fun L => commandCareful trusted s.omWords L.om c
    | .hostWriteOM _ _ _ | .hostReadOM _ _ | .hostReadStatus _ | .hostWriteStatus _ _
    | .hostReadFCMD _ | .hostReset _ | .laneTurn _ => true

/-- A lane whose command in flight, if any, is careful. -/
def Lane.Careful (trusted : Point → Bool) (omWords : Nat) (L : Lane) : Prop :=
  ∀ f, L.inFlight = some f → commandCareful trusted omWords L.om f.cmd = true

/-- Every lane is careful. -/
def State.Careful (trusted : Point → Bool) (s : State) : Prop := ∀ L ∈ s.lanes, Lane.Careful trusted s.omWords L

/-- A lane whose command in flight, if any, was left alone by the host and has its sources written. -/
def Lane.Ready (omWords : Nat) (L : Lane) : Prop :=
  ∀ f, L.inFlight = some f → f.disturbed = false ∧ commandReady omWords L.om f.cmd = true

/-- Every lane is ready. -/
def State.Ready (s : State) : Prop := ∀ L ∈ s.lanes, Lane.Ready s.omWords L

/-- No command is in flight. -/
def State.idle (s : State) : Prop := ∀ L ∈ s.lanes, L.inFlight = none

/-- The lane a move is about. -/
def Move.lane : Move → Nat
  | .hostWriteOM l _ _ | .hostReadOM l _ | .hostIssue l _ | .hostReadStatus l
  | .hostWriteStatus l _ | .hostReadFCMD l | .hostReset l | .laneTurn l => l

/-! ### The run of a host program (70_reset_and_hazards.md R304) -/

/-- A host program for one lane: the HostWriteOM actions, then the commands. -/
structure HostProgram where
  writes : List (Addr × Word)
  commands : List Cmd
deriving DecidableEq, Repr

/-- How a run ends: the last command has completed and the observation is OM and STATUS; a command has
faulted and the observation is FCAUSE and FCMD; or a command was dropped (OVR = 1). -/
inductive RunEnd where
  | completed (om : Memory) (status : Word)
  | faulted (fcause : BitVec 4) (fcmd : Cmd)
  | dropped
deriving DecidableEq, Repr

/-- Moves in order, up to the first stop. -/
def performAll : List Move → State → Out
  | [], s => .next s
  | m :: ms, s =>
    match perform m s with
    | .next t => performAll ms t
    | .fault r => .fault r
    | .refused r => .refused r

/-- The lane is halted (60_exceptions.md R268). -/
def State.halted (s : State) (l : Nat) : Bool := (s.lane l).any fun L => L.status.flt

/-- The commands of a program, each issued when the one before it has completed; a fault ends the run. -/
def runCommands (l : Nat) : List Cmd → State → Out
  | [], s => .next s
  | c :: cs, s =>
    match performAll [.hostIssue l c, .laneTurn l] s with
    | .next t => if t.halted l then .next t else runCommands l cs t
    | .fault r => .fault r
    | .refused r => .refused r

/-- What is observed of a lane at the end of a run. -/
def Lane.observe (L : Lane) : RunEnd :=
  if L.status.ovr then .dropped
  else if L.status.flt then .faulted L.status.fcause L.fcmd
  else .completed L.om L.status.word

/-- The run of a host program on lane `l`: reset, the writes, the commands. -/
def runProgram (l : Nat) (p : HostProgram) (s : State) : Out :=
  match performAll (.hostReset l :: p.writes.map fun x => .hostWriteOM l x.1 x.2) s with
  | .next t => runCommands l p.commands t
  | .fault r => .fault r
  | .refused r => .refused r

/-! ### Host procedures that keep the duties no single move can (60_exceptions.md R287) -/

/-- Go on from a next state. -/
def andThen (o : Out) (f : State → Out) : Out :=
  match o with
  | .next t => f t
  | .fault r => .fault r
  | .refused r => .refused r

/-- The command sets DZ (60_exceptions.md R279): INVM of 0 modulo the modulus, and PADD and TBLD on a degenerate
addition. -/
def setsDz (m : Memory) : Instr → Bool
  | .invm md _ a => (readE m a.toNat).any fun v => v % modulusOf md == 0
  | .padd _ a b =>
    match readPt m a.toNat, readPt m b.toNat with
    | some p, some q => (addp p.reduce q.reduce).2
    | _, _ => false
  | .tbld _ a => (readPt m a.toNat).any fun p => (tab p.reduce).2
  | .add _ _ _ | .sub _ _ _ | .cmp _ _ | .tst _ | .shl1 _ _ | .shr1 _ _ | .mov _ _ | .ldk _ _
  | .addm _ _ _ _ | .subm _ _ _ _ | .negm _ _ _ | .mulm _ _ _ _
  | .pdbl _ _ | .pneg _ _ | .pchk _ => false

/-- The command word is a command that runs and sets DZ. -/
def commandSetsDz (omWords : Nat) (m : Memory) (c : Cmd) : Bool :=
  match decode c with
  | .ok i => inRange omWords i && setsDz m i
  | .error _ => false

/-- Some command of the sequence, as `runCommands` runs it, sets DZ. -/
def commandsSetDz (l : Nat) : List Cmd → State → Bool
  | [], _ => false
  | c :: cs, s =>
    ((s.lane l).any fun L => commandSetsDz s.omWords L.om c) ||
      match performAll [.hostIssue l c, .laneTurn l] s with
      | .next t => !t.halted l && commandsSetDz l cs t
      | .fault _ | .refused _ => false

/-- "Check DZ after a sequence" (R287; 70_reset_and_hazards.md R301): clear DZ, run the commands, read STATUS. -/
def checkedSequence (l : Nat) (cs : List Cmd) (s : State) : Out :=
  andThen (perform (.hostWriteStatus l 0x08) s) fun s1 =>
    andThen (runCommands l cs s1) (perform (.hostReadStatus l))

/-- The STATUS read shows a command that has completed with Z = 1. -/
def Reply.showsCheckPassed : Reply → Bool
  | .word v => v.getLsbD 1 && !v.getLsbD 4 && !v.getLsbD 6
  | .nothing | .command _ => false

/-- "Validate a base with PCHK before TBLD" (R287): PCHK the base, read STATUS, and build the table only if Z is
1. -/
def checkedTable (l : Nat) (d a : Addr) (s : State) : Out :=
  andThen (performAll [.hostIssue l (encode (.pchk a)), .laneTurn l, .hostReadStatus l] s) fun t =>
    if t.reply.showsCheckPassed then performAll [.hostIssue l (encode (.tbld d a)), .laneTurn l] t
    else .next t

end Sys2Proof.Machine
end

