-- ==== Sys2Proof/Certificates/Slice0/Obligations.lean ====
section
/-! DEFINITION. The statements for the provers. Each docstring names the rule of spec/ it formalises; a clause
that rests on a choice of the model says so and names its log entry. -/

namespace Sys2Proof.Machine

/-! ### Words the statements share -/

/-- The commands' operands, address and extent: the destination (30_encoding.md R94; 20_memory.md R67,
R68). -/
def destTable : Instr → List (Nat × Nat)
  | .add d _ _ | .sub d _ _ | .shl1 d _ | .shr1 d _ | .mov d _ | .ldk d _
  | .addm _ d _ _ | .subm _ d _ _ | .negm _ d _ | .mulm _ d _ _ | .invm _ d _ => [(d.toNat, 8)]
  | .pdbl d _ | .padd d _ _ | .pneg d _ => [(d.toNat, 17)]
  | .tbld d _ => [(d.toNat, 96)]
  | .cmp _ _ | .tst _ | .pchk _ => []

/-- The commands' operands, address and extent: the sources (20_memory.md R67, R68). -/
def sourceTable : Instr → List (Nat × Nat)
  | .add _ a b | .sub _ a b | .cmp a b | .addm _ _ a b | .subm _ _ a b | .mulm _ _ a b =>
    [(a.toNat, 8), (b.toNat, 8)]
  | .tst a | .shl1 _ a | .shr1 _ a | .mov _ a | .negm _ _ a | .invm _ _ a => [(a.toNat, 8)]
  | .ldk _ _ => []
  | .padd _ a b => [(a.toNat, 17), (b.toNat, 17)]
  | .pdbl _ a | .pneg _ a | .pchk a | .tbld _ a => [(a.toNat, 17)]

/-- Every operand of the command lies in OM (20_memory.md R67). -/
def Fits (omWords : Nat) (i : Instr) : Prop :=
  ∀ o ∈ destTable i ++ sourceTable i, o.1 + o.2 ≤ omWords

/-- Every word of every source operand has been written. -/
def Written (m : Memory) (i : Instr) : Prop :=
  ∀ o ∈ sourceTable i, ∀ x, o.1 ≤ x → x < o.1 + o.2 → (m.read x).isSome = true

/-- The lane after the fault entry with cause code `code` (60_exceptions.md R266): nothing but FLT, FCAUSE,
FCMD, BUSY and the command in flight has changed. -/
def faulted (L : Lane) (code : BitVec 4) (cmd : Cmd) : Lane :=
  { L with
    status := { L.status with flt := true, fcause := code, busy := false }
    fcmd := cmd
    inFlight := none }

/-- The word of `i` is `OPC + M·2^8 + D·2^16 + A·2^32 + B·2^48`, and it decodes to `i` (30_encoding.md R91). -/
def EncodesAs (i : Instr) (opc m : Nat) (d a b : Addr) : Prop :=
  encode i = BitVec.ofNat 64
      (opc + m * 2 ^ 8 + d.toNat * 2 ^ 16 + a.toNat * 2 ^ 32 + b.toNat * 2 ^ 48) ∧
    decode (encode i) = .ok i

/-- The assembler line (30_encoding.md R104) is command `i`, whose word is `w`. -/
def Assembles (line : String) (i : Instr) (w : Cmd) : Prop :=
  assembleLine line.toList = some i ∧ encode i = w ∧ decode w = .ok i

/-- M = 1 in the word. -/
def mSet (w : Cmd) : Prop := w.getLsbD 8 = true

/-- RSV ≠ 0 in the word. -/
def rsvSet (w : Cmd) : Prop := w.extractLsb' 9 7 ≠ 0

/-- D ≠ 0 in the word. -/
def dSet (w : Cmd) : Prop := w.extractLsb' 16 16 ≠ 0

/-- B ≠ 0 in the word. -/
def bSet (w : Cmd) : Prop := w.extractLsb' 48 16 ≠ 0

/-- The words with this OPC that are no command are exactly those with `bad`. -/
def IllegalExactly (opc : Nat) (bad : Cmd → Prop) : Prop :=
  ∀ w : Cmd, (w.extractLsb' 0 8).toNat = opc → ((∃ e, decode w = .error e) ↔ bad w)

/-- With an operand past the end of OM the command takes ADDRESS_RANGE (60_exceptions.md R264, R266). -/
def RangeFault (i : Instr) (operands : List (Nat × Nat)) : Prop :=
  ∀ (s : State) (L : Lane), s.cur = some L → (∃ o ∈ operands, s.omWords < o.1 + o.2) →
    exec i s = .next (s.setCur (faulted L 2 (encode i)))

/-- Command `i` completes on lane `L` of `s`: it writes element `r` at `d` and no other OM word, C is `c`, Z is
"r = 0", INF is 0, DZ is set if `setDz` and otherwise as before, BUSY is 0, no command is in flight, and
nothing else of the lane or the machine changes. -/
def CompletesElement (i : Instr) (s : State) (L : Lane) (d : Addr) (r : Nat) (c setDz : Bool) : Prop :=
  ∃ om', exec i s = .next (s.setCur { L with
      om := om'
      status := { L.status with
        c := c, z := decide (r = 0), inf := false, dz := L.status.dz || setDz, busy := false }
      inFlight := none }) ∧
    readE om' d.toNat = some r ∧
    ∀ x, x < d.toNat ∨ d.toNat + 8 ≤ x → om'.read x = L.om.read x

/-- Command `i` completes on lane `L` of `s` with these flags, DZ as before and no OM write. -/
def CompletesFlags (i : Instr) (s : State) (L : Lane) (c z inf : Bool) : Prop :=
  exec i s = .next (s.setCur { L with
    status := { L.status with c := c, z := z, inf := inf, busy := false }
    inFlight := none })

/-- The words of point `r` stand at `d`: x, y, and the whole flag word (20_memory.md R62). -/
def HoldsPoint (m : Memory) (d : Nat) : Point → Prop
  | .inf => readE m d = some 0 ∧ readE m (d + 8) = some 0 ∧ m.read (d + 16) = some 1
  | .aff x y => readE m d = some x ∧ readE m (d + 8) = some y ∧ m.read (d + 16) = some 0

/-- The words of table entry `e` stand at `a`: x, y and −y, or zeros (43_table_builder.md R241). -/
def HoldsEntry (m : Memory) (a : Nat) : Point → Prop
  | .inf => readE m a = some 0 ∧ readE m (a + 8) = some 0 ∧ readE m (a + 16) = some 0
  | .aff x y => readE m a = some x ∧ readE m (a + 8) = some y ∧ readE m (a + 16) = some ((primeP - y) % primeP)

/-- Command `i` completes on lane `L` of `s`: it writes point `r` at `d` and no other OM word, C and Z are 0,
INF is "r = Inf", DZ is set if `setDz` and otherwise as before. -/
def CompletesPoint (i : Instr) (s : State) (L : Lane) (d : Addr) (r : Point) (setDz : Bool) : Prop :=
  ∃ om', exec i s = .next (s.setCur { L with
      om := om'
      status := { L.status with
        c := false, z := false, inf := decide (r = .inf), dz := L.status.dz || setDz, busy := false }
      inFlight := none }) ∧
    HoldsPoint om' d.toNat r ∧
    ∀ x, x < d.toNat ∨ d.toNat + 17 ≤ x → om'.read x = L.om.read x

/-- An affine point with canonical coordinates on y² = x³ + 7, or infinity. -/
def OnCurveOrInf : Point → Prop
  | .inf => True
  | .aff x y => x < primeP ∧ y < primeP ∧ y * y % primeP = (x * x * x + 7) % primeP

/-- Both coordinates below P: what reading a point leaves (42_point.md R200). -/
def Reduced : Point → Prop
  | .inf => True
  | .aff x y => x < primeP ∧ y < primeP

/-- The curve y² = x³ + 7 over the field of P elements (00_scope.md R3), as Mathlib states curves. -/
def secp256k1 : WeierstrassCurve.Affine (ZMod primeP) := { a₁ := 0, a₂ := 0, a₃ := 0, a₄ := 0, a₆ := 7 }

/-- The model's point `p` is Mathlib's point `P` of the curve: both are infinity, or `p` has the canonical
coordinates of `P`. -/
def Represents (p : Point) (P : secp256k1.Point) : Prop :=
  match p, P with
  | .inf, .zero => True
  | .aff x y, .some x' y' _ => x < primeP ∧ y < primeP ∧ x' = x ∧ y' = y
  | _, _ => False

/-- The move that comes next: the first of the agenda. -/
def State.nextMove (s : State) : Option Move := s.agenda.head?

end Sys2Proof.Machine

open Sys2Proof Sys2Proof.Machine

/-! ### Encoding (30_encoding.md) -/

/-- Decoding the word of a command gives the command back (R91, R94, R95). -/
def Obligations.DecodeOfEncodeIsIdentity : Prop :=
  ∀ i : Instr, i.wellFormed = true → decode (encode i) = .ok i

/-- The decoder is total, and a legal word is the word of what it decodes to; so two different legal words
never decode to the same command (R102). -/
def Obligations.LegalWordsDecodeInjectively : Prop :=
  (∀ w : Cmd, (∃ i, decode w = .ok i) ∨ ∃ e, decode w = .error e) ∧
  (∀ (w : Cmd) (i : Instr), decode w = .ok i → i.wellFormed = true ∧ encode i = w) ∧
  ∀ (w w' : Cmd) (i : Instr), decode w = .ok i → decode w' = .ok i → w = w'

/-- A word is a legal command of an opcode iff it matches under the opcode's mask and, for LDK, K ≤ 6; with
the match and mask values of the opcode table (R103). -/
def Obligations.MatchAndMaskDecideLegality : Prop :=
  (∀ (op : Opcode) (w : Cmd), (∃ i, decode w = .ok i ∧ i.opcode = op) ↔
    w &&& op.maskWord = op.matchWord ∧ (op = .ldk → (w.extractLsb' 32 16).toNat ≤ 6)) ∧
  ∀ x ∈ ([(.add, 0x01, 0x000000000000FFFF), (.sub, 0x02, 0x000000000000FFFF),
      (.cmp, 0x03, 0x00000000FFFFFFFF), (.tst, 0x04, 0xFFFF0000FFFFFFFF),
      (.shl1, 0x05, 0xFFFF00000000FFFF), (.shr1, 0x06, 0xFFFF00000000FFFF),
      (.mov, 0x07, 0xFFFF00000000FFFF), (.ldk, 0x08, 0xFFFF00000000FFFF),
      (.addm, 0x10, 0x000000000000FEFF), (.subm, 0x11, 0x000000000000FEFF),
      (.negm, 0x12, 0xFFFF00000000FEFF), (.mulm, 0x20, 0x000000000000FEFF),
      (.invm, 0x21, 0xFFFF00000000FEFF), (.pdbl, 0x30, 0xFFFF00000000FFFF),
      (.padd, 0x31, 0x000000000000FFFF), (.pneg, 0x32, 0xFFFF00000000FFFF),
      (.pchk, 0x33, 0xFFFF0000FFFFFFFF), (.tbld, 0x40, 0xFFFF00000000FFFF)] :
      List (Opcode × Cmd × Cmd)), x.1.matchWord = x.2.1 ∧ x.1.maskWord = x.2.2

/-- The worked encodings: the assembler text, its word, and the command the word decodes to (R106). -/
def Obligations.WorkedEncodingsDecode : Prop :=
  ∀ x ∈ ([("MULM.P 0x010, 0x000, 0x008", 0x0008000000100020, .mulm .p 0x010 0x000 0x008),
      ("MULM.N 0x010, 0x000, 0x008", 0x0008000000100120, .mulm .n 0x010 0x000 0x008),
      ("LDK 0x000, #GX", 0x0000000400000008, .ldk 0x000 4),
      ("PADD 0x040, 0x020, 0x000", 0x0000002000400031, .padd 0x040 0x020 0x000),
      ("TBLD 0x080, 0x000", 0x0000000000800040, .tbld 0x080 0x000),
      ("CMP 0x098, 0x040", 0x0040009800000003, .cmp 0x098 0x040)] : List (String × Cmd × Instr)),
    assembleLine x.1.toList = some x.2.2 ∧ encode x.2.2 = x.2.1 ∧ decode x.2.1 = .ok x.2.2

/-- The pseudo-instructions and their expansions, on one line each (R105). -/
def Obligations.PseudoInstructionsExpand : Prop :=
  ∀ x ∈ ([("SQRM.P 0x018, 0x008", "MULM.P 0x018, 0x008, 0x008"),
      ("SQRM.N 24, 8", "MULM.N 24, 8, 8"),
      ("DBLM.P 0x018, 0x008", "ADDM.P 0x018, 0x008, 0x008"),
      ("DBLM.N 24, 8", "ADDM.N 24, 8, 8"),
      ("CLR 0x018", "LDK 0x018, #ZERO"), ("LDONE 0x018", "LDK 0x018, #ONE"),
      ("CMPZ 0x008", "TST 0x008")] : List (String × String)),
    assembleLine x.1.toList = assembleLine x.2.toList ∧ assembleLine x.1.toList ≠ none

/-! ### Faults and the step (60_exceptions.md, 70_reset_and_hazards.md) -/

/-- A word in flight that is no command takes ILLEGAL_COMMAND, whatever its addresses, and a word that is one
decodes: the conditions are those of R263, bit by bit (R263, R265, R266). -/
def Obligations.IllegalWordTakesFault : Prop :=
  ∀ (s : State) (l : Nat) (L : Lane) (f : InFlight), s.lane l = some L → L.inFlight = some f →
    let opc := (f.cmd.extractLsb' 0 8).toNat
    let legal :=
      (opc ∈ [0x01, 0x02, 0x03, 0x04, 0x05, 0x06, 0x07, 0x08, 0x10, 0x11, 0x12, 0x20, 0x21,
        0x30, 0x31, 0x32, 0x33, 0x40]) ∧
      ¬ rsvSet f.cmd ∧
      (mSet f.cmd → opc ∈ [0x10, 0x11, 0x12, 0x20, 0x21]) ∧
      (dSet f.cmd → opc ∉ [0x03, 0x04, 0x33]) ∧
      (bSet f.cmd → opc ∈ [0x01, 0x02, 0x03, 0x10, 0x11, 0x20, 0x31]) ∧
      (opc = 0x08 → (f.cmd.extractLsb' 32 16).toNat < 7)
    (¬ legal → perform (.laneTurn l) s =
      .next ({ s with active := l }.setLane l (faulted L 1 f.cmd))) ∧
    (legal → ∃ i, decode f.cmd = .ok i)

/-- A legal command with an operand past the end of OM takes ADDRESS_RANGE with its word in FCMD, and accesses
nothing: it does not matter what has been written (R264, R266). -/
def Obligations.OperandPastEndTakesFault : Prop :=
  ∀ (i : Instr) (s : State) (L : Lane), i.wellFormed = true → s.cur = some L → ¬ Fits s.omWords i →
    exec i s = .next (s.setCur (faulted L 2 (encode i)))

/-- No command faults because of the values of its operands: in range and with its sources written, every
command completes, and FLT, FCAUSE and FCMD stay as they were (R261). -/
def Obligations.NoOperandValueFaults : Prop :=
  ∀ (i : Instr) (s : State) (L : Lane), i.wellFormed = true → s.cur = some L →
    Fits s.omWords i → Written L.om i →
    ∃ L', exec i s = .next (s.setCur L') ∧ L'.status.flt = L.status.flt ∧
      L'.status.fcause = L.status.fcause ∧ L'.fcmd = L.fcmd ∧ L'.status.ovr = L.status.ovr ∧
      L'.status.busy = false ∧ L'.inFlight = none

/-- A command stops only with UNINIT, exactly when it is in range and some word of its source operands has not been
written (10_state.md R32; 70_reset_and_hazards.md R293). The spec asks a model for this fault, the block has none
(log 5); that a point at infinity needs its coordinate words written, too, is log 6. -/
def Obligations.CommandStopsOnlyOnUnwrittenWord : Prop :=
  ∀ (i : Instr) (s : State) (L : Lane), i.wellFormed = true → s.cur = some L →
    (∀ r, exec i s ≠ .refused r) ∧
    ∀ r, exec i s = .fault r ↔
      r = .uninit ∧ Fits s.omWords i ∧ ¬ Written L.om i

/-- The lane's own move: the agenda's turn of a lane runs the decoded command in flight on that lane, and does
nothing on an idle lane (R295, R296). The agenda and the clause on an idle lane are the model's (log 2,
log 4). -/
def Obligations.StepRunsDecodedCommand : Prop :=
  (∀ (s : State) (l : Nat) (rest : List Move) (L : Lane) (f : InFlight) (i : Instr),
    s.agenda = .laneTurn l :: rest → s.lane l = some L → L.inFlight = some f →
    f.disturbed = false → decode f.cmd = .ok i →
    step s = exec i { s with agenda := rest, active := l }) ∧
  ∀ (s : State) (l : Nat) (rest : List Move) (L : Lane),
    s.agenda = .laneTurn l :: rest → s.lane l = some L → L.inFlight = none →
    step s = .next { s with agenda := rest }

/-! ### The adder/subtractor unit (40_adder_subtractor.md) -/

/-- ADD (R121). -/
def Obligations.AddWritesSumAndCarry : Prop :=
  (∀ d a b, EncodesAs (.add d a b) 0x01 0 d a b ∧
    RangeFault (.add d a b) [(d.toNat, 8), (a.toNat, 8), (b.toNat, 8)]) ∧
  IllegalExactly 0x01 (fun w => mSet w ∨ rsvSet w) ∧
  Assembles "ADD 0x18, 0x08, 0x10" (.add 0x18 0x08 0x10) 0x0010000800180001 ∧
  ∀ (s : State) (L : Lane) (d a b : Addr) (va vb : Nat), s.cur = some L →
    d.toNat + 8 ≤ s.omWords → a.toNat + 8 ≤ s.omWords → b.toNat + 8 ≤ s.omWords →
    readE L.om a.toNat = some va → readE L.om b.toNat = some vb →
    CompletesElement (.add d a b) s L d ((va + vb) % 2 ^ 256) (decide ((va + vb) / 2 ^ 256 = 1)) false

/-- SUB (R122). -/
def Obligations.SubWritesDifferenceAndBorrow : Prop :=
  (∀ d a b, EncodesAs (.sub d a b) 0x02 0 d a b ∧
    RangeFault (.sub d a b) [(d.toNat, 8), (a.toNat, 8), (b.toNat, 8)]) ∧
  IllegalExactly 0x02 (fun w => mSet w ∨ rsvSet w) ∧
  Assembles "SUB 0x18, 0x08, 0x10" (.sub 0x18 0x08 0x10) 0x0010000800180002 ∧
  ∀ (s : State) (L : Lane) (d a b : Addr) (va vb : Nat), s.cur = some L →
    d.toNat + 8 ≤ s.omWords → a.toNat + 8 ≤ s.omWords → b.toNat + 8 ≤ s.omWords →
    readE L.om a.toNat = some va → readE L.om b.toNat = some vb →
    CompletesElement (.sub d a b) s L d (if va < vb then va + 2 ^ 256 - vb else va - vb)
      (decide (va < vb)) false

/-- CMP (R123). -/
def Obligations.CmpOrdersUnsigned : Prop :=
  (∀ a b, EncodesAs (.cmp a b) 0x03 0 0 a b ∧ RangeFault (.cmp a b) [(a.toNat, 8), (b.toNat, 8)]) ∧
  IllegalExactly 0x03 (fun w => mSet w ∨ rsvSet w ∨ dSet w) ∧
  Assembles "CMP 0x08, 0x10" (.cmp 0x08 0x10) 0x0010000800000003 ∧
  ∀ (s : State) (L : Lane) (a b : Addr) (va vb : Nat), s.cur = some L →
    a.toNat + 8 ≤ s.omWords → b.toNat + 8 ≤ s.omWords →
    readE L.om a.toNat = some va → readE L.om b.toNat = some vb →
    CompletesFlags (.cmp a b) s L (decide (va < vb)) (decide (va = vb)) false

/-- TST (R124). -/
def Obligations.TstTestsZero : Prop :=
  (∀ a, EncodesAs (.tst a) 0x04 0 0 a 0 ∧ RangeFault (.tst a) [(a.toNat, 8)]) ∧
  IllegalExactly 0x04 (fun w => mSet w ∨ rsvSet w ∨ dSet w ∨ bSet w) ∧
  Assembles "TST 0x08" (.tst 0x08) 0x0000000800000004 ∧
  ∀ (s : State) (L : Lane) (a : Addr) (va : Nat), s.cur = some L → a.toNat + 8 ≤ s.omWords →
    readE L.om a.toNat = some va →
    CompletesFlags (.tst a) s L false (decide (va = 0)) false

/-- SHL1 (R125). -/
def Obligations.ShiftLeftMovesBit255ToCarry : Prop :=
  (∀ d a, EncodesAs (.shl1 d a) 0x05 0 d a 0 ∧ RangeFault (.shl1 d a) [(d.toNat, 8), (a.toNat, 8)]) ∧
  IllegalExactly 0x05 (fun w => mSet w ∨ rsvSet w ∨ bSet w) ∧
  Assembles "SHL1 0x18, 0x08" (.shl1 0x18 0x08) 0x0000000800180005 ∧
  ∀ (s : State) (L : Lane) (d a : Addr) (va : Nat), s.cur = some L →
    d.toNat + 8 ≤ s.omWords → a.toNat + 8 ≤ s.omWords → readE L.om a.toNat = some va →
    CompletesElement (.shl1 d a) s L d (va * 2 % 2 ^ 256) (decide (2 ^ 255 ≤ va)) false

/-- SHR1 (R126). -/
def Obligations.ShiftRightMovesBit0ToCarry : Prop :=
  (∀ d a, EncodesAs (.shr1 d a) 0x06 0 d a 0 ∧ RangeFault (.shr1 d a) [(d.toNat, 8), (a.toNat, 8)]) ∧
  IllegalExactly 0x06 (fun w => mSet w ∨ rsvSet w ∨ bSet w) ∧
  Assembles "SHR1 0x18, 0x08" (.shr1 0x18 0x08) 0x0000000800180006 ∧
  ∀ (s : State) (L : Lane) (d a : Addr) (va : Nat), s.cur = some L →
    d.toNat + 8 ≤ s.omWords → a.toNat + 8 ≤ s.omWords → readE L.om a.toNat = some va →
    CompletesElement (.shr1 d a) s L d (va / 2) (decide (va % 2 = 1)) false

/-- MOV (R127); the source words are those before the command, whatever the overlap (20_memory.md R65). -/
def Obligations.MovCopiesElement : Prop :=
  (∀ d a, EncodesAs (.mov d a) 0x07 0 d a 0 ∧ RangeFault (.mov d a) [(d.toNat, 8), (a.toNat, 8)]) ∧
  IllegalExactly 0x07 (fun w => mSet w ∨ rsvSet w ∨ bSet w) ∧
  Assembles "MOV 0x18, 0x08" (.mov 0x18 0x08) 0x0000000800180007 ∧
  ∀ (s : State) (L : Lane) (d a : Addr) (va : Nat), s.cur = some L →
    d.toNat + 8 ≤ s.omWords → a.toNat + 8 ≤ s.omWords → readE L.om a.toNat = some va →
    CompletesElement (.mov d a) s L d va false false

/-- LDK (R128), with the ROM of 10_state.md R40. The values of N, GX and GY are general knowledge by the spec's
own mark (log 13). -/
def Obligations.LdkLoadsRomConstant : Prop :=
  (∀ d k : Addr, k.toNat < 7 → EncodesAs (.ldk d k) 0x08 0 d k 0 ∧ RangeFault (.ldk d k) [(d.toNat, 8)]) ∧
  IllegalExactly 0x08 (fun w => mSet w ∨ rsvSet w ∨ bSet w ∨ 7 ≤ (w.extractLsb' 32 16).toNat) ∧
  Assembles "LDK 0x18, #P" (.ldk 0x18 2) 0x0000000200180008 ∧
  Assembles "LDK 0x18, #2" (.ldk 0x18 2) 0x0000000200180008 ∧
  ∀ (s : State) (L : Lane) (d k : Addr) (v : Nat), s.cur = some L → d.toNat + 8 ≤ s.omWords →
    [0, 1, 2 ^ 256 - 2 ^ 32 - 977,
      0xFFFFFFFFFFFFFFFFFFFFFFFFFFFFFFFEBAAEDCE6AF48A03BBFD25E8CD0364141,
      0x79BE667EF9DCBBAC55A06295CE870B07029BFCDB2DCE28D959F2815B16F81798,
      0x483ADA7726A3C4655DA4FBFC0E1108A8FD17B448A68554199C47D08FFB10D4B8, 7][k.toNat]? = some v →
    CompletesElement (.ldk d k) s L d v false false

/-- ADDM (R130): the literal single-correction algorithm, on every pair of 256-bit values (R129). -/
def Obligations.AddmCorrectsOnce : Prop :=
  (∀ m d a b, EncodesAs (.addm m d a b) 0x10 (if m = .n then 1 else 0) d a b ∧
    RangeFault (.addm m d a b) [(d.toNat, 8), (a.toNat, 8), (b.toNat, 8)]) ∧
  IllegalExactly 0x10 rsvSet ∧
  Assembles "ADDM.P 0x18, 0x08, 0x10" (.addm .p 0x18 0x08 0x10) 0x0010000800180010 ∧
  Assembles "ADDM.N 0x18, 0x08, 0x10" (.addm .n 0x18 0x08 0x10) 0x0010000800180110 ∧
  ∀ (s : State) (L : Lane) (m : Modulus) (d a b : Addr) (va vb : Nat), s.cur = some L →
    d.toNat + 8 ≤ s.omWords → a.toNat + 8 ≤ s.omWords → b.toNat + 8 ≤ s.omWords →
    readE L.om a.toNat = some va → readE L.om b.toNat = some vb →
    if (va + vb) / 2 ^ 256 = 1 ∨ modulusOf m ≤ (va + vb) % 2 ^ 256 then
      CompletesElement (.addm m d a b) s L d ((va + vb - modulusOf m) % 2 ^ 256) true false
    else CompletesElement (.addm m d a b) s L d (va + vb) false false

/-- SUBM (R131). -/
def Obligations.SubmCorrectsOnce : Prop :=
  (∀ m d a b, EncodesAs (.subm m d a b) 0x11 (if m = .n then 1 else 0) d a b ∧
    RangeFault (.subm m d a b) [(d.toNat, 8), (a.toNat, 8), (b.toNat, 8)]) ∧
  IllegalExactly 0x11 rsvSet ∧
  Assembles "SUBM.P 0x18, 0x08, 0x10" (.subm .p 0x18 0x08 0x10) 0x0010000800180011 ∧
  Assembles "SUBM.N 0x18, 0x08, 0x10" (.subm .n 0x18 0x08 0x10) 0x0010000800180111 ∧
  ∀ (s : State) (L : Lane) (m : Modulus) (d a b : Addr) (va vb : Nat), s.cur = some L →
    d.toNat + 8 ≤ s.omWords → a.toNat + 8 ≤ s.omWords → b.toNat + 8 ≤ s.omWords →
    readE L.om a.toNat = some va → readE L.om b.toNat = some vb →
    if va < vb then
      CompletesElement (.subm m d a b) s L d ((va + 2 ^ 256 + modulusOf m - vb) % 2 ^ 256) true false
    else CompletesElement (.subm m d a b) s L d (va - vb) false false

/-- NEGM (R132); the negation of 0 is 0 (90_conflicts.md C2). -/
def Obligations.NegmNegates : Prop :=
  (∀ m d a, EncodesAs (.negm m d a) 0x12 (if m = .n then 1 else 0) d a 0 ∧
    RangeFault (.negm m d a) [(d.toNat, 8), (a.toNat, 8)]) ∧
  IllegalExactly 0x12 (fun w => rsvSet w ∨ bSet w) ∧
  Assembles "NEGM.P 0x18, 0x08" (.negm .p 0x18 0x08) 0x0000000800180012 ∧
  Assembles "NEGM.N 0x18, 0x08" (.negm .n 0x18 0x08) 0x0000000800180112 ∧
  ∀ (s : State) (L : Lane) (m : Modulus) (d a : Addr) (va : Nat), s.cur = some L →
    d.toNat + 8 ≤ s.omWords → a.toNat + 8 ≤ s.omWords → readE L.om a.toNat = some va →
    if 0 < va then
      CompletesElement (.negm m d a) s L d ((2 ^ 256 - va + modulusOf m) % 2 ^ 256) true false
    else CompletesElement (.negm m d a) s L d 0 false false

/-- The laws of the unit (R133, from R121 to R132): the carry and borrow equations, the residues on canonical
inputs, ADDM(a, 0) = a, and the shifts undone. -/
def Obligations.AdderUnitLaws : Prop :=
  (∀ va vb, va < W → vb < W →
    va + vb = (add256 va vb).1 + (add256 va vb).2.toNat * W ∧
    (va : Int) - vb = ((sub256 va vb).1 : Int) - ((sub256 va vb).2.toNat * W : Nat)) ∧
  (∀ (m : Modulus) (va vb : Nat), va < modulusOf m → vb < modulusOf m →
    (addMod (modulusOf m) va vb).1 = (va + vb) % modulusOf m ∧
    (((subMod (modulusOf m) va vb).1 : Nat) : Int) = ((va : Int) - vb) % (modulusOf m : Int) ∧
    (((negMod (modulusOf m) va).1 : Nat) : Int) = (-(va : Int)) % (modulusOf m : Int) ∧
    (addMod (modulusOf m) va 0).1 = va) ∧
  ∀ va, va < W →
    (shr256 (shl256 va).1).1 = va % 2 ^ 255 ∧ (shl256 (shr256 va).1).1 = va - va % 2

/-! ### The multiplier (41_multiplier.md) -/

/-- MULM (R172): the canonical residue of the full product, in ordinary representation (R170). -/
def Obligations.MulmWritesResidue : Prop :=
  (∀ m d a b, EncodesAs (.mulm m d a b) 0x20 (if m = .n then 1 else 0) d a b ∧
    RangeFault (.mulm m d a b) [(d.toNat, 8), (a.toNat, 8), (b.toNat, 8)]) ∧
  IllegalExactly 0x20 rsvSet ∧
  Assembles "MULM.P 0x18, 0x08, 0x10" (.mulm .p 0x18 0x08 0x10) 0x0010000800180020 ∧
  Assembles "MULM.N 0x18, 0x08, 0x10" (.mulm .n 0x18 0x08 0x10) 0x0010000800180120 ∧
  ∀ (s : State) (L : Lane) (m : Modulus) (d a b : Addr) (va vb : Nat), s.cur = some L →
    d.toNat + 8 ≤ s.omWords → a.toNat + 8 ≤ s.omWords → b.toNat + 8 ≤ s.omWords →
    readE L.om a.toNat = some va → readE L.om b.toNat = some vb →
    CompletesElement (.mulm m d a b) s L d (va * vb % modulusOf m) false false

/-- INVM (R173): v^(Mod−2) mod Mod (R171), and DZ set iff the input is 0 modulo the modulus. -/
def Obligations.InvmWritesInverse : Prop :=
  (∀ m d a, EncodesAs (.invm m d a) 0x21 (if m = .n then 1 else 0) d a 0 ∧
    RangeFault (.invm m d a) [(d.toNat, 8), (a.toNat, 8)]) ∧
  IllegalExactly 0x21 (fun w => rsvSet w ∨ bSet w) ∧
  Assembles "INVM.P 0x18, 0x08" (.invm .p 0x18 0x08) 0x0000000800180021 ∧
  Assembles "INVM.N 0x18, 0x08" (.invm .n 0x18 0x08) 0x0000000800180121 ∧
  ∀ (s : State) (L : Lane) (m : Modulus) (d a : Addr) (va : Nat), s.cur = some L →
    d.toNat + 8 ≤ s.omWords → a.toNat + 8 ≤ s.omWords → readE L.om a.toNat = some va →
    CompletesElement (.invm m d a) s L d (va ^ (modulusOf m - 2) % modulusOf m) false
      (decide (va % modulusOf m = 0))

/-- The inverse function: it is v^(Mod−2) mod Mod; where v is not 0 modulo Mod it is the unique u < Mod with
v·u = 1 modulo Mod, and 0 where v is (R171). That N is prime is general knowledge by the spec's own mark
(log 13). -/
def Obligations.InverseIsTheUniqueInverse : Prop :=
  ∀ (m : Modulus) (v : Nat),
    invMod (modulusOf m) v = v ^ (modulusOf m - 2) % modulusOf m ∧
    (v % modulusOf m ≠ 0 →
      ∀ u, (u < modulusOf m ∧ v * u % modulusOf m = 1) ↔ u = invMod (modulusOf m) v) ∧
    (v % modulusOf m = 0 → invMod (modulusOf m) v = 0)

/-- The laws of the unit (R174): MULM is commutative and associative on all values, with 1 and 0;
a · INVM(a) = 1 and INVM(INVM(a)) = a mod Mod where a is not 0; every result is below Mod. -/
def Obligations.MultiplierUnitLaws : Prop :=
  ∀ (m : Modulus) (a b c : Nat),
    let mul := mulMod (modulusOf m)
    let inv := invMod (modulusOf m)
    mul a b = mul b a ∧ mul (mul a b) c = mul a (mul b c) ∧
    mul a 1 = a % modulusOf m ∧ mul a 0 = 0 ∧
    (a % modulusOf m ≠ 0 → mul a (inv a) = 1 ∧ inv (inv a) = a % modulusOf m) ∧
    mul a b < modulusOf m ∧ inv a < modulusOf m

/-! ### The point unit (42_point.md) -/

/-- The doubling function DBL (R201). The formulas for x3 and y3 are general knowledge by the spec's own mark
(log 13). -/
def Obligations.DoublingFollowsFormula : Prop :=
  dbl .inf = .inf ∧ (∀ x, dbl (.aff x 0) = .inf) ∧
  ∀ x y, x < primeP → y < primeP → y ≠ 0 →
    ∃ lam x3 y3, dbl (.aff x y) = .aff x3 y3 ∧ x3 < primeP ∧ y3 < primeP ∧
      lam ≡ 3 * x * x * ((2 * y) ^ (primeP - 2) % primeP) [MOD primeP] ∧
      x3 + 2 * x ≡ lam * lam [MOD primeP] ∧
      y3 + y + lam * x3 ≡ lam * x [MOD primeP]

/-- The addition function ADDP with its degenerate bit, on reduced points (R202). The formulas for x3 and y3
are general knowledge by the spec's own mark (log 13). -/
def Obligations.AdditionFollowsFormula : Prop :=
  (∀ q, addp .inf q = (q, false)) ∧ (∀ x y, addp (.aff x y) .inf = (.aff x y, false)) ∧
  ∀ x1 y1 x2 y2, x1 < primeP → y1 < primeP → x2 < primeP → y2 < primeP →
    (x1 = x2 → y1 = y2 → addp (.aff x1 y1) (.aff x2 y2) = (dbl (.aff x1 y1), false)) ∧
    (x1 = x2 → y1 ≠ y2 →
      addp (.aff x1 y1) (.aff x2 y2) = (.inf, decide (y2 ≠ (primeP - y1) % primeP))) ∧
    (x1 ≠ x2 → ∃ lam x3 y3, addp (.aff x1 y1) (.aff x2 y2) = (.aff x3 y3, false) ∧
      x3 < primeP ∧ y3 < primeP ∧
      lam ≡ (y2 + primeP - y1) * ((x2 + primeP - x1) ^ (primeP - 2) % primeP) [MOD primeP] ∧
      x3 + x1 + x2 ≡ lam * lam [MOD primeP] ∧
      y3 + y1 + lam * x3 ≡ lam * x1 [MOD primeP])

/-- PDBL (R204), on the reduced point (R200). -/
def Obligations.PdblWritesDouble : Prop :=
  (∀ d a, EncodesAs (.pdbl d a) 0x30 0 d a 0 ∧ RangeFault (.pdbl d a) [(d.toNat, 17), (a.toNat, 17)]) ∧
  IllegalExactly 0x30 (fun w => mSet w ∨ rsvSet w ∨ bSet w) ∧
  Assembles "PDBL 0x40, 0x00" (.pdbl 0x40 0x00) 0x0000000000400030 ∧
  ∀ (s : State) (L : Lane) (d a : Addr) (p : Point), s.cur = some L →
    d.toNat + 17 ≤ s.omWords → a.toNat + 17 ≤ s.omWords → readPt L.om a.toNat = some p →
    CompletesPoint (.pdbl d a) s L d (dbl p.reduce) false

/-- PADD (R205), on the reduced points (R200). -/
def Obligations.PaddWritesSum : Prop :=
  (∀ d a b, EncodesAs (.padd d a b) 0x31 0 d a b ∧
    RangeFault (.padd d a b) [(d.toNat, 17), (a.toNat, 17), (b.toNat, 17)]) ∧
  IllegalExactly 0x31 (fun w => mSet w ∨ rsvSet w) ∧
  Assembles "PADD 0x40, 0x00, 0x20" (.padd 0x40 0x00 0x20) 0x0020000000400031 ∧
  ∀ (s : State) (L : Lane) (d a b : Addr) (p q : Point), s.cur = some L →
    d.toNat + 17 ≤ s.omWords → a.toNat + 17 ≤ s.omWords → b.toNat + 17 ≤ s.omWords →
    readPt L.om a.toNat = some p → readPt L.om b.toNat = some q →
    CompletesPoint (.padd d a b) s L d (addp p.reduce q.reduce).1 (addp p.reduce q.reduce).2

/-- PNEG (R206) with the negation function NEG (R203), on the reduced point (R200). -/
def Obligations.PnegWritesNegation : Prop :=
  (∀ d a, EncodesAs (.pneg d a) 0x32 0 d a 0 ∧ RangeFault (.pneg d a) [(d.toNat, 17), (a.toNat, 17)]) ∧
  IllegalExactly 0x32 (fun w => mSet w ∨ rsvSet w ∨ bSet w) ∧
  Assembles "PNEG 0x40, 0x00" (.pneg 0x40 0x00) 0x0000000000400032 ∧
  ∀ (s : State) (L : Lane) (d a : Addr) (p : Point), s.cur = some L →
    d.toNat + 17 ≤ s.omWords → a.toNat + 17 ≤ s.omWords → readPt L.om a.toNat = some p →
    CompletesPoint (.pneg d a) s L d
      (match p with
        | .inf => .inf
        | .aff x y => .aff (x % primeP) ((primeP - y % primeP) % primeP)) false

/-- PCHK (R207), on the unreduced point. -/
def Obligations.PchkChecksCurve : Prop :=
  (∀ a, EncodesAs (.pchk a) 0x33 0 0 a 0 ∧ RangeFault (.pchk a) [(a.toNat, 17)]) ∧
  IllegalExactly 0x33 (fun w => mSet w ∨ rsvSet w ∨ dSet w ∨ bSet w) ∧
  Assembles "PCHK 0x00" (.pchk 0x00) 0x0000000000000033 ∧
  (∀ (s : State) (L : Lane) (a : Addr) (x y : Nat), s.cur = some L → a.toNat + 17 ≤ s.omWords →
    readPt L.om a.toNat = some (.aff x y) →
    CompletesFlags (.pchk a) s L false
      (decide (x < primeP ∧ y < primeP ∧ y * y % primeP = (x * x * x + 7) % primeP)) false) ∧
  ∀ (s : State) (L : Lane) (a : Addr), s.cur = some L → a.toNat + 17 ≤ s.omWords →
    readPt L.om a.toNat = some .inf →
    CompletesFlags (.pchk a) s L false false true

/-- The identities of the group law on reduced points (R208): p + (−p) = Inf and p + p = 2p without the
degenerate bit, Inf is neutral, and addition is commutative. -/
def Obligations.PointUnitLaws : Prop :=
  (∀ p, Reduced p → addp p (neg p) = (.inf, false)) ∧
  (∀ p, Reduced p → addp p p = (dbl p, false)) ∧
  (∀ p, addp .inf p = (p, false) ∧ addp p .inf = (p, false)) ∧
  ∀ p q, Reduced p → Reduced q → addp p q = addp q p

/-- On the curve the point unit stays on the curve and never needs an inverse of zero, and no point of the
curve has y = 0 (R208; general knowledge by the spec's own mark, log 13). -/
def Obligations.PointUnitStaysOnCurve : Prop :=
  (∀ p, OnCurveOrInf p → OnCurveOrInf (dbl p) ∧ OnCurveOrInf (neg p)) ∧
  (∀ p q, OnCurveOrInf p → OnCurveOrInf q →
    OnCurveOrInf (addp p q).1 ∧ (addp p q).2 = false) ∧
  ∀ x, ¬ OnCurveOrInf (.aff x 0)

/-! ### The table builder (43_table_builder.md) -/

/-- TBLD (R241), with the chain of R240, on the reduced base (42_point.md R200). -/
def Obligations.TbldWritesOddMultiples : Prop :=
  (∀ d a, EncodesAs (.tbld d a) 0x40 0 d a 0 ∧ RangeFault (.tbld d a) [(d.toNat, 96), (a.toNat, 17)]) ∧
  IllegalExactly 0x40 (fun w => mSet w ∨ rsvSet w ∨ bSet w) ∧
  Assembles "TBLD 0x80, 0x00" (.tbld 0x80 0x00) 0x0000000000800040 ∧
  ∀ (s : State) (L : Lane) (d a : Addr) (p b1 b2 b3 b5 b7 : Point) (z3 z5 z7 : Bool), s.cur = some L →
    d.toNat + 96 ≤ s.omWords → a.toNat + 17 ≤ s.omWords → readPt L.om a.toNat = some p →
    b1 = p.reduce → b2 = dbl b1 → (b3, z3) = addp b2 b1 → (b5, z5) = addp b3 b2 →
    (b7, z7) = addp b5 b2 →
    ∃ om', exec (.tbld d a) s = .next (s.setCur { L with
        om := om'
        status := { L.status with
          c := false, z := false
          inf := decide (b1 = .inf ∨ b3 = .inf ∨ b5 = .inf ∨ b7 = .inf)
          dz := L.status.dz || (z3 || z5 || z7), busy := false }
        inFlight := none }) ∧
      (∀ e ∈ [(0, b1), (1, b3), (2, b5), (3, b7)], HoldsEntry om' (d.toNat + 24 * e.1) e.2) ∧
      ∀ x, x < d.toNat ∨ d.toNat + 96 ≤ x → om'.read x = L.om.read x

/-- The laws of the table on a base of the curve (R242): entry 0 is the base, every entry is on the curve or
infinity, and the degenerate bit is 0. General knowledge by the spec's own mark (log 13). -/
def Obligations.TableEntriesStayOnCurve : Prop :=
  ∀ b, OnCurveOrInf b → (tab b).2 = false ∧ (tab b).1.head? = some b ∧ (tab b).1.length = 4 ∧
    ∀ e ∈ (tab b).1, OnCurveOrInf e

/-- The point unit is the group law of secp256k1 as Mathlib has it: every point of the curve has one
representation and every representation one point; on them ADDP is the sum and never degenerate, DBL the
double, NEG the negative, and the table holds 1, 3, 5 and 7 times the base (R240; 42_point.md R208). The
hypothesis, P is prime, is 41_multiplier.md R171's. The x3 and y3 formulas are general knowledge by the spec's
own mark (log 13). -/
def Obligations.PointUnitIsTheGroupLaw : Prop :=
  ∀ [Fact (Nat.Prime primeP)],
    (∀ p, OnCurveOrInf p → ∃ P, Represents p P) ∧
    (∀ P, ∃ p, OnCurveOrInf p ∧ Represents p P) ∧
    (∀ p q P, Represents p P → Represents q P → p = q) ∧
    (∀ p P Q, Represents p P → Represents p Q → P = Q) ∧
    ∀ p q P Q, Represents p P → Represents q Q →
      Represents (addp p q).1 (P + Q) ∧ (addp p q).2 = false ∧
      Represents (dbl p) (2 • P) ∧ Represents (neg p) (-P) ∧
      List.Forall₂ Represents (tab p).1 [P, 3 • P, 5 • P, 7 • P]

/-- N is the prime order of the base point, N·G = Inf, and the table of a multiple of G that is not infinity has
no entry at infinity (R242; 10_state.md R40; 95_test_vectors.md section 1). N and G are general knowledge by
the spec's own mark (log 13). -/
def Obligations.BasePointHasPrimeOrder : Prop :=
  Nat.Prime orderN ∧
  ∀ [Fact (Nat.Prime primeP)] (G : secp256k1.Point), Represents (.aff baseX baseY) G →
    G ≠ 0 ∧ orderN • G = 0 ∧
    ∀ (k : Nat) (p : Point), Represents p (k • G) → p ≠ .inf → ∀ e ∈ (tab p).1, e ≠ .inf

/-! ### Operand memory (20_memory.md) and the ROM (10_state.md R40) -/

/-- The element layout (R61): word i of an element is its bits 32i+31 to 32i, and reading is the sum of the
limbs. -/
def Obligations.ElementIsLittleEndianLimbs : Prop :=
  (∀ (m : Memory) (a v i : Nat), i < 8 → (writeE m a v).read (a + i) = some (BitVec.ofNat 32 (v / 2 ^ (32 * i)))) ∧
  ∀ (m : Memory) (a : Nat) (ws : Fin 8 → Word), (∀ i : Fin 8, m.read (a + i) = some (ws i)) →
    readE m a = some (∑ i : Fin 8, (ws i).toNat * 2 ^ (32 * (i : Nat)))

/-- The point layout (R62): of 17 written words bit 0 of the flag word alone says infinity, whatever the
coordinates; a point with an unwritten word cannot be read (R65, R68; log 5, and for infinity log 6); the flag
word written is 1 or 0, and the coordinates of infinity are written as 0. -/
def Obligations.PointFlagIsBitZero : Prop :=
  (∀ (m : Memory) (a x y : Nat) (f : Word), m.read (a + 16) = some f → f.getLsbD 0 = true →
    readE m a = some x → readE m (a + 8) = some y → readPt m a = some .inf) ∧
  (∀ (m : Memory) (a x y : Nat) (f : Word), m.read (a + 16) = some f → f.getLsbD 0 = false →
    readE m a = some x → readE m (a + 8) = some y → readPt m a = some (.aff x y)) ∧
  (∀ (m : Memory) (a x : Nat), a ≤ x → x < a + 17 → m.read x = none → readPt m a = none) ∧
  (∀ (m : Memory) (a : Nat), HoldsPoint (m.writeList a (pointWords .inf)) a .inf) ∧
  ∀ (m : Memory) (a x y : Nat), x < W → y < W →
    HoldsPoint (m.writeList a (pointWords (.aff x y))) a (.aff x y)

/-- The ROM: P is 2^256 − 2^32 − 977, the seven constants and no eighth, G is on the curve, and P mod 4 = 3
(10_state.md R40; 95_test_vectors.md section 1). N, GX and GY are general knowledge by the spec's own mark
(log 13). -/
def Obligations.RomHoldsCurveConstants : Prop :=
  primeP = 2 ^ 256 - 2 ^ 32 - 977 ∧ primeP % 4 = 3 ∧ orderN < primeP ∧
  rom 0 = some 0 ∧ rom 1 = some 1 ∧ rom 2 = some primeP ∧ rom 3 = some orderN ∧ rom 4 = some baseX ∧
  rom 5 = some baseY ∧ rom 6 = some 7 ∧ (∀ k, 7 ≤ k → rom k = none) ∧
  baseY * baseY % primeP = (baseX * baseX * baseX + 7) % primeP ∧
  elementWords primeP = [0xFFFFFC2F, 0xFFFFFFFE, 0xFFFFFFFF, 0xFFFFFFFF, 0xFFFFFFFF, 0xFFFFFFFF,
    0xFFFFFFFF, 0xFFFFFFFF]

/-! ### The host's moves (60_exceptions.md) -/

/-- HostWriteOM and HostReadOM on a lane with no command in flight (R281), also while FLT = 1. That reading an
unwritten word is UNINIT is the model's treatment of 10_state.md R32 (log 5); that the moves exist for an address
not below OM_WORDS is the model's choice (log 7). -/
def Obligations.HostAccessesOneWord : Prop :=
  ∀ (s : State) (l : Nat) (L : Lane) (a : Addr), s.lane l = some L →
    L.status.busy = false → L.inFlight = none →
    (a.toNat < s.omWords →
      (∀ w : Word, ∃ om', perform (.hostWriteOM l a w) s = .next (s.setLane l { L with om := om' }) ∧
        om'.read a.toNat = some w ∧ ∀ x, x ≠ a.toNat → om'.read x = L.om.read x) ∧
      (∀ w : Word, L.om.read a.toNat = some w →
        perform (.hostReadOM l a) s = .next { s with reply := .word w }) ∧
      (L.om.read a.toNat = none → perform (.hostReadOM l a) s = .fault .uninit)) ∧
    (s.omWords ≤ a.toNat →
      (∀ w : Word, perform (.hostWriteOM l a w) s = .next s) ∧
      ∃ w : Word, perform (.hostReadOM l a) s = .next { s with reply := .word w, fresh := s.fresh + 1 })

/-- HostIssue (R282): dropped with OVR set while BUSY = 1 or FLT = 1, else accepted whatever the word; and later
the lane's move executes it as one step, after which BUSY = 0. -/
def Obligations.HostIssueAcceptsOrDrops : Prop :=
  (∀ (s : State) (l : Nat) (L : Lane) (c : Cmd), s.lane l = some L →
    perform (.hostIssue l c) s = .next (s.setLane l
      (if L.status.busy = true ∨ L.status.flt = true then
        { L with status := { L.status with ovr := true } }
      else
        { L with status := { L.status with busy := true },
                 inFlight := some { cmd := c, disturbed := false } }))) ∧
  ∀ (s : State) (l : Nat) (L : Lane) (c : Cmd), s.lane l = some L →
    L.inFlight = some { cmd := c, disturbed := false } →
    (∀ e, decode c = .error e →
      perform (.laneTurn l) s = .next ({ s with active := l }.setLane l (faulted L 1 c))) ∧
    (∀ i, decode c = .ok i → perform (.laneTurn l) s = exec i { s with active := l }) ∧
    ∀ t, perform (.laneTurn l) s = .next t →
      ∃ L', t.lane l = some L' ∧ L'.status.busy = false ∧ L'.inFlight = none

/-- HostReadStatus returns STATUS bit by bit and changes nothing, at any time (R283; 10_state.md R36). -/
def Obligations.HostReadsStatusWord : Prop :=
  ∀ (s : State) (l : Nat) (L : Lane), s.lane l = some L →
    ∃ v : Word, perform (.hostReadStatus l) s = .next { s with reply := .word v } ∧
      v.getLsbD 0 = L.status.c ∧ v.getLsbD 1 = L.status.z ∧ v.getLsbD 2 = L.status.inf ∧
      v.getLsbD 3 = L.status.dz ∧ v.getLsbD 4 = L.status.busy ∧ v.getLsbD 5 = L.status.ovr ∧
      v.getLsbD 6 = L.status.flt ∧ v.getLsbD 7 = false ∧
      v.extractLsb' 8 4 = L.status.fcause ∧ v.extractLsb' 12 20 = 0

/-- HostWriteStatus clears DZ, OVR, or FLT with FCAUSE by the bits 3, 5 and 6, and nothing else, at any time
(R284). -/
def Obligations.HostWriteStatusClearsByOnes : Prop :=
  ∀ (s : State) (l : Nat) (L : Lane) (v : Word), s.lane l = some L →
    perform (.hostWriteStatus l v) s = .next (s.setLane l { L with
      status := { L.status with
        dz := if v.getLsbD 3 = true then false else L.status.dz
        ovr := if v.getLsbD 5 = true then false else L.status.ovr
        flt := if v.getLsbD 6 = true then false else L.status.flt
        fcause := if v.getLsbD 6 = true then 0 else L.status.fcause } })

/-- HostReset, at any time, on the named lane alone: STATUS and FCMD are 0 and no command is in flight
(R286; 70_reset_and_hazards.md R290; 10_state.md R46). That no OM word has a value afterwards is the model's
treatment of 10_state.md R32 (log 5). -/
def Obligations.HostResetClearsLane : Prop :=
  ∀ (s : State) (l : Nat) (L : Lane), s.lane l = some L →
    ∃ L', perform (.hostReset l) s = .next (s.setLane l L') ∧ L'.status.word = 0 ∧ L'.fcmd = 0 ∧
      L'.inFlight = none ∧ ∀ x, L'.om.read x = none

/-- A halted lane (R268 to R270): a command issued to it is dropped, its turn does nothing, so no second fault
can occur, and HostWriteStatus with bit 6 leaves the halted state with FCMD kept. That a lane with no command in
flight has a turn, which does nothing, is the model's choice (log 4; 70_reset_and_hazards.md R295). -/
def Obligations.HaltedLaneWaitsForHost : Prop :=
  ∀ (s : State) (l : Nat) (L : Lane), s.Inv → s.lane l = some L → L.status.flt = true →
    (∀ c, perform (.hostIssue l c) s =
      .next (s.setLane l { L with status := { L.status with ovr := true } })) ∧
    perform (.laneTurn l) s = .next s ∧
    ∀ v : Word, v.getLsbD 6 = true →
      ∃ L', perform (.hostWriteStatus l v) s = .next (s.setLane l L') ∧ L'.status.flt = false ∧
        L'.status.fcause = 0 ∧ L'.fcmd = L.fcmd ∧ L'.om = L.om

/-- OM touched while BUSY = 1 (70_reset_and_hazards.md R297; the model's reading of "unspecified", log 8). A
HostWriteOM writes its word and marks the command in flight; a HostReadOM marks it and returns some word, or is
UNINIT on an unwritten word (log 5); an address not below OM_WORDS marks it too and changes no word (log 19).
After the turn of a marked command no word of its destination has a value, every other word is as it was, and
FLT, FCAUSE, FCMD and OVR are as they were; out of range, it takes ADDRESS_RANGE as usual. -/
def Obligations.TouchedCommandLeavesUnspecified : Prop :=
  (∀ (s : State) (l : Nat) (L : Lane) (a : Addr) (f : InFlight), s.lane l = some L →
    L.status.busy = true → L.inFlight = some f →
    let marked : Lane := { L with inFlight := some { f with disturbed := true } }
    (a.toNat < s.omWords →
      (∀ w : Word, ∃ om', perform (.hostWriteOM l a w) s = .next (s.setLane l { marked with om := om' }) ∧
        om'.read a.toNat = some w ∧ ∀ x, x ≠ a.toNat → om'.read x = L.om.read x) ∧
      ((L.om.read a.toNat).isSome = true →
        ∃ w : Word, perform (.hostReadOM l a) s =
          .next { s.setLane l marked with reply := .word w, fresh := s.fresh + 1 }) ∧
      (L.om.read a.toNat = none → perform (.hostReadOM l a) s = .fault .uninit)) ∧
    (s.omWords ≤ a.toNat →
      (∀ w : Word, perform (.hostWriteOM l a w) s = .next (s.setLane l marked)) ∧
      ∃ w : Word, perform (.hostReadOM l a) s =
        .next { s.setLane l marked with reply := .word w, fresh := s.fresh + 1 })) ∧
  (∀ (s : State) (l : Nat) (L : Lane) (c : Cmd) (i : Instr), s.lane l = some L →
    L.inFlight = some { cmd := c, disturbed := true } → decode c = .ok i → ¬ Fits s.omWords i →
    perform (.laneTurn l) s = .next ({ s with active := l }.setLane l (faulted L 2 c))) ∧
  ∀ (s : State) (l : Nat) (L : Lane) (c : Cmd) (i : Instr), s.lane l = some L →
    L.inFlight = some { cmd := c, disturbed := true } → decode c = .ok i →
    Fits s.omWords i → Written L.om i →
    ∃ t L', perform (.laneTurn l) s = .next t ∧ t.lane l = some L' ∧
      (∀ o ∈ destTable i, ∀ x, o.1 ≤ x → x < o.1 + o.2 → L'.om.read x = none) ∧
      (∀ x, (∀ o ∈ destTable i, x < o.1 ∨ o.1 + o.2 ≤ x) → L'.om.read x = L.om.read x) ∧
      L'.status.flt = L.status.flt ∧ L'.status.fcause = L.status.fcause ∧ L'.fcmd = L.fcmd ∧
      L'.status.ovr = L.status.ovr ∧ L'.status.busy = false ∧ L'.inFlight = none ∧
      (L.status.dz = true → L'.status.dz = true)

/-! ### Whole-machine rules -/

/-- FCMD is written only by a fault, with the command word that was in flight, and by reset, with 0;
HostReadFCMD returns it and changes nothing (10_state.md R41; 60_exceptions.md R285). -/
def Obligations.FcmdWrittenOnlyByFaultOrReset : Prop :=
  (∀ (s t : State) (l : Nat) (L L' : Lane), step s = .next t → s.lane l = some L → t.lane l = some L' →
    (s.nextMove = some (.hostReset l) → L'.fcmd = 0) ∧
    (L'.fcmd ≠ L.fcmd →
      (∃ f, L.inFlight = some f ∧ L'.fcmd = f.cmd ∧ L'.status.flt = true) ∨
      s.nextMove = some (.hostReset l))) ∧
  (∀ (s t : State) (l : Nat) (L L' : Lane) (f : InFlight), step s = .next t → s.lane l = some L →
    t.lane l = some L' → L.inFlight = some f → L.status.flt = false → L'.status.flt = true →
    L'.fcmd = f.cmd) ∧
  ∀ (s : State) (l : Nat) (L : Lane), s.lane l = some L →
    perform (.hostReadFCMD l) s = .next { s with reply := .command L.fcmd }

/-- OVR is set exactly when a HostIssue meets BUSY = 1 or FLT = 1, which changes nothing else, and cleared by
HostWriteStatus with bit 5 and by reset alone (10_state.md R38). -/
def Obligations.OvrRecordsDroppedCommands : Prop :=
  ∀ (s t : State) (l : Nat) (L L' : Lane), step s = .next t → s.lane l = some L → t.lane l = some L' →
    (∀ c, s.nextMove = some (.hostIssue l c) → L.status.busy = true ∨ L.status.flt = true →
      L' = { L with status := { L.status with ovr := true } }) ∧
    (L.status.ovr = false → L'.status.ovr = true →
      ∃ c, s.nextMove = some (.hostIssue l c) ∧ (L.status.busy = true ∨ L.status.flt = true)) ∧
    (s.nextMove = some (.hostReset l) → L'.status.ovr = false) ∧
    (∀ v : Word, s.nextMove = some (.hostWriteStatus l v) → v.getLsbD 5 = true → L'.status.ovr = false) ∧
    (L.status.ovr = true → L'.status.ovr = false →
      s.nextMove = some (.hostReset l) ∨
      ∃ v : Word, s.nextMove = some (.hostWriteStatus l v) ∧ v.getLsbD 5 = true)

/-- FCAUSE holds a cause while FLT = 1 and 0 while FLT = 0, and both are written only by the fault entry, by
HostWriteStatus with bit 6, and by reset (10_state.md R39). -/
def Obligations.FltAndFcauseWrittenTogether : Prop :=
  ∀ (s t : State) (l : Nat) (L L' : Lane), s.Inv → step s = .next t → s.lane l = some L →
    t.lane l = some L' →
    (L'.status.flt = true → L'.status.fcause = 1 ∨ L'.status.fcause = 2) ∧
    (L'.status.flt = false → L'.status.fcause = 0) ∧
    (∀ v : Word, s.nextMove = some (.hostWriteStatus l v) → v.getLsbD 6 = true →
      L'.status.flt = false ∧ L'.status.fcause = 0) ∧
    (s.nextMove = some (.hostReset l) → L'.status.flt = false ∧ L'.status.fcause = 0) ∧
    (L'.status.flt ≠ L.status.flt ∨ L'.status.fcause ≠ L.status.fcause →
      (∃ f code, L.inFlight = some f ∧ L' = faulted L code f.cmd) ∨
      s.nextMove = some (.hostReset l) ∨
      ∃ v : Word, s.nextMove = some (.hostWriteStatus l v) ∧ v.getLsbD 6 = true)

/-- DZ is sticky: only HostWriteStatus with bit 3 or a reset clears it. C, Z and INF change only when a command
completes or at reset, never by a fault, a drop or another move (10_state.md R34). -/
def Obligations.FlagsChangeOnlyOnCompletion : Prop :=
  ∀ (s t : State) (l : Nat) (L L' : Lane), step s = .next t → s.lane l = some L → t.lane l = some L' →
    (L.status.dz = true → L'.status.dz = false →
      s.nextMove = some (.hostReset l) ∨
      ∃ v : Word, s.nextMove = some (.hostWriteStatus l v) ∧ v.getLsbD 3 = true) ∧
    (L'.status.c ≠ L.status.c ∨ L'.status.z ≠ L.status.z ∨ L'.status.inf ≠ L.status.inf →
      s.nextMove = some (.hostReset l) ∨
      ((∃ f, L.inFlight = some f) ∧ L'.inFlight = none ∧ L'.status.busy = false ∧
        L'.status.flt = L.status.flt ∧ L'.fcmd = L.fcmd))

/-- Lanes share nothing: a step changes at most one lane, the one its move names, and neither the number of
lanes nor OM_WORDS (10_state.md R45; 60_exceptions.md R276). -/
def Obligations.StepChangesOneLane : Prop :=
  ∀ s t : State, step s = .next t →
    t.omWords = s.omWords ∧ t.lanes.length = s.lanes.length ∧
    ∃ k, (∀ m, s.nextMove = some m → k = m.lane) ∧ ∀ l, l ≠ k → t.lane l = s.lane l

/-- A lane's behaviour is a function of its own state and the moves addressed to it: on two machines of one
OM_WORDS that agree on the lane, and number their free values alike (log 9), a move answers next on both or on
neither, leaves the lane alike, returns the host the same value, and again leaves OM_WORDS and the numbering the same
(60_exceptions.md R276). -/
def Obligations.LaneDependsOnlyOnItself : Prop :=
  ∀ (m : Move) (s s' : State), s.omWords = s'.omWords → s.fresh = s'.fresh → s.reply = s'.reply →
    s.lane m.lane = s'.lane m.lane →
    (∀ t, perform m s = .next t →
      ∃ t', perform m s' = .next t' ∧ t.lane m.lane = t'.lane m.lane ∧ t.reply = t'.reply ∧
        t.omWords = t'.omWords ∧ t.fresh = t'.fresh) ∧
    (∀ r, perform m s = .fault r → perform m s' = .fault r) ∧
    ∀ r, perform m s = .refused r → perform m s' = .refused r

/-- The invariant holds after power-on with any legal sizes, and so at reset (10_state.md R46;
70_reset_and_hazards.md R291, R292): every lane idle, not halted, STATUS and FCMD 0. The sizes of
State.reset are the model's choice (log 1). -/
def Obligations.PowerOnIsIdleAndGood : Prop :=
  (∀ lanes omWords, Config.LegalSizes lanes omWords → (State.powerOn lanes omWords).Inv) ∧
  State.reset.Inv ∧ State.reset.idle ∧
  ∀ lanes omWords l L, (State.powerOn lanes omWords).lane l = some L →
    L.status.word = 0 ∧ L.fcmd = 0 ∧ L.inFlight = none

/-- Every step keeps the invariant, from every state that has it: OM canonical and in the address space, BUSY
exactly while a command is in flight, FLT and FCAUSE in step, a halted lane not busy (10_state.md R36, R37,
R39; 20_memory.md R71; 60_exceptions.md R268). -/
def Obligations.EveryStepKeepsInvariant : Prop :=
  ∀ s t : State, s.Inv → step s = .next t → t.Inv

/-- Every command completes (70_reset_and_hazards.md R303): with the host silent and every command in flight
ready, as many steps as there are lanes bring the machine to rest with no command in flight. That a silent
agenda lets lanes complete is the model's choice (log 3). -/
def Obligations.QuietMachineComesToRest : Prop :=
  ∀ s : State, s.Inv → s.Ready → s.agenda = [] →
    ∃ t, core.run s.lanes.length s = .next t ∧ t.Inv ∧ t.idle

/-- A host that keeps its duties (60_exceptions.md R287; 70_reset_and_hazards.md R293, R298) never meets a stop
of the model: its move is answered with a next state, the machine stays good and ready, and no lane's OVR is
set by it. And a host that keeps them all, also by inverting no zero and building tables only of bases that pass
PCHK or that it trusts with reason, keeps every command in flight so, and DZ is set by no command but PADD; that no
addition on the curve is degenerate is general knowledge by the spec's own mark (log 13). -/
def Obligations.DutifulHostNeverStops : Prop :=
  (∀ s : State, s.Inv → s.Ready → (∀ m, s.nextMove = some m → m.dutiful s = true) →
    ∃ t, step s = .next t ∧ t.Inv ∧ t.Ready ∧
      ∀ (l : Nat) (L L' : Lane), s.lane l = some L → t.lane l = some L' →
        L'.status.ovr = true → L.status.ovr = true) ∧
  ∀ trusted : Point → Bool, (∀ p, trusted p = true → OnCurveOrInf p.reduce) →
    ∀ s : State, s.Inv → s.Ready → s.Careful trusted →
      (∀ m, s.nextMove = some m → m.keepsDuties trusted s = true) →
      ∃ t, step s = .next t ∧ t.Careful trusted ∧
        ∀ (l : Nat) (L L' : Lane), s.lane l = some L → t.lane l = some L' →
          L.status.dz = false → L'.status.dz = true →
          ∃ f d a b, L.inFlight = some f ∧ decode f.cmd = .ok (.padd d a b)

/-- A host that issues each command when the one before it has completed, and stops at a fault, never loses a
command: OVR is 0 at the end of its run, on which the lane is not busy (70_reset_and_hazards.md R298, R304).
That each command's turn follows its acceptance at once is the model's form of polling (log 18). -/
def Obligations.PollingHostNeverLosesCommand : Prop :=
  ∀ (s t : State) (l : Nat) (p : HostProgram), runProgram l p s = .next t →
    ∃ L, t.lane l = some L ∧ L.status.ovr = false ∧ L.status.busy = false ∧ L.observe ≠ .dropped

/-- Two host procedures that keep the duties of 60_exceptions.md R287 which no single move can keep. Checking DZ
after a sequence: the STATUS read at the end has DZ = 1 exactly when some command of the sequence inverted zero or
met a degenerate addition (R279; 70_reset_and_hazards.md R301). Validating a base with PCHK before TBLD: of a base
on the curve the table is built, with its entries on the curve or infinity and DZ as before; of any other base,
infinity included, none is built and OM is as before. The procedures are the model's form of the duties; that no
addition on the curve is degenerate is general knowledge by the spec's own mark (log 13). -/
def Obligations.HostChecksFindZeroAndOffCurve : Prop :=
  (∀ (l : Nat) (cs : List Cmd) (s t : State) (L : Lane), s.lane l = some L → L.status.busy = false →
    L.status.flt = false → L.inFlight = none → checkedSequence l cs s = .next t →
    ∃ s1 v, perform (.hostWriteStatus l 0x08) s = .next s1 ∧ t.reply = .word v ∧
      (v.getLsbD 3 = true ↔ commandsSetDz l cs s1 = true)) ∧
  ∀ (l : Nat) (d a : Addr) (s : State) (L : Lane) (p : Point), s.lane l = some L → L.status.busy = false →
    L.status.flt = false → L.inFlight = none → d.toNat + 96 ≤ s.omWords → a.toNat + 17 ≤ s.omWords →
    readPt L.om a.toNat = some p →
    ∃ t L', checkedTable l d a s = .next t ∧ t.lane l = some L' ∧ L'.status.dz = L.status.dz ∧
      (OnCurveOrInf p ∧ p ≠ .inf →
        ∀ (k : Nat) (e : Point), (tab p).1[k]? = some e →
          OnCurveOrInf e ∧ HoldsEntry L'.om (d.toNat + 24 * k) e) ∧
      (¬ OnCurveOrInf p ∨ p = .inf → L'.om = L.om)
end

