-- ==== Sys2Proof/Laws/State.lean ====
section
/-! SUPPORT. One lemma per field per update of a state, a lane and STATUS, so that no proof unfolds a record
update. -/

namespace Sys2Proof.Machine

/-! ### Status -/

@[simp] theorem Status.retire_c (t : Status) (f : Flags) (b : Bool) : (t.retire f b).c = f.c := rfl
@[simp] theorem Status.retire_z (t : Status) (f : Flags) (b : Bool) : (t.retire f b).z = f.z := rfl
@[simp] theorem Status.retire_inf (t : Status) (f : Flags) (b : Bool) : (t.retire f b).inf = f.inf := rfl
@[simp] theorem Status.retire_dz (t : Status) (f : Flags) (b : Bool) : (t.retire f b).dz = (t.dz || b) := rfl
@[simp] theorem Status.retire_busy (t : Status) (f : Flags) (b : Bool) : (t.retire f b).busy = false := rfl
@[simp] theorem Status.retire_ovr (t : Status) (f : Flags) (b : Bool) : (t.retire f b).ovr = t.ovr := rfl
@[simp] theorem Status.retire_flt (t : Status) (f : Flags) (b : Bool) : (t.retire f b).flt = t.flt := rfl
@[simp] theorem Status.retire_fcause (t : Status) (f : Flags) (b : Bool) : (t.retire f b).fcause = t.fcause := rfl

@[simp] theorem Status.accept_busy (t : Status) : t.accept.busy = true := rfl
@[simp] theorem Status.accept_dz (t : Status) : t.accept.dz = t.dz := rfl
@[simp] theorem Status.accept_ovr (t : Status) : t.accept.ovr = t.ovr := rfl
@[simp] theorem Status.accept_flt (t : Status) : t.accept.flt = t.flt := rfl
@[simp] theorem Status.accept_fcause (t : Status) : t.accept.fcause = t.fcause := rfl
@[simp] theorem Status.drop_busy (t : Status) : t.drop.busy = t.busy := rfl
@[simp] theorem Status.drop_dz (t : Status) : t.drop.dz = t.dz := rfl
@[simp] theorem Status.drop_ovr (t : Status) : t.drop.ovr = true := rfl
@[simp] theorem Status.drop_flt (t : Status) : t.drop.flt = t.flt := rfl
@[simp] theorem Status.drop_fcause (t : Status) : t.drop.fcause = t.fcause := rfl

@[simp] theorem Status.hostWrite_c (t : Status) (v : Word) : (t.hostWrite v).c = t.c := rfl
@[simp] theorem Status.hostWrite_z (t : Status) (v : Word) : (t.hostWrite v).z = t.z := rfl
@[simp] theorem Status.hostWrite_inf (t : Status) (v : Word) : (t.hostWrite v).inf = t.inf := rfl
@[simp] theorem Status.hostWrite_dz (t : Status) (v : Word) :
    (t.hostWrite v).dz = (t.dz && !v.getLsbD 3) := rfl
@[simp] theorem Status.hostWrite_busy (t : Status) (v : Word) : (t.hostWrite v).busy = t.busy := rfl
@[simp] theorem Status.hostWrite_ovr (t : Status) (v : Word) :
    (t.hostWrite v).ovr = (t.ovr && !v.getLsbD 5) := rfl
@[simp] theorem Status.hostWrite_flt (t : Status) (v : Word) :
    (t.hostWrite v).flt = (t.flt && !v.getLsbD 6) := rfl
@[simp] theorem Status.hostWrite_fcause (t : Status) (v : Word) :
    (t.hostWrite v).fcause = if v.getLsbD 6 then 0 else t.fcause := rfl

/-! ### Lane -/

@[simp] theorem Lane.retire_om (L : Lane) (r : Result) : (L.retire r).om = L.om.writeList r.dest r.words := rfl
@[simp] theorem Lane.retire_status (L : Lane) (r : Result) :
    (L.retire r).status = L.status.retire r.flags r.setDz := rfl
@[simp] theorem Lane.retire_fcmd (L : Lane) (r : Result) : (L.retire r).fcmd = L.fcmd := rfl
@[simp] theorem Lane.retire_inFlight (L : Lane) (r : Result) : (L.retire r).inFlight = none := rfl

@[simp] theorem Lane.faultEntry_om (L : Lane) (c : Cause) (w : Cmd) : (L.faultEntry c w).om = L.om := rfl
@[simp] theorem Lane.faultEntry_fcmd (L : Lane) (c : Cause) (w : Cmd) : (L.faultEntry c w).fcmd = w := rfl
@[simp] theorem Lane.faultEntry_inFlight (L : Lane) (c : Cause) (w : Cmd) :
    (L.faultEntry c w).inFlight = none := rfl
@[simp] theorem Lane.faultEntry_flt (L : Lane) (c : Cause) (w : Cmd) :
    (L.faultEntry c w).status.flt = true := rfl
@[simp] theorem Lane.faultEntry_fcause (L : Lane) (c : Cause) (w : Cmd) :
    (L.faultEntry c w).status.fcause = c.code := rfl
@[simp] theorem Lane.faultEntry_busy (L : Lane) (c : Cause) (w : Cmd) :
    (L.faultEntry c w).status.busy = false := rfl
@[simp] theorem Lane.faultEntry_dz (L : Lane) (c : Cause) (w : Cmd) :
    (L.faultEntry c w).status.dz = L.status.dz := rfl
@[simp] theorem Lane.faultEntry_ovr (L : Lane) (c : Cause) (w : Cmd) :
    (L.faultEntry c w).status.ovr = L.status.ovr := rfl

@[simp] theorem Lane.writeStatus_om (L : Lane) (v : Word) : (L.writeStatus v).om = L.om := rfl
@[simp] theorem Lane.writeStatus_status (L : Lane) (v : Word) :
    (L.writeStatus v).status = L.status.hostWrite v := rfl
@[simp] theorem Lane.writeStatus_fcmd (L : Lane) (v : Word) : (L.writeStatus v).fcmd = L.fcmd := rfl
@[simp] theorem Lane.writeStatus_inFlight (L : Lane) (v : Word) : (L.writeStatus v).inFlight = L.inFlight := rfl

@[simp] theorem Lane.touch_om (L : Lane) : L.touch.om = L.om := rfl
@[simp] theorem Lane.touch_status (L : Lane) : L.touch.status = L.status := rfl
@[simp] theorem Lane.touch_fcmd (L : Lane) : L.touch.fcmd = L.fcmd := rfl
@[simp] theorem Lane.touch_inFlight (L : Lane) :
    L.touch.inFlight = L.inFlight.map fun f => { f with disturbed := true } := rfl

@[simp] theorem Lane.scramble_om (L : Lane) (i : Instr) (b : Bool) (n : Nat) :
    (L.scramble i b n).om = (destOperand i).foldl (fun m o => m.forget o.1 o.2) L.om := rfl
@[simp] theorem Lane.scramble_fcmd (L : Lane) (i : Instr) (b : Bool) (n : Nat) :
    (L.scramble i b n).fcmd = L.fcmd := rfl
@[simp] theorem Lane.scramble_inFlight (L : Lane) (i : Instr) (b : Bool) (n : Nat) :
    (L.scramble i b n).inFlight = L.inFlight := rfl
@[simp] theorem Lane.scramble_busy (L : Lane) (i : Instr) (b : Bool) (n : Nat) :
    (L.scramble i b n).status.busy = L.status.busy := rfl
@[simp] theorem Lane.scramble_ovr (L : Lane) (i : Instr) (b : Bool) (n : Nat) :
    (L.scramble i b n).status.ovr = L.status.ovr := rfl
@[simp] theorem Lane.scramble_flt (L : Lane) (i : Instr) (b : Bool) (n : Nat) :
    (L.scramble i b n).status.flt = L.status.flt := rfl
@[simp] theorem Lane.scramble_fcause (L : Lane) (i : Instr) (b : Bool) (n : Nat) :
    (L.scramble i b n).status.fcause = L.status.fcause := rfl
@[simp] theorem Lane.scramble_dz (L : Lane) (i : Instr) (b : Bool) (n : Nat) :
    (L.scramble i b n).status.dz = (b || Config.freeFlag (n + 3)) := rfl

/-! ### State -/

@[simp] theorem State.setLane_omWords (s : State) (l : Nat) (L : Lane) : (s.setLane l L).omWords = s.omWords := rfl
@[simp] theorem State.setLane_agenda (s : State) (l : Nat) (L : Lane) : (s.setLane l L).agenda = s.agenda := rfl
@[simp] theorem State.setLane_active (s : State) (l : Nat) (L : Lane) : (s.setLane l L).active = s.active := rfl
@[simp] theorem State.setLane_reply (s : State) (l : Nat) (L : Lane) : (s.setLane l L).reply = s.reply := rfl
@[simp] theorem State.setLane_fresh (s : State) (l : Nat) (L : Lane) : (s.setLane l L).fresh = s.fresh := rfl
@[simp] theorem State.setLane_lanes (s : State) (l : Nat) (L : Lane) :
    (s.setLane l L).lanes = s.lanes.set l L := rfl

theorem State.lane_lt {s : State} {l : Nat} {L : Lane} (h : s.lane l = some L) : l < s.lanes.length :=
  (List.getElem?_eq_some_iff.mp h).1

theorem State.lane_mem {s : State} {l : Nat} {L : Lane} (h : s.lane l = some L) : L ∈ s.lanes :=
  List.mem_of_getElem? h

theorem State.lane_setLane_same {s : State} {l : Nat} {L : Lane} (L' : Lane) (h : s.lane l = some L) :
    (s.setLane l L').lane l = some L' := by
  simp [State.lane, State.setLane, State.lane_lt h]

theorem State.lane_setLane_ne (s : State) {l k : Nat} (L : Lane) (h : l ≠ k) :
    (s.setLane l L).lane k = s.lane k := by
  simp [State.lane, State.setLane, List.getElem?_set_ne h]

theorem State.cur_setCur {s : State} {L : Lane} (L' : Lane) (h : s.cur = some L) :
    (s.setCur L').cur = some L' :=
  State.lane_setLane_same L' h

@[simp] theorem State.setLane_setLane (s : State) (l : Nat) (L L' : Lane) :
    (s.setLane l L).setLane l L' = s.setLane l L' := by
  simp [State.setLane]

end Sys2Proof.Machine
end

