-- ==== Sys2Proof/Laws/Field.lean ====
section
/-! SUPPORT. The arithmetic functions against their mathematical meaning: powers by squaring are powers
(log 14), and the residues modulo P are the residues of `ZMod`. -/

namespace Sys2Proof.Machine

/-- The loop of `powMod` keeps `acc * b ^ e` modulo `md`. -/
theorem powModLoop_modEq (md k b e acc : Nat) (h : e < 2 ^ k) :
    powModLoop md k b e acc ≡ acc * b ^ e [MOD md] := by
  induction k generalizing b e acc with
  | zero =>
    have : e = 0 := by simpa using h
    subst this
    simpa [powModLoop] using Nat.ModEq.refl acc
  | succ k ih =>
    have h2 : e / 2 < 2 ^ k := by rw [pow_succ] at h; omega
    have hsq : (b * b % md) ^ (e / 2) ≡ b ^ (2 * (e / 2)) [MOD md] := by
      rw [pow_mul, pow_two]
      exact (Nat.mod_modEq _ _).pow _
    rw [powModLoop]
    refine (ih _ _ _ h2).trans ?_
    split
    · rename_i hodd
      have he : e = 1 + 2 * (e / 2) := by omega
      calc acc * b % md * (b * b % md) ^ (e / 2)
          ≡ acc * b * b ^ (2 * (e / 2)) [MOD md] := (Nat.mod_modEq _ _).mul hsq
        _ = acc * b ^ e := by rw [mul_assoc, ← pow_succ', add_comm, ← he]
    · rename_i heven
      have he : e = 2 * (e / 2) := by omega
      calc acc * (b * b % md) ^ (e / 2) ≡ acc * b ^ (2 * (e / 2)) [MOD md] := hsq.mul_left _
        _ = acc * b ^ e := by rw [← he]

theorem powModLoop_lt {md k b e acc : Nat} (h : acc < md) : powModLoop md k b e acc < md := by
  induction k generalizing b e acc with
  | zero => exact h
  | succ k ih =>
    rw [powModLoop]
    apply ih
    split
    · exact Nat.mod_lt _ (by omega)
    · exact h

/-- Powers by squaring are powers. -/
theorem powMod_eq {md b e : Nat} (hmd : 1 < md) (he : e < 2 ^ 256) : powMod md b e = b ^ e % md := by
  have hlt : powMod md b e < md := powModLoop_lt (Nat.mod_lt _ (by omega))
  have h := powModLoop_modEq md 256 (b % md) e (1 % md) he
  have h1 : 1 % md * (b % md) ^ e ≡ b ^ e [MOD md] := by
    have := ((Nat.mod_modEq 1 md).mul ((Nat.mod_modEq b md).pow e))
    rwa [one_mul] at this
  have := h.trans h1
  rw [Nat.ModEq, ← powMod, Nat.mod_eq_of_lt hlt] at this
  exact this

theorem one_lt_modulusOf (m : Modulus) : 1 < modulusOf m := by cases m <;> decide

theorem modulusOf_lt (m : Modulus) : modulusOf m < W := by cases m <;> decide

/-- `inv_Mod(v)` is v^(Mod−2) mod Mod (41_multiplier.md R171). -/
theorem invMod_modulusOf (m : Modulus) (v : Nat) :
    invMod (modulusOf m) v = v ^ (modulusOf m - 2) % modulusOf m :=
  powMod_eq (one_lt_modulusOf m) (lt_of_le_of_lt (Nat.sub_le _ _) (modulusOf_lt m))

theorem invMod_lt {md : Nat} (h : 1 < md) (v : Nat) : invMod md v < md :=
  powModLoop_lt (Nat.mod_lt _ (by omega))

/-! ### Residues modulo P -/

theorem modP_lt (v : Int) : modP v < primeP := by
  have h1 := Int.emod_nonneg v (show (primeP : Int) ≠ 0 by decide)
  have h2 := Int.emod_lt_of_pos v (show (0 : Int) < (primeP : Int) by decide)
  unfold modP
  omega

theorem modP_cast (v : Int) : ((modP v : Nat) : ZMod primeP) = (v : ZMod primeP) := by
  have h1 := Int.emod_nonneg v (show (primeP : Int) ≠ 0 by decide)
  have : ((modP v : Nat) : Int) = v % (primeP : Int) := Int.toNat_of_nonneg h1
  have h2 : (((modP v : Nat) : Int) : ZMod primeP) = ((v % (primeP : Int) : Int) : ZMod primeP) := by rw [this]
  rw [Int.cast_natCast] at h2
  rw [h2]
  exact (ZMod.intCast_eq_intCast_iff _ _ _).2 (Int.mod_modEq _ _)

/-- Two residues are equal when they are equal in `ZMod`. -/
theorem eq_of_cast_eq {x y : Nat} (hx : x < primeP) (hy : y < primeP)
    (h : (x : ZMod primeP) = (y : ZMod primeP)) : x = y := by
  have := (ZMod.natCast_eq_natCast_iff' x y primeP).1 h
  rwa [Nat.mod_eq_of_lt hx, Nat.mod_eq_of_lt hy] at this

/-! ### Points -/

/-- Both coordinates of an affine point are below P. -/
def Point.Canonical : Point → Prop
  | .inf => True
  | .aff x y => x < primeP ∧ y < primeP

theorem reduce_canonical (p : Point) : p.reduce.Canonical := by
  cases p with
  | inf => trivial
  | aff x y => exact ⟨Nat.mod_lt _ (by decide), Nat.mod_lt _ (by decide)⟩

theorem dbl_canonical (p : Point) : (dbl p).Canonical := by
  cases p with
  | inf => trivial
  | aff x y =>
    rw [dbl]
    split
    · trivial
    · exact ⟨modP_lt _, modP_lt _⟩

theorem neg_canonical {p : Point} (h : p.Canonical) : (neg p).Canonical := by
  cases p with
  | inf => trivial
  | aff x y => exact ⟨h.1, modP_lt _⟩

theorem addp_canonical {p q : Point} (hp : p.Canonical) (hq : q.Canonical) : (addp p q).1.Canonical := by
  cases p with
  | inf => exact hq
  | aff x1 y1 =>
    cases q with
    | inf => exact hp
    | aff x2 y2 =>
      rw [addp]
      split
      · split
        · exact dbl_canonical (.aff x1 y1)
        · trivial
      · exact ⟨modP_lt _, modP_lt _⟩

theorem tab_canonical {p : Point} (hp : p.Canonical) : ∀ e ∈ (tab p).1, e.Canonical := by
  have h2 := dbl_canonical p
  have h3 := addp_canonical h2 hp
  have h5 := addp_canonical h3 h2
  have h7 := addp_canonical h5 h2
  intro e he
  simp only [tab, List.mem_cons, List.not_mem_nil, or_false] at he
  rcases he with rfl | rfl | rfl | rfl
  · exact hp
  · exact h3
  · exact h5
  · exact h7

theorem primeP_lt_W : primeP < W := by decide

end Sys2Proof.Machine
end

