-- ==== Sys2Proof/Laws/Primes.lean ====
section
/-! SUPPORT. P and N are prime (41_multiplier.md R171; 95_test_vectors.md section 1), by Pratt certificates:
each prime with a generator and the factors of its predecessor. -/

-- one theorem at a time: many waiting at once reserve more stacks than the check's memory limit has room for
set_option Elab.async false

namespace Sys2Proof.Machine

/-- Lucas's criterion on a list of the prime factors of `p - 1`, with the powers by squaring. -/
theorem prime_of_pratt {p a : Nat} (qs : List Nat) (hp : 1 < p) (hlt : p < 2 ^ 256)
    (hprod : qs.prod = p - 1) (hq : ∀ q ∈ qs, Nat.Prime q) (h1 : powMod p a (p - 1) = 1)
    (h2 : ∀ q ∈ qs, powMod p a ((p - 1) / q) ≠ 1) : Nat.Prime p := by
  have cast (e : Nat) (he : e < 2 ^ 256) : ((powMod p a e : Nat) : ZMod p) = (a : ZMod p) ^ e := by
    rw [powMod_eq hp he, ZMod.natCast_mod, Nat.cast_pow]
  have one_iff (e : Nat) (he : e < 2 ^ 256) (h : (a : ZMod p) ^ e = 1) : powMod p a e = 1 := by
    have hlt' : powMod p a e < p := powModLoop_lt (Nat.mod_lt _ (by omega))
    rw [← cast e he, ← Nat.cast_one, ZMod.natCast_eq_natCast_iff', Nat.mod_eq_of_lt hlt',
      Nat.mod_eq_of_lt hp] at h
    exact h
  refine lucas_primality p (a : ZMod p) ?_ fun q hqp hqd h => ?_
  · rw [← cast _ (by omega), h1, Nat.cast_one]
  · rw [← hprod] at hqd
    obtain ⟨r, hr, hqr⟩ := (Nat.Prime.prime hqp).dvd_prod_iff.1 hqd
    obtain rfl := (Nat.prime_dvd_prime_iff_eq hqp (hq r hr)).1 hqr
    exact h2 q hr (one_iff _ (lt_of_le_of_lt (Nat.div_le_self _ _) (by omega)) h)

theorem prime_24809 : Nat.Prime 24809 :=
  prime_of_pratt (a := 6)
    [2, 2, 2, 7, 443]
    (by decide) (by decide) (by decide)
    (by simp only [List.mem_cons, List.not_mem_nil, or_false, forall_eq_or_imp, forall_eq]
        exact ⟨by norm_num, by norm_num, by norm_num, by norm_num, by norm_num⟩)
    (by decide +kernel) (by decide +kernel)

theorem prime_13331831 : Nat.Prime 13331831 :=
  prime_of_pratt (a := 13)
    [2, 5, 971, 1373]
    (by decide) (by decide) (by decide)
    (by simp only [List.mem_cons, List.not_mem_nil, or_false, forall_eq_or_imp, forall_eq]
        exact ⟨by norm_num, by norm_num, by norm_num, by norm_num⟩)
    (by decide +kernel) (by decide +kernel)

theorem prime_173378833005251801 : Nat.Prime 173378833005251801 :=
  prime_of_pratt (a := 6)
    [2, 2, 2, 5, 5, 2621, 24809, 13331831]
    (by decide) (by decide) (by decide)
    (by simp only [List.mem_cons, List.not_mem_nil, or_false, forall_eq_or_imp, forall_eq]
        exact ⟨by norm_num, by norm_num, by norm_num, by norm_num, by norm_num, by norm_num, prime_24809,
          prime_13331831⟩)
    (by decide +kernel) (by decide +kernel)

theorem prime_22149492674086928081353 : Nat.Prime 22149492674086928081353 :=
  prime_of_pratt (a := 5)
    [2, 2, 2, 3, 5323, 173378833005251801]
    (by decide) (by decide) (by decide)
    (by simp only [List.mem_cons, List.not_mem_nil, or_false, forall_eq_or_imp, forall_eq]
        exact ⟨by norm_num, by norm_num, by norm_num, by norm_num, by norm_num, prime_173378833005251801⟩)
    (by decide +kernel) (by decide +kernel)

theorem prime_132896956044521568488119 : Nat.Prime 132896956044521568488119 :=
  prime_of_pratt (a := 6)
    [2, 3, 22149492674086928081353]
    (by decide) (by decide) (by decide)
    (by simp only [List.mem_cons, List.not_mem_nil, or_false, forall_eq_or_imp, forall_eq]
        exact ⟨by norm_num, by norm_num, prime_22149492674086928081353⟩)
    (by decide +kernel) (by decide +kernel)

theorem prime_41201 : Nat.Prime 41201 :=
  prime_of_pratt (a := 3)
    [2, 2, 2, 2, 5, 5, 103]
    (by decide) (by decide) (by decide)
    (by simp only [List.mem_cons, List.not_mem_nil, or_false, forall_eq_or_imp, forall_eq]
        exact ⟨by norm_num, by norm_num, by norm_num, by norm_num, by norm_num, by norm_num, by norm_num⟩)
    (by decide +kernel) (by decide +kernel)

theorem prime_96557 : Nat.Prime 96557 :=
  prime_of_pratt (a := 2)
    [2, 2, 101, 239]
    (by decide) (by decide) (by decide)
    (by simp only [List.mem_cons, List.not_mem_nil, or_false, forall_eq_or_imp, forall_eq]
        exact ⟨by norm_num, by norm_num, by norm_num, by norm_num⟩)
    (by decide +kernel) (by decide +kernel)

theorem prime_20113 : Nat.Prime 20113 :=
  prime_of_pratt (a := 10)
    [2, 2, 2, 2, 3, 419]
    (by decide) (by decide) (by decide)
    (by simp only [List.mem_cons, List.not_mem_nil, or_false, forall_eq_or_imp, forall_eq]
        exact ⟨by norm_num, by norm_num, by norm_num, by norm_num, by norm_num, by norm_num⟩)
    (by decide +kernel) (by decide +kernel)

theorem prime_1206781 : Nat.Prime 1206781 :=
  prime_of_pratt (a := 10)
    [2, 2, 3, 5, 20113]
    (by decide) (by decide) (by decide)
    (by simp only [List.mem_cons, List.not_mem_nil, or_false, forall_eq_or_imp, forall_eq]
        exact ⟨by norm_num, by norm_num, by norm_num, by norm_num, prime_20113⟩)
    (by decide +kernel) (by decide +kernel)

theorem prime_7240687 : Nat.Prime 7240687 :=
  prime_of_pratt (a := 3)
    [2, 3, 1206781]
    (by decide) (by decide) (by decide)
    (by simp only [List.mem_cons, List.not_mem_nil, or_false, forall_eq_or_imp, forall_eq]
        exact ⟨by norm_num, by norm_num, prime_1206781⟩)
    (by decide +kernel) (by decide +kernel)

theorem prime_107590001 : Nat.Prime 107590001 :=
  prime_of_pratt (a := 3)
    [2, 2, 2, 2, 5, 5, 5, 5, 7, 29, 53]
    (by decide) (by decide) (by decide)
    (by simp only [List.mem_cons, List.not_mem_nil, or_false, forall_eq_or_imp, forall_eq]
        exact ⟨by norm_num, by norm_num, by norm_num, by norm_num, by norm_num, by norm_num, by norm_num,
          by norm_num, by norm_num, by norm_num, by norm_num⟩)
    (by decide +kernel) (by decide +kernel)

theorem prime_255515944373312847190720520512484175977 : Nat.Prime 255515944373312847190720520512484175977 :=
  prime_of_pratt (a := 3)
    [2, 2, 2, 7, 7, 11, 1627, 2657, 4423, 41201, 96557, 7240687, 107590001]
    (by decide) (by decide) (by decide)
    (by simp only [List.mem_cons, List.not_mem_nil, or_false, forall_eq_or_imp, forall_eq]
        exact ⟨by norm_num, by norm_num, by norm_num, by norm_num, by norm_num, by norm_num, by norm_num,
          by norm_num, by norm_num, prime_41201, prime_96557, prime_7240687, prime_107590001⟩)
    (by decide +kernel) (by decide +kernel)

theorem prime_205115282021455665897114700593932402728804164701536103180137503955397371 : Nat.Prime 205115282021455665897114700593932402728804164701536103180137503955397371 :=
  prime_of_pratt (a := 10)
    [2, 3, 5, 29, 29, 31, 7723, 132896956044521568488119, 255515944373312847190720520512484175977]
    (by decide) (by decide) (by decide)
    (by simp only [List.mem_cons, List.not_mem_nil, or_false, forall_eq_or_imp, forall_eq]
        exact ⟨by norm_num, by norm_num, by norm_num, by norm_num, by norm_num, by norm_num, by norm_num,
          prime_132896956044521568488119, prime_255515944373312847190720520512484175977⟩)
    (by decide +kernel) (by decide +kernel)

theorem prime_primeP : Nat.Prime primeP :=
  prime_of_pratt (a := 3)
    [2, 3, 7, 13441, 205115282021455665897114700593932402728804164701536103180137503955397371]
    (by decide) (by decide) (by decide)
    (by simp only [List.mem_cons, List.not_mem_nil, or_false, forall_eq_or_imp, forall_eq]
        exact ⟨by norm_num, by norm_num, by norm_num, by norm_num,
          prime_205115282021455665897114700593932402728804164701536103180137503955397371⟩)
    (by decide +kernel) (by decide +kernel)

theorem prime_85831 : Nat.Prime 85831 :=
  prime_of_pratt (a := 3)
    [2, 3, 5, 2861]
    (by decide) (by decide) (by decide)
    (by simp only [List.mem_cons, List.not_mem_nil, or_false, forall_eq_or_imp, forall_eq]
        exact ⟨by norm_num, by norm_num, by norm_num, by norm_num⟩)
    (by decide +kernel) (by decide +kernel)

theorem prime_4681609 : Nat.Prime 4681609 :=
  prime_of_pratt (a := 23)
    [2, 2, 2, 3, 97, 2011]
    (by decide) (by decide) (by decide)
    (by simp only [List.mem_cons, List.not_mem_nil, or_false, forall_eq_or_imp, forall_eq]
        exact ⟨by norm_num, by norm_num, by norm_num, by norm_num, by norm_num, by norm_num⟩)
    (by decide +kernel) (by decide +kernel)

theorem prime_107361793816595537 : Nat.Prime 107361793816595537 :=
  prime_of_pratt (a := 3)
    [2, 2, 2, 2, 16699, 85831, 4681609]
    (by decide) (by decide) (by decide)
    (by simp only [List.mem_cons, List.not_mem_nil, or_false, forall_eq_or_imp, forall_eq]
        exact ⟨by norm_num, by norm_num, by norm_num, by norm_num, by norm_num, prime_85831,
          prime_4681609⟩)
    (by decide +kernel) (by decide +kernel)

theorem prime_120233 : Nat.Prime 120233 :=
  prime_of_pratt (a := 3)
    [2, 2, 2, 7, 19, 113]
    (by decide) (by decide) (by decide)
    (by simp only [List.mem_cons, List.not_mem_nil, or_false, forall_eq_or_imp, forall_eq]
        exact ⟨by norm_num, by norm_num, by norm_num, by norm_num, by norm_num, by norm_num⟩)
    (by decide +kernel) (by decide +kernel)

theorem prime_44706919 : Nat.Prime 44706919 :=
  prime_of_pratt (a := 6)
    [2, 3, 797, 9349]
    (by decide) (by decide) (by decide)
    (by simp only [List.mem_cons, List.not_mem_nil, or_false, forall_eq_or_imp, forall_eq]
        exact ⟨by norm_num, by norm_num, by norm_num, by norm_num⟩)
    (by decide +kernel) (by decide +kernel)

theorem prime_174723607534414371449 : Nat.Prime 174723607534414371449 :=
  prime_of_pratt (a := 3)
    [2, 2, 2, 17, 59, 4051, 120233, 44706919]
    (by decide) (by decide) (by decide)
    (by simp only [List.mem_cons, List.not_mem_nil, or_false, forall_eq_or_imp, forall_eq]
        exact ⟨by norm_num, by norm_num, by norm_num, by norm_num, by norm_num, by norm_num,
          prime_120233, prime_44706919⟩)
    (by decide +kernel) (by decide +kernel)

theorem prime_305873 : Nat.Prime 305873 :=
  prime_of_pratt (a := 3)
    [2, 2, 2, 2, 7, 2731]
    (by decide) (by decide) (by decide)
    (by simp only [List.mem_cons, List.not_mem_nil, or_false, forall_eq_or_imp, forall_eq]
        exact ⟨by norm_num, by norm_num, by norm_num, by norm_num, by norm_num, by norm_num⟩)
    (by decide +kernel) (by decide +kernel)

theorem prime_28181 : Nat.Prime 28181 :=
  prime_of_pratt (a := 2)
    [2, 2, 5, 1409]
    (by decide) (by decide) (by decide)
    (by simp only [List.mem_cons, List.not_mem_nil, or_false, forall_eq_or_imp, forall_eq]
        exact ⟨by norm_num, by norm_num, by norm_num, by norm_num⟩)
    (by decide +kernel) (by decide +kernel)

theorem prime_545358713 : Nat.Prime 545358713 :=
  prime_of_pratt (a := 5)
    [2, 2, 2, 41, 59, 28181]
    (by decide) (by decide) (by decide)
    (by simp only [List.mem_cons, List.not_mem_nil, or_false, forall_eq_or_imp, forall_eq]
        exact ⟨by norm_num, by norm_num, by norm_num, by norm_num, by norm_num, prime_28181⟩)
    (by decide +kernel) (by decide +kernel)

theorem prime_1627771 : Nat.Prime 1627771 :=
  prime_of_pratt (a := 3)
    [2, 3, 5, 29, 1871]
    (by decide) (by decide) (by decide)
    (by simp only [List.mem_cons, List.not_mem_nil, or_false, forall_eq_or_imp, forall_eq]
        exact ⟨by norm_num, by norm_num, by norm_num, by norm_num, by norm_num⟩)
    (by decide +kernel) (by decide +kernel)

theorem prime_297159362677 : Nat.Prime 297159362677 :=
  prime_of_pratt (a := 2)
    [2, 2, 3, 3, 11, 461, 1627771]
    (by decide) (by decide) (by decide)
    (by simp only [List.mem_cons, List.not_mem_nil, or_false, forall_eq_or_imp, forall_eq]
        exact ⟨by norm_num, by norm_num, by norm_num, by norm_num, by norm_num, by norm_num,
          prime_1627771⟩)
    (by decide +kernel) (by decide +kernel)

theorem prime_29047611873442575647497758179 : Nat.Prime 29047611873442575647497758179 :=
  prime_of_pratt (a := 2)
    [2, 293, 305873, 545358713, 297159362677]
    (by decide) (by decide) (by decide)
    (by simp only [List.mem_cons, List.not_mem_nil, or_false, forall_eq_or_imp, forall_eq]
        exact ⟨by norm_num, by norm_num, prime_305873, prime_545358713, prime_297159362677⟩)
    (by decide +kernel) (by decide +kernel)

theorem prime_341948486974166000522343609283189 : Nat.Prime 341948486974166000522343609283189 :=
  prime_of_pratt (a := 2)
    [2, 2, 3, 3, 3, 109, 29047611873442575647497758179]
    (by decide) (by decide) (by decide)
    (by simp only [List.mem_cons, List.not_mem_nil, or_false, forall_eq_or_imp, forall_eq]
        exact ⟨by norm_num, by norm_num, by norm_num, by norm_num, by norm_num, by norm_num,
          prime_29047611873442575647497758179⟩)
    (by decide +kernel) (by decide +kernel)

theorem prime_orderN : Nat.Prime orderN :=
  prime_of_pratt (a := 7)
    [2, 2, 2, 2, 2, 2, 3, 149, 631, 107361793816595537, 174723607534414371449,
      341948486974166000522343609283189]
    (by decide) (by decide) (by decide)
    (by simp only [List.mem_cons, List.not_mem_nil, or_false, forall_eq_or_imp, forall_eq]
        exact ⟨by norm_num, by norm_num, by norm_num, by norm_num, by norm_num, by norm_num, by norm_num,
          by norm_num, by norm_num, prime_107361793816595537, prime_174723607534414371449,
          prime_341948486974166000522343609283189⟩)
    (by decide +kernel) (by decide +kernel)

end Sys2Proof.Machine
end

