-- ==== Sys2Proof/Laws/Curve.lean ====
section
/-! SUPPORT. The point unit's arithmetic in the field of P elements: the inverse, the denominators that are not
0, and the two slope formulas over any field (42_point.md R201, R202). -/

namespace Sys2Proof.Machine

/-! ### Over any field -/

section
variable {K : Type*} [Field K]

/-- The tangent formulas lead from a point of y² = x³ + 7 to a point of it. -/
theorem tangent_on_curve {x y inv lam x3 y3 : K} (hc : y * y = x * x * x + 7) (hi : 2 * y * inv = 1)
    (hl : lam = 3 * x * x * inv) (hx : x3 = lam * lam - 2 * x) (hy : y3 = lam * (x - x3) - y) :
    y3 * y3 = x3 * x3 * x3 + 7 := by
  have hl2 : 2 * y * lam = 3 * x * x := by rw [hl]; linear_combination (3 * x * x) * hi
  have key : x3 * x3 * x3 + 7 - y3 * y3 =
      (x * x * x + 7 - y * y) + (x3 - x) * (3 * x * x - 2 * y * lam) := by
    rw [hy, hx]; ring
  rw [hl2, hc] at key
  linear_combination -key

/-- The chord formulas lead from two points of y² = x³ + 7 to a point of it. -/
theorem chord_on_curve {x1 y1 x2 y2 inv lam x3 y3 : K} (hc1 : y1 * y1 = x1 * x1 * x1 + 7)
    (hc2 : y2 * y2 = x2 * x2 * x2 + 7) (hi : (x2 - x1) * inv = 1) (hl : lam = (y2 - y1) * inv)
    (hx : x3 = lam * lam - x1 - x2) (hy : y3 = lam * (x1 - x3) - y1) :
    y3 * y3 = x3 * x3 * x3 + 7 := by
  have hl2 : lam * (x2 - x1) = y2 - y1 := by rw [hl]; linear_combination (y2 - y1) * hi
  have hne : x2 - x1 ≠ 0 := by
    intro h
    rw [h, zero_mul] at hi
    exact zero_ne_one hi
  have key : (x2 - x1) * (x3 * x3 * x3 + 7 - y3 * y3) = (x2 - x3) * (x1 * x1 * x1 + 7 - y1 * y1)
      + (x3 - x1) * (x2 * x2 * x2 + 7 - (y1 + lam * (x2 - x1)) * (y1 + lam * (x2 - x1))) := by
    rw [hy, hx]; ring
  rw [hl2, hc1] at key
  have : (x2 - x1) * (x3 * x3 * x3 + 7 - y3 * y3) = 0 := by
    rw [key]; linear_combination -(x3 - x1) * hc2
  rcases mul_eq_zero.1 this with h | h
  · exact absurd h hne
  · linear_combination -h

end

/-! ### In the field of P elements -/

theorem modulusOf_prime (m : Modulus) : (modulusOf m).Prime := by
  cases m
  · exact prime_primeP
  · exact prime_orderN

theorem two_lt_modulusOf (m : Modulus) : 2 < modulusOf m := by cases m <;> decide

/-- A value that is not 0 modulo a prime times its power p − 2 is 1. -/
theorem mul_pow_sub_two {p : Nat} (hp : p.Prime) (h2 : 2 < p) {v : Nat} (hv : v % p ≠ 0) :
    v * (v ^ (p - 2) % p) % p = 1 := by
  have hcop : Nat.Coprime v p :=
    ((Nat.Prime.coprime_iff_not_dvd hp).2 fun h => hv (Nat.mod_eq_zero_of_dvd h)).symm
  have := Nat.ModEq.pow_totient hcop
  rw [Nat.totient_prime hp] at this
  rw [Nat.mul_mod, Nat.mod_mod, ← Nat.mul_mod, ← pow_succ', show p - 2 + 1 = p - 1 by omega, this,
    Nat.mod_eq_of_lt (by omega)]

theorem invMod_primeP (v : Nat) : invMod primeP v = v ^ (primeP - 2) % primeP := invMod_modulusOf .p v

theorem primeP_cast : ((primeP : Nat) : ZMod primeP) = 0 := ZMod.natCast_self _

theorem mul_invMod_cast {v : Nat} (hv : v % primeP ≠ 0) :
    (v : ZMod primeP) * (invMod primeP v : Nat) = 1 := by
  have := mul_pow_sub_two prime_primeP (by decide) hv
  rw [invMod_primeP]
  have h : ((v * (v ^ (primeP - 2) % primeP) : Nat) : ZMod primeP) = ((1 : Nat) : ZMod primeP) := by
    rw [ZMod.natCast_eq_natCast_iff', this]
    decide
  rw [Nat.cast_mul, Nat.cast_one] at h
  exact h

/-- The curve equation in `Nat` and in the field. -/
theorem curve_iff_cast {x y : Nat} : y * y % primeP = (x * x * x + 7) % primeP ↔
    (y : ZMod primeP) * y = x * x * x + 7 := by
  rw [← ZMod.natCast_eq_natCast_iff']
  push_cast
  rfl

theorem primeP_odd : primeP % 2 = 1 := by decide

/-- The denominator of DBL is not 0 (R201). -/
theorem two_mul_mod_ne_zero {y : Nat} (hy : y < primeP) (h0 : y ≠ 0) : (2 * y) % primeP ≠ 0 := by
  have := primeP_odd
  generalize primeP = p at *
  intro h
  obtain ⟨k, hk⟩ := Nat.dvd_of_mod_eq_zero h
  have : k < 2 := by
    by_contra hc
    nlinarith
  interval_cases k <;> omega

/-- The denominator of ADDP is not 0 (R202). -/
theorem modP_sub_mod_ne_zero {x1 x2 : Nat} (h1 : x1 < primeP) (h2 : x2 < primeP) (h : x1 ≠ x2) :
    modP ((x2 : Int) - x1) % primeP ≠ 0 := by
  rw [Nat.mod_eq_of_lt (modP_lt _)]
  intro hc
  have := modP_cast ((x2 : Int) - x1)
  rw [hc] at this
  push_cast at this
  exact h (eq_of_cast_eq h2 h1 (sub_eq_zero.1 this.symm)).symm

/-- The negated coordinate (R203). -/
theorem modP_primeP_sub {y : Nat} (h : y ≤ primeP) : modP ((primeP : Int) - y) = (primeP - y) % primeP := by
  rw [modP, ← Int.ofNat_sub h, ← Int.natCast_mod, Int.toNat_natCast]

theorem modP_primeP_sub_cast (y : Nat) : ((modP ((primeP : Int) - y) : Nat) : ZMod primeP) = -y := by
  rw [modP_cast, Int.cast_sub, Int.cast_natCast, Int.cast_natCast, primeP_cast, zero_sub]

/-- The curve check as a proposition (R207). -/
theorem onCurve_eq (x y : Nat) : onCurve x y =
    decide (x < primeP ∧ y < primeP ∧ y * y % primeP = (x * x * x + 7) % primeP) := by
  have h1 := Int.emod_nonneg ((y : Int) * y - ((x : Int) * x * x + 7)) (show (primeP : Int) ≠ 0 by decide)
  have h2 : modP ((y : Int) * y - ((x : Int) * x * x + 7)) = 0 ↔
      ((y : Int) * y - ((x : Int) * x * x + 7)) % (primeP : Int) = 0 := by
    rw [modP, Int.toNat_eq_zero]
    exact ⟨fun h => le_antisymm h h1, fun h => le_of_eq h⟩
  have h : modP ((y : Int) * y - ((x : Int) * x * x + 7)) = 0 ↔
      y * y % primeP = (x * x * x + 7) % primeP := by
    rw [h2, ← Int.emod_eq_emod_iff_emod_sub_eq_zero]
    norm_cast
  rw [Bool.eq_iff_iff, onCurve]
  simp only [Bool.and_eq_true, decide_eq_true_eq, beq_iff_eq, and_assoc, h]

end Sys2Proof.Machine
end

