-- ==== Sys2Proof/Laws/PerInstr.lean ====
section
/-! SUPPORT. The family EncodedFields, one lemma per constructor: the word of an instruction holds its opcode
and its fields where 30_encoding.md R91 places them, and 0 in RSV. -/

namespace Sys2Proof.Laws.EncodedFields

/-- The fields of the encoded word. -/
def Statement (i : Instr) : Prop :=
  opcField (encode i) = i.opcode.code ∧ rsvField (encode i) = 0 ∧ mField (encode i) = i.modulus.bit ∧
    dField (encode i) = i.d ∧ aField (encode i) = i.a ∧ bField (encode i) = i.b

theorem code_lt (op : Opcode) : op.code < 256 := by cases op <;> decide

/-- A word packed from fields unpacks to them. -/
theorem fields_of_pack {opc m : Nat} {d a b : Addr} (ho : opc < 256) (hm : m < 2) (w : Cmd)
    (hw : w = BitVec.ofNat 64 (opc + m * 2 ^ 8 + d.toNat * 2 ^ 16 + a.toNat * 2 ^ 32 + b.toNat * 2 ^ 48)) :
    opcField w = opc ∧ rsvField w = 0 ∧ mField w = decide (m = 1) ∧ dField w = d ∧ aField w = a ∧
      bField w = b := by
  have hd := d.isLt
  have ha := a.isLt
  have hb := b.isLt
  have hn : w.toNat = opc + m * 2 ^ 8 + d.toNat * 2 ^ 16 + a.toNat * 2 ^ 32 + b.toNat * 2 ^ 48 := by
    rw [hw, BitVec.toNat_ofNat, Nat.mod_eq_of_lt (by omega)]
  refine ⟨?_, ?_, ?_, ?_, ?_, ?_⟩
  · rw [opcField, BitVec.extractLsb'_toNat, hn, Nat.shiftRight_eq_div_pow]; omega
  · apply BitVec.eq_of_toNat_eq
    rw [rsvField, BitVec.extractLsb'_toNat, hn, Nat.shiftRight_eq_div_pow]
    show _ = 0
    omega
  · rw [mField, BitVec.getLsbD, hn, Nat.testBit_eq_decide_div_mod_eq]
    congr 1
    apply propext
    omega
  · apply BitVec.eq_of_toNat_eq
    rw [dField, BitVec.extractLsb'_toNat, hn, Nat.shiftRight_eq_div_pow]; omega
  · apply BitVec.eq_of_toNat_eq
    rw [aField, BitVec.extractLsb'_toNat, hn, Nat.shiftRight_eq_div_pow]; omega
  · apply BitVec.eq_of_toNat_eq
    rw [bField, BitVec.extractLsb'_toNat, hn, Nat.shiftRight_eq_div_pow]; omega

theorem statement (i : Instr) : Statement i := by
  have hm : i.modulus.bit.toNat < 2 := by cases i.modulus.bit <;> decide
  have h := fields_of_pack (code_lt i.opcode) hm (encode i) rfl
  have hbit : decide (i.modulus.bit.toNat = 1) = i.modulus.bit := by cases i.modulus.bit <;> rfl
  rw [hbit] at h
  exact h

theorem add (d a b : Addr) : Statement (.add d a b) := statement _
theorem sub (d a b : Addr) : Statement (.sub d a b) := statement _
theorem cmp (a b : Addr) : Statement (.cmp a b) := statement _
theorem tst (a : Addr) : Statement (.tst a) := statement _
theorem shl1 (d a : Addr) : Statement (.shl1 d a) := statement _
theorem shr1 (d a : Addr) : Statement (.shr1 d a) := statement _
theorem mov (d a : Addr) : Statement (.mov d a) := statement _
theorem ldk (d k : Addr) : Statement (.ldk d k) := statement _
theorem addm (m : Modulus) (d a b : Addr) : Statement (.addm m d a b) := statement _
theorem subm (m : Modulus) (d a b : Addr) : Statement (.subm m d a b) := statement _
theorem negm (m : Modulus) (d a : Addr) : Statement (.negm m d a) := statement _
theorem mulm (m : Modulus) (d a b : Addr) : Statement (.mulm m d a b) := statement _
theorem invm (m : Modulus) (d a : Addr) : Statement (.invm m d a) := statement _
theorem pdbl (d a : Addr) : Statement (.pdbl d a) := statement _
theorem padd (d a b : Addr) : Statement (.padd d a b) := statement _
theorem pneg (d a : Addr) : Statement (.pneg d a) := statement _
theorem pchk (a : Addr) : Statement (.pchk a) := statement _
theorem tbld (d a : Addr) : Statement (.tbld d a) := statement _

end Sys2Proof.Laws.EncodedFields
end

