-- ==== Sys2Proof/Laws/Decode.lean ====
section
/-! SUPPORT. The decoder's steps as one equivalence (30_encoding.md R95), and a word as the sum of its fields
(R91). -/

namespace Sys2Proof

/-- A command word is the sum of its fields at their places (R91). -/
theorem cmd_of_fields (w : Cmd) :
    BitVec.ofNat 64 (opcField w + (rsvField w).toNat * 2 ^ 9 + (mField w).toNat * 2 ^ 8
      + (dField w).toNat * 2 ^ 16 + (aField w).toNat * 2 ^ 32 + (bField w).toNat * 2 ^ 48) = w := by
  apply BitVec.eq_of_toNat_eq
  have hw := w.isLt
  have hm : (mField w).toNat = w.toNat / 2 ^ 8 % 2 := by
    rw [mField, BitVec.getLsbD, Nat.testBit_eq_decide_div_mod_eq]
    rcases Nat.mod_two_eq_zero_or_one (w.toNat / 2 ^ 8) with h | h <;> rw [h] <;> rfl
  rw [BitVec.toNat_ofNat, hm]
  simp only [opcField, rsvField, dField, aField, bField, BitVec.extractLsb'_toNat,
    Nat.shiftRight_eq_div_pow]
  omega

theorem Opcode.code_of_ofCode {n : Nat} {op : Opcode} (h : Opcode.ofCode n = some op) : op.code = n := by
  unfold Opcode.ofCode at h
  split at h <;> first | cases h; done | (cases h; rfl)

theorem Opcode.ofCode_code (op : Opcode) : Opcode.ofCode op.code = some op := by cases op <;> rfl

theorem Kind.clear_iff (k : Kind) (x : Addr) : k.clear x = true ↔ (k = .unused → x = 0) := by
  cases k <;> simp [Kind.clear]

@[simp] theorem Opcode.opcode_build (op : Opcode) (m : Modulus) (d a b : Addr) :
    (op.build m d a b).opcode = op := by cases op <;> rfl

theorem Opcode.kindA_ne_unused (op : Opcode) : op.kindA ≠ .unused := by cases op <;> simp [Opcode.kindA]

/-- A word decodes exactly when it passes steps 1 to 5 of R95, and to the command its fields build. -/
theorem decode_eq_ok_iff (w : Cmd) (i : Instr) : decode w = .ok i ↔
    ∃ op, Opcode.ofCode (opcField w) = some op ∧ rsvField w = 0 ∧ (mField w = true → op.takesM = true) ∧
      op.kindD.clear (dField w) = true ∧ op.kindA.clear (aField w) = true ∧
      op.kindB.clear (bField w) = true ∧ (op.kindA = .constant → (aField w).toNat ≤ 6) ∧
      i = op.build (.ofBit (mField w)) (dField w) (aField w) (bField w) := by
  rw [decode]
  cases h : Opcode.ofCode (opcField w) with
  | none => simp
  | some op =>
    simp only [Option.some.injEq, exists_eq_left']
    constructor
    · intro hd
      split at hd
      · cases hd
      · rename_i h1
        split at hd
        · cases hd
        · rename_i h2
          split at hd
          · cases hd
          · rename_i h3
            split at hd
            · cases hd
            · rename_i h4
              cases hd
              simp only [bne_iff_ne, ne_eq, Decidable.not_not] at h1
              simp only [Bool.and_eq_true, Bool.not_eq_true', not_and, Bool.not_eq_false] at h2
              simp only [Bool.not_eq_true', Bool.not_eq_false, Bool.and_eq_true] at h3
              simp only [Bool.and_eq_true, beq_iff_eq, decide_eq_true_eq, not_and, not_lt] at h4
              exact ⟨h1, h2, h3.1.1, h3.1.2, h3.2, h4, rfl⟩
    · rintro ⟨h1, h2, h3, h4, h5, h6, rfl⟩
      rw [if_neg (by simp [h1]), if_neg (by simpa using h2), if_neg (by simp [h3, h4, h5]),
        if_neg (by simpa using h6)]

/-- A word that is no command is one that decodes to none. -/
theorem decode_error_iff (w : Cmd) : (∃ e, decode w = .error e) ↔ ¬ ∃ i, decode w = .ok i := by
  cases h : decode w <;> simp

/-- When a word of a given opcode is a command. -/
theorem decode_ok_of_opcode (op : Opcode) (w : Cmd) (hw : opcField w = op.code) :
    (∃ i, decode w = .ok i) ↔ rsvField w = 0 ∧ (mField w = true → op.takesM = true) ∧
      (op.kindD = .unused → dField w = 0) ∧ (op.kindB = .unused → bField w = 0) ∧
      (op.kindA = .constant → (aField w).toNat ≤ 6) := by
  constructor
  · rintro ⟨i, h⟩
    rw [decode_eq_ok_iff] at h
    obtain ⟨op', ho, hr, hm, hd, -, hb, hk, -⟩ := h
    obtain rfl : op' = op := by
      rw [hw, Opcode.ofCode_code] at ho
      simpa using ho.symm
    exact ⟨hr, hm, (Kind.clear_iff _ _).1 hd, (Kind.clear_iff _ _).1 hb, hk⟩
  · rintro ⟨hr, hm, hd, hb, hk⟩
    exact ⟨_, (decode_eq_ok_iff _ _).2 ⟨op, by rw [hw, Opcode.ofCode_code], hr, hm, (Kind.clear_iff _ _).2 hd,
      (Kind.clear_iff _ _).2 fun h => absurd h op.kindA_ne_unused, (Kind.clear_iff _ _).2 hb, hk, rfl⟩⟩

end Sys2Proof
end

