-- ==== Sys2Proof/Laws/Memory.lean ====
section
/-! SUPPORT. Operand memory: a read after a write, every write's frame, the canonical form, and the operand
layouts (20_memory.md R61 to R63). -/

namespace Sys2Proof.Machine

/-! ### One word -/

@[simp] theorem Memory.read_write_same (m : Memory) (a : Nat) (w : Word) : (m.write a w).read a = some w := by
  induction m with
  | nil => simp [Memory.write, Memory.read]
  | cons c m ih =>
    obtain ⟨b, v⟩ := c
    simp only [Memory.write]
    split
    · simp [Memory.read]
    · split
      · simp [Memory.read]
      · rename_i h
        simp [Memory.read, Ne.symm h, ih]

theorem Memory.read_write_ne (m : Memory) {a x : Nat} (w : Word) (h : x ≠ a) :
    (m.write a w).read x = m.read x := by
  induction m with
  | nil => simp [Memory.write, Memory.read, Ne.symm h]
  | cons c m ih =>
    obtain ⟨b, v⟩ := c
    simp only [Memory.write]
    split
    · simp [Memory.read, Ne.symm h]
    · split
      · rename_i hab; subst hab; simp [Memory.read, Ne.symm h]
      · simp [Memory.read, ih]

theorem Memory.mem_write {m : Memory} {a : Nat} {w : Word} {c : Cell} (h : c ∈ m.write a w) :
    c = (a, w) ∨ c ∈ m := by
  induction m with
  | nil => simpa [Memory.write] using h
  | cons d m ih =>
    obtain ⟨b, v⟩ := d
    simp only [Memory.write] at h
    split at h
    · simpa using h
    · split at h
      · simp at h ⊢; tauto
      · simp at h ⊢
        rcases h with h | h
        · exact .inr (.inl h)
        · rcases ih h with h | h
          · exact .inl h
          · exact .inr (.inr h)

theorem Memory.write_wf {m : Memory} (h : m.wf) (a : Nat) (w : Word) : (m.write a w).wf := by
  induction m with
  | nil => simp [Memory.write, Memory.wf]
  | cons d m ih =>
    obtain ⟨b, v⟩ := d
    simp only [Memory.wf, List.map_cons, List.pairwise_cons, List.mem_map, forall_exists_index, and_imp,
      forall_apply_eq_imp_iff₂] at h ih ⊢
    simp only [Memory.write]
    split
    · rename_i hab
      simp only [List.map_cons, List.pairwise_cons, List.mem_cons, List.mem_map]
      refine ⟨?_, fun x hx => ?_, h.2⟩
      · rintro x (rfl | ⟨c, hc, rfl⟩)
        · exact hab
        · exact hab.trans (h.1 c hc)
      · obtain ⟨c, hc, rfl⟩ := hx; exact h.1 c hc
    · split
      · rename_i hab; subst hab
        simpa using h
      · rename_i h1 h2
        simp only [List.map_cons, List.pairwise_cons, List.mem_map, forall_exists_index, and_imp,
          forall_apply_eq_imp_iff₂]
        refine ⟨fun c hc => ?_, ih h.2⟩
        rcases Memory.mem_write hc with rfl | hc
        · simp; omega
        · exact h.1 c hc

/-! ### Runs of words -/

theorem Memory.read_writeList_outside (ws : List Word) (m : Memory) {a x : Nat}
    (h : x < a ∨ a + ws.length ≤ x) : (m.writeList a ws).read x = m.read x := by
  induction ws generalizing m a with
  | nil => rfl
  | cons w ws ih =>
    simp only [List.length_cons] at h
    rw [Memory.writeList, ih _ (by omega), Memory.read_write_ne _ _ (by omega)]

theorem Memory.read_writeList_inside (ws : List Word) (m : Memory) (a : Nat) {k : Nat} {w : Word}
    (h : ws[k]? = some w) : (m.writeList a ws).read (a + k) = some w := by
  induction ws generalizing m a k with
  | nil => simp at h
  | cons v ws ih =>
    rw [Memory.writeList]
    cases k with
    | zero =>
      rw [Memory.read_writeList_outside _ _ (by omega)]
      simpa using h
    | succ k =>
      rw [show a + (k + 1) = a + 1 + k by omega]
      exact ih _ _ (by simpa using h)

theorem Memory.writeList_wf {m : Memory} (h : m.wf) (a : Nat) (ws : List Word) : (m.writeList a ws).wf := by
  induction ws generalizing m a with
  | nil => exact h
  | cons w ws ih => exact ih (Memory.write_wf h a w) _

theorem Memory.mem_writeList {ws : List Word} {m : Memory} {a : Nat} {c : Cell} (h : c ∈ m.writeList a ws) :
    c ∈ m ∨ (a ≤ c.1 ∧ c.1 < a + ws.length) := by
  induction ws generalizing m a with
  | nil => exact .inl h
  | cons w ws ih =>
    simp only [List.length_cons]
    rcases ih h with h | ⟨h1, h2⟩
    · rcases Memory.mem_write h with rfl | h
      · exact .inr ⟨by simp, by simp⟩
      · exact .inl h
    · exact .inr ⟨by omega, by omega⟩

theorem Memory.writeList_append (ws vs : List Word) (m : Memory) (a : Nat) :
    m.writeList a (ws ++ vs) = (m.writeList a ws).writeList (a + ws.length) vs := by
  induction ws generalizing m a with
  | nil => rfl
  | cons w ws ih =>
    rw [List.cons_append, Memory.writeList, ih, Memory.writeList, List.length_cons]
    congr 1; omega

theorem Memory.readList_congr {m m' : Memory} {a n : Nat}
    (h : ∀ x, a ≤ x → x < a + n → m.read x = m'.read x) : m.readList a n = m'.readList a n := by
  induction n generalizing a with
  | zero => rfl
  | succ n ih =>
    rw [Memory.readList, Memory.readList, h a (by omega) (by omega),
      ih fun x h1 h2 => h x (by omega) (by omega)]

theorem Memory.readList_eq_some {m : Memory} {a : Nat} {ws : List Word}
    (h : ∀ k w, ws[k]? = some w → m.read (a + k) = some w) : m.readList a ws.length = some ws := by
  induction ws generalizing a with
  | nil => rfl
  | cons w ws ih =>
    rw [List.length_cons, Memory.readList, show m.read a = some w from h 0 w (by simp),
      ih fun k v hk => by rw [show a + 1 + k = a + (k + 1) by omega]; exact h (k + 1) v (by simpa using hk)]

theorem Memory.readList_writeList_same (m : Memory) (a : Nat) (ws : List Word) :
    (m.writeList a ws).readList a ws.length = some ws :=
  Memory.readList_eq_some fun _ _ h => Memory.read_writeList_inside ws m a h

theorem Memory.readList_isSome_iff (m : Memory) (a n : Nat) :
    (m.readList a n).isSome ↔ ∀ x, a ≤ x → x < a + n → (m.read x).isSome := by
  induction n generalizing a with
  | zero => simp only [Memory.readList, Option.isSome_some, true_iff]; omega
  | succ n ih =>
    rw [Memory.readList]
    have step : (∀ x, a ≤ x → x < a + (n + 1) → (m.read x).isSome) ↔
        (m.read a).isSome ∧ ∀ x, a + 1 ≤ x → x < a + 1 + n → (m.read x).isSome := by
      constructor
      · exact fun h => ⟨h a (by omega) (by omega), fun x h1 h2 => h x (by omega) (by omega)⟩
      · rintro ⟨h0, h⟩ x h1 h2
        rcases Nat.eq_or_lt_of_le h1 with rfl | h1
        · exact h0
        · exact h x (by omega) (by omega)
    rw [step, ← ih]
    cases m.read a <;> cases m.readList (a + 1) n <;> simp

theorem Memory.readList_length {m : Memory} {a n : Nat} {ws : List Word} (h : m.readList a n = some ws) :
    ws.length = n := by
  induction n generalizing a ws with
  | zero => simp [Memory.readList] at h; simp [← h]
  | succ n ih =>
    rw [Memory.readList] at h
    split at h
    · rename_i w vs _ h2
      cases h
      simp [ih h2]
    · cases h

/-! ### Words that no longer count as written -/

theorem Memory.read_filter (m : Memory) (p : Nat → Bool) (x : Nat) :
    Memory.read (m.filter fun c => p c.1) x = if p x then m.read x else none := by
  induction m with
  | nil => simp [Memory.read]
  | cons c m ih =>
    obtain ⟨b, v⟩ := c
    by_cases hb : p b <;> by_cases hx : b = x
    · subst hx; simp [Memory.read, hb]
    · simp [Memory.read, hb, hx, ih]
    · subst hx; simp [hb, ih]
    · simp [Memory.read, hb, hx, ih]

theorem Memory.read_forget_inside (m : Memory) {a n x : Nat} (h1 : a ≤ x) (h2 : x < a + n) :
    (m.forget a n).read x = none := by
  rw [Memory.forget, Memory.read_filter m (fun y => decide (y < a) || decide (a + n ≤ y))]
  simp; omega

theorem Memory.read_forget_outside (m : Memory) {a n x : Nat} (h : x < a ∨ a + n ≤ x) :
    (m.forget a n).read x = m.read x := by
  rw [Memory.forget, Memory.read_filter m (fun y => decide (y < a) || decide (a + n ≤ y))]
  simp; omega

theorem Memory.forget_wf {m : Memory} (h : m.wf) (a n : Nat) : (m.forget a n).wf :=
  h.sublist (List.filter_sublist.map _)

theorem Memory.mem_forget {m : Memory} {a n : Nat} {c : Cell} (h : c ∈ m.forget a n) : c ∈ m :=
  List.mem_of_mem_filter h

/-! ### Elements -/

@[simp] theorem length_wordsOfValue (n v : Nat) : (wordsOfValue n v).length = n := by
  induction n generalizing v with
  | zero => rfl
  | succ n ih => simp [wordsOfValue, ih]

@[simp] theorem length_elementWords (v : Nat) : (elementWords v).length = 8 := length_wordsOfValue 8 v

theorem getElem?_wordsOfValue (n v k : Nat) (h : k < n) :
    (wordsOfValue n v)[k]? = some (BitVec.ofNat 32 (v / 2 ^ (32 * k))) := by
  induction n generalizing v k with
  | zero => omega
  | succ n ih =>
    cases k with
    | zero => simp [wordsOfValue]
    | succ k =>
      rw [wordsOfValue, List.getElem?_cons_succ, ih _ _ (by omega), Nat.div_div_eq_div_mul,
        show 32 * (k + 1) = 32 + 32 * k by ring, pow_add]

theorem valueOfWords_lt (ws : List Word) : valueOfWords ws < 2 ^ (32 * ws.length) := by
  induction ws with
  | nil => simp [valueOfWords]
  | cons w ws ih =>
    have := w.isLt
    rw [valueOfWords, List.length_cons, show 32 * (ws.length + 1) = 32 + 32 * ws.length by ring, pow_add]
    omega

theorem valueOfWords_wordsOfValue (n v : Nat) : valueOfWords (wordsOfValue n v) = v % 2 ^ (32 * n) := by
  induction n generalizing v with
  | zero => simp [wordsOfValue, valueOfWords, Nat.mod_one]
  | succ n ih =>
    rw [wordsOfValue, valueOfWords, ih, BitVec.toNat_ofNat, show 32 * (n + 1) = 32 + 32 * n by ring, pow_add,
      Nat.mod_mul]

theorem readE_lt {m : Memory} {a v : Nat} (h : readE m a = some v) : v < W := by
  rw [readE, Option.map_eq_some_iff] at h
  obtain ⟨ws, hws, rfl⟩ := h
  have := valueOfWords_lt ws
  rwa [Memory.readList_length hws] at this

theorem readE_congr {m m' : Memory} {a : Nat}
    (h : ∀ x, a ≤ x → x < a + 8 → m.read x = m'.read x) : readE m a = readE m' a := by
  rw [readE, readE, Memory.readList_congr h]

/-- Reading back the words of an element, wherever in a longer write they stand. -/
theorem readE_of_words {m : Memory} {a v : Nat} (hv : v < W)
    (h : ∀ k w, (elementWords v)[k]? = some w → m.read (a + k) = some w) : readE m a = some v := by
  have := Memory.readList_eq_some h
  rw [length_elementWords] at this
  rw [readE, this, Option.map_some, elementWords, valueOfWords_wordsOfValue, Nat.mod_eq_of_lt hv]

theorem readE_writeE {m : Memory} {a v : Nat} (hv : v < W) : readE (writeE m a v) a = some v :=
  readE_of_words hv fun _ _ h => Memory.read_writeList_inside _ _ _ h

/-! ### Points and tables -/

@[simp] theorem length_pointWords (p : Point) : (pointWords p).length = 17 := by
  cases p <;> simp [pointWords]

@[simp] theorem length_entryWords (p : Point) : (entryWords p).length = 24 := by
  cases p <;> simp [entryWords]

theorem length_tableWords (es : List Point) : (tableWords es).length = 24 * es.length := by
  induction es with
  | nil => rfl
  | cons e es ih => simp [tableWords, ih]; ring

/-- The words of entry `k` stand at offset 24k of the table. -/
theorem getElem?_tableWords {es : List Point} {k j : Nat} {e : Point} (he : es[k]? = some e) (hj : j < 24) :
    (tableWords es)[24 * k + j]? = (entryWords e)[j]? := by
  induction es generalizing k with
  | nil => simp at he
  | cons d es ih =>
    rw [tableWords]
    cases k with
    | zero =>
      simp only [List.getElem?_cons_zero, Option.some.injEq] at he
      subst he
      rw [List.getElem?_append_left (by simp; omega)]
      congr 1; omega
    | succ k =>
      rw [List.getElem?_append_right (by simp; omega), length_entryWords,
        show 24 * (k + 1) + j - 24 = 24 * k + j by omega]
      exact ih (by simpa using he)

end Sys2Proof.Machine
end

