-- ==== Sys2Proof/Laws/Exec.lean ====
section
/-! SUPPORT. Once for all commands: every meaning is `State.runRule` of a rule that reads only the source
operands and writes only the destination operand, and what `State.runRule` can answer. -/

namespace Sys2Proof.Machine

/-! ### Reading operands -/

theorem readE_isSome (m : Memory) (a : Nat) : (readE m a).isSome = (m.readList a 8).isSome := Option.isSome_map

theorem readE_isSome_iff (m : Memory) (a : Nat) :
    (readE m a).isSome ↔ ∀ x, a ≤ x → x < a + 8 → (m.read x).isSome := by
  rw [readE_isSome, Memory.readList_isSome_iff]

theorem readPt_congr {m m' : Memory} {a : Nat} (h : ∀ x, a ≤ x → x < a + 17 → m.read x = m'.read x) :
    readPt m a = readPt m' a := by
  rw [readPt, readPt, h (a + 16) (by omega) (by omega),
    readE_congr (m := m) (m' := m') (a := a) fun x h1 h2 => h x h1 (by omega),
    readE_congr (m := m) (m' := m') (a := a + 8) fun x h1 h2 => h x (by omega) (by omega)]

/-- A point can be read exactly when its two coordinates and its flag word can. -/
theorem readPt_eq_some_iff {m : Memory} {a : Nat} {p : Point} : readPt m a = some p ↔
    ∃ x y f, readE m a = some x ∧ readE m (a + 8) = some y ∧ m.read (a + 16) = some f ∧
      p = if flagIsInf f then .inf else .aff x y := by
  rw [readPt]
  split
  · rename_i x y f hx hy hf
    refine ⟨fun h => ⟨x, y, f, hx, hy, hf, (Option.some.inj h).symm⟩, ?_⟩
    rintro ⟨x', y', f', hx', hy', hf', rfl⟩
    rw [Option.some.inj (hx.symm.trans hx'), Option.some.inj (hy.symm.trans hy'), Option.some.inj (hf.symm.trans hf')]
  · rename_i h
    simp only [reduceCtorEq, false_iff]
    rintro ⟨x, y, f, hx, hy, hf, -⟩
    exact h x y f hx hy hf

/-- A point can be read exactly when its 17 words have been written. -/
theorem readPt_isSome (m : Memory) (a : Nat) : (readPt m a).isSome = (m.readList a 17).isSome := by
  rw [Bool.eq_iff_iff, Memory.readList_isSome_iff]
  constructor
  · intro h x h1 h2
    obtain ⟨p, hp⟩ := Option.isSome_iff_exists.1 h
    obtain ⟨vx, vy, f, hx, hy, hf, -⟩ := readPt_eq_some_iff.1 hp
    by_cases hx8 : x < a + 8
    · exact (readE_isSome_iff m a).1 (by simp [hx]) x h1 hx8
    · by_cases hx16 : x < a + 16
      · exact (readE_isSome_iff m (a + 8)).1 (by simp [hy]) x (by omega) (by omega)
      · obtain rfl : x = a + 16 := by omega
        simp [hf]
  · intro h
    obtain ⟨f, hf⟩ := Option.isSome_iff_exists.1 (h (a + 16) (by omega) (by omega))
    obtain ⟨x, hx⟩ := Option.isSome_iff_exists.1 ((readE_isSome_iff m a).2 fun x h1 h2 => h x h1 (by omega))
    obtain ⟨y, hy⟩ := Option.isSome_iff_exists.1
      ((readE_isSome_iff m (a + 8)).2 fun x h1 h2 => h x (by omega) (by omega))
    simp [readPt, hx, hy, hf]

theorem withElement_eq {m : Memory} {a : Addr} {va : Nat} (f : Nat → Result)
    (h : readE m a.toNat = some va) : withElement m a f = some (f va) := by
  rw [withElement, h]; rfl

theorem withElements_eq {m : Memory} {a b : Addr} {va vb : Nat} (f : Nat → Nat → Result)
    (ha : readE m a.toNat = some va) (hb : readE m b.toNat = some vb) :
    withElements m a b f = some (f va vb) := by
  rw [withElements, ha, hb]

theorem withPoint_eq {m : Memory} {a : Addr} {p : Point} (f : Point → Result)
    (h : readPt m a.toNat = some p) : withPoint m a f = some (f p) := by
  rw [withPoint, h]; rfl

theorem withPoints_eq {m : Memory} {a b : Addr} {p q : Point} (f : Point → Point → Result)
    (ha : readPt m a.toNat = some p) (hb : readPt m b.toNat = some q) :
    withPoints m a b f = some (f p q) := by
  rw [withPoints, ha, hb]

/-! ### Rules -/

/-- The OM the two memories hold in the given operands is the same. -/
def SameOn (os : List (Nat × Nat)) (m m' : Memory) : Prop :=
  ∀ o ∈ os, ∀ x, o.1 ≤ x → x < o.1 + o.2 → m.read x = m'.read x

/-- `rule` is the rule of command `i`: `exec` runs it, it writes only the destination operand, it answers
exactly when every source word has been written (70_reset_and_hazards.md R293), it depends on the source words
only, and it sets DZ as `setsDz` says. -/
structure RuleOf (i : Instr) (rule : Memory → Option Result) : Prop where
  exec_eq : ∀ s, exec i s = s.runRule i rule
  writes : ∀ m r, rule m = some r → r.words = [] ∨ destOperand i = [(r.dest, r.words.length)]
  answers : ∀ m, (rule m).isSome = sourcesWritten m i
  reads : ∀ m m', SameOn (sourceOperands i) m m' → rule m = rule m'
  dz : ∀ m r, rule m = some r → r.setDz = setsDz m i

/-- A rule that reads one element. -/
theorem RuleOf.ofElement {i : Instr} {a : Addr} {f : Nat → Result}
    (hexec : ∀ s, exec i s = s.runRule i fun m => withElement m a f)
    (hsrc : sourceOperands i = [(a.toNat, 8)])
    (hdst : ∀ v, (f v).words = [] ∨ destOperand i = [((f v).dest, (f v).words.length)])
    (hdz : ∀ m v, readE m a.toNat = some v → (f v).setDz = setsDz m i) :
    RuleOf i fun m => withElement m a f where
  exec_eq := hexec
  dz m r hr := by
    simp only [withElement, Option.map_eq_some_iff] at hr
    obtain ⟨v, hv, rfl⟩ := hr
    exact hdz m v hv
  writes m r hr := by
    simp only [withElement, Option.map_eq_some_iff] at hr
    obtain ⟨v, -, rfl⟩ := hr
    exact hdst v
  answers m := by simp [withElement, readE_isSome, sourcesWritten, hsrc]
  reads m m' h := by
    simp only [withElement]
    rw [readE_congr (h (a.toNat, 8) (by simp [hsrc]))]

/-- A rule that reads two elements. -/
theorem RuleOf.ofElements {i : Instr} {a b : Addr} {f : Nat → Nat → Result}
    (hexec : ∀ s, exec i s = s.runRule i fun m => withElements m a b f)
    (hsrc : sourceOperands i = [(a.toNat, 8), (b.toNat, 8)])
    (hdst : ∀ v w, (f v w).words = [] ∨ destOperand i = [((f v w).dest, (f v w).words.length)])
    (hdz : ∀ m v w, (f v w).setDz = setsDz m i) :
    RuleOf i fun m => withElements m a b f where
  exec_eq := hexec
  dz m r hr := by
    simp only [withElements] at hr
    split at hr
    · cases hr; exact hdz m _ _
    · cases hr
  writes m r hr := by
    simp only [withElements] at hr
    split at hr
    · cases hr; exact hdst _ _
    · cases hr
  answers m := by
    simp only [sourcesWritten, hsrc, List.all_cons, List.all_nil, Bool.and_true, ← readE_isSome, withElements]
    cases readE m a.toNat <;> cases readE m b.toNat <;> rfl
  reads m m' h := by
    simp only [withElements]
    rw [readE_congr (h (a.toNat, 8) (by simp [hsrc])), readE_congr (h (b.toNat, 8) (by simp [hsrc]))]

/-- A rule that reads one point. -/
theorem RuleOf.ofPoint {i : Instr} {a : Addr} {f : Point → Result}
    (hexec : ∀ s, exec i s = s.runRule i fun m => withPoint m a f)
    (hsrc : sourceOperands i = [(a.toNat, 17)])
    (hdst : ∀ p, (f p).words = [] ∨ destOperand i = [((f p).dest, (f p).words.length)])
    (hdz : ∀ m p, readPt m a.toNat = some p → (f p).setDz = setsDz m i) :
    RuleOf i fun m => withPoint m a f where
  exec_eq := hexec
  dz m r hr := by
    simp only [withPoint, Option.map_eq_some_iff] at hr
    obtain ⟨p, hp, rfl⟩ := hr
    exact hdz m p hp
  writes m r hr := by
    simp only [withPoint, Option.map_eq_some_iff] at hr
    obtain ⟨v, -, rfl⟩ := hr
    exact hdst v
  answers m := by simp [withPoint, readPt_isSome, sourcesWritten, hsrc]
  reads m m' h := by
    simp only [withPoint]
    rw [readPt_congr (h (a.toNat, 17) (by simp [hsrc]))]

/-- A rule that reads two points. -/
theorem RuleOf.ofPoints {i : Instr} {a b : Addr} {f : Point → Point → Result}
    (hexec : ∀ s, exec i s = s.runRule i fun m => withPoints m a b f)
    (hsrc : sourceOperands i = [(a.toNat, 17), (b.toNat, 17)])
    (hdst : ∀ p q, (f p q).words = [] ∨ destOperand i = [((f p q).dest, (f p q).words.length)])
    (hdz : ∀ m p q, readPt m a.toNat = some p → readPt m b.toNat = some q → (f p q).setDz = setsDz m i) :
    RuleOf i fun m => withPoints m a b f where
  exec_eq := hexec
  dz m r hr := by
    simp only [withPoints] at hr
    split at hr
    · rename_i p q hp hq
      cases hr
      exact hdz m p q hp hq
    · cases hr
  writes m r hr := by
    simp only [withPoints] at hr
    split at hr
    · cases hr; exact hdst _ _
    · cases hr
  answers m := by
    simp only [sourcesWritten, hsrc, List.all_cons, List.all_nil, Bool.and_true, ← readPt_isSome, withPoints]
    cases readPt m a.toNat <;> cases readPt m b.toNat <;> rfl
  reads m m' h := by
    simp only [withPoints]
    rw [readPt_congr (h (a.toNat, 17) (by simp [hsrc])), readPt_congr (h (b.toNat, 17) (by simp [hsrc]))]

theorem rom_eq_none_iff (k : Nat) : rom k = none ↔ 7 ≤ k := by
  constructor
  · intro h
    by_contra hc
    have : k < 7 := by omega
    interval_cases k <;> simp [rom] at h
  · intro h
    unfold rom
    split <;> first | omega | rfl

/-- An LDK of a constant of the ROM. -/
theorem RuleOf.ofLdk {d k : Addr} {v : Nat} (hv : rom k.toNat = some v) :
    RuleOf (.ldk d k) fun _ => some (.element d v false) where
  exec_eq s := by simp only [exec, execLdk, hv]
  writes m r hr := by
    cases hr
    exact .inr (by simp [destOperand, operandOf, kindExtent, Instr.d, Instr.opcode, Opcode.kindD, Result.element])
  answers m := rfl
  reads m m' _ := rfl
  dz m r hr := by cases hr; rfl

/-- Every command has a rule. -/
theorem exec_rule (i : Instr) (hi : i.wellFormed = true) : ∃ rule, RuleOf i rule := by
  cases i with
  | add d a b => exact ⟨_, .ofElements (fun _ => rfl) rfl (fun _ _ => .inr rfl) fun _ _ _ => rfl⟩
  | sub d a b => exact ⟨_, .ofElements (fun _ => rfl) rfl (fun _ _ => .inr rfl) fun _ _ _ => rfl⟩
  | cmp a b => exact ⟨_, .ofElements (fun _ => rfl) rfl (fun _ _ => .inl rfl) fun _ _ _ => rfl⟩
  | tst a => exact ⟨_, .ofElement (fun _ => rfl) rfl (fun _ => .inl rfl) fun _ _ _ => rfl⟩
  | shl1 d a => exact ⟨_, .ofElement (fun _ => rfl) rfl (fun _ => .inr rfl) fun _ _ _ => rfl⟩
  | shr1 d a => exact ⟨_, .ofElement (fun _ => rfl) rfl (fun _ => .inr rfl) fun _ _ _ => rfl⟩
  | mov d a => exact ⟨_, .ofElement (fun _ => rfl) rfl (fun _ => .inr rfl) fun _ _ _ => rfl⟩
  | ldk d k =>
    cases hv : rom k.toNat with
    | none =>
      have := (rom_eq_none_iff _).1 hv
      simp [Instr.wellFormed] at hi
      omega
    | some v => exact ⟨_, .ofLdk hv⟩
  | addm m d a b => exact ⟨_, .ofElements (fun _ => rfl) rfl (fun _ _ => .inr rfl) fun _ _ _ => rfl⟩
  | subm m d a b => exact ⟨_, .ofElements (fun _ => rfl) rfl (fun _ _ => .inr rfl) fun _ _ _ => rfl⟩
  | negm m d a => exact ⟨_, .ofElement (fun _ => rfl) rfl (fun _ => .inr rfl) fun _ _ _ => rfl⟩
  | mulm m d a b => exact ⟨_, .ofElements (fun _ => rfl) rfl (fun _ _ => .inr rfl) fun _ _ _ => rfl⟩
  | invm m d a =>
    exact ⟨_, .ofElement (fun _ => rfl) rfl (fun _ => .inr rfl) fun m v hv => by simp only [setsDz, hv]; rfl⟩
  | pdbl d a => exact ⟨_, .ofPoint (fun _ => rfl) rfl (fun p => .inr (by simp [Result.point]; rfl)) fun _ _ _ => rfl⟩
  | padd d a b => exact ⟨_, .ofPoints (fun _ => rfl) rfl (fun p q => .inr (by simp [Result.point]; rfl))
      fun m p q hp hq => by simp only [setsDz, hp, hq]; rfl⟩
  | pneg d a => exact ⟨_, .ofPoint (fun _ => rfl) rfl (fun p => .inr (by simp [Result.point]; rfl)) fun _ _ _ => rfl⟩
  | pchk a => exact ⟨_, .ofPoint (fun _ => rfl) rfl (fun _ => .inl rfl) fun _ _ _ => rfl⟩
  | tbld d a =>
    exact ⟨_, .ofPoint (fun _ => rfl) rfl (fun p => .inr (by simp [Result.table, length_tableWords, tab]; rfl))
      fun m p hp => by simp only [setsDz, hp]; rfl⟩

/-- A term that is no command takes the fault entry of an illegal word. -/
theorem exec_illFormed {i : Instr} (hi : i.wellFormed = false) (s : State) :
    exec i s = s.enterFault .illegalCommand (encode i) := by
  cases i with
  | ldk d k =>
    have : rom k.toNat = none := (rom_eq_none_iff _).2 (by simp [Instr.wellFormed] at hi; omega)
    simp only [exec, execLdk, this]
  | _ => simp [Instr.wellFormed] at hi

/-- What a command answers with a next state: it took a fault, having changed nothing else, or it retired
with the result of its rule, which sets DZ as `setsDz` says. -/
inductive Ran (omWords : Nat) (i : Instr) (L : Lane) : Lane → Prop where
  | illegal (h : i.wellFormed = false) : Ran omWords i L (L.faultEntry .illegalCommand (encode i))
  | range (hi : i.wellFormed = true) (h : inRange omWords i = false) :
      Ran omWords i L (L.faultEntry .addressRange (encode i))
  | retired (hi : i.wellFormed = true) (h : inRange omWords i = true) (r : Result)
      (hw : r.words = [] ∨ destOperand i = [(r.dest, r.words.length)]) (hdz : r.setDz = setsDz L.om i) :
      Ran omWords i L (L.retire r)

/-- If `exec` answers next, the lane under execution exists and only it has changed, as `Ran` says. -/
theorem exec_next {i : Instr} {s t : State} (h : exec i s = .next t) :
    ∃ L L', s.cur = some L ∧ t = s.setCur L' ∧ Ran s.omWords i L L' := by
  by_cases hi : i.wellFormed = true
  · obtain ⟨rule, hr⟩ := exec_rule i hi
    rw [hr.exec_eq, State.runRule] at h
    split at h
    · cases h
    · rename_i L hL
      split at h
      · rename_i hin
        split at h
        · cases h
        · rename_i r hrule
          cases h
          exact ⟨L, _, hL, rfl, .retired hi hin r (hr.writes _ _ hrule) (hr.dz _ _ hrule)⟩
      · rename_i hin
        cases h
        exact ⟨L, _, hL, rfl, .range hi (by simpa using hin)⟩
  · rw [exec_illFormed (by simpa using hi), State.enterFault] at h
    split at h
    · cases h
    · rename_i L hL
      cases h
      exact ⟨L, _, hL, rfl, .illegal (by simpa using hi)⟩

/-- On a lane that exists, a command that is in range and whose sources are written retires. -/
theorem exec_of_written {i : Instr} {s : State} {L : Lane} (hi : i.wellFormed = true) (hL : s.cur = some L)
    (hin : inRange s.omWords i = true) (hw : sourcesWritten L.om i = true) :
    ∃ r, exec i s = .next (s.setCur (L.retire r)) ∧
      (r.words = [] ∨ destOperand i = [(r.dest, r.words.length)]) := by
  obtain ⟨rule, hr⟩ := exec_rule i hi
  obtain ⟨r, hrule⟩ := Option.isSome_iff_exists.1 ((hr.answers _).trans hw)
  refine ⟨r, ?_, hr.writes _ _ hrule⟩
  rw [hr.exec_eq, State.runRule, hL]
  simp only [hin, if_true, hrule]

/-! ### Running one command -/

/-- In range, a command whose rule answers `r` retires with `r`. -/
theorem runRule_of_rule {i : Instr} {s : State} {L : Lane} {rule : Memory → Option Result} {r : Result}
    (hL : s.cur = some L) (hin : inRange s.omWords i = true) (hr : rule L.om = some r) :
    s.runRule i rule = .next (s.setCur (L.retire r)) := by
  rw [State.runRule, hL]
  simp only [hin, if_true, hr]

/-- Out of range, a command takes ADDRESS_RANGE, whatever its rule. -/
theorem runRule_of_range {i : Instr} {s : State} {L : Lane} {rule : Memory → Option Result}
    (hL : s.cur = some L) (hin : inRange s.omWords i = false) :
    s.runRule i rule = .next (s.setCur (L.faultEntry .addressRange (encode i))) := by
  rw [State.runRule, hL]
  simp only [hin, Bool.false_eq_true, if_false]

theorem exec_of_element {i : Instr} {s : State} {L : Lane} {a : Addr} {f : Nat → Result} {va : Nat}
    (he : exec i s = s.runRule i fun m => withElement m a f) (hL : s.cur = some L)
    (hin : inRange s.omWords i = true) (ha : readE L.om a.toNat = some va) :
    exec i s = .next (s.setCur (L.retire (f va))) :=
  he.trans (runRule_of_rule hL hin (withElement_eq f ha))

theorem exec_of_elements {i : Instr} {s : State} {L : Lane} {a b : Addr} {f : Nat → Nat → Result}
    {va vb : Nat} (he : exec i s = s.runRule i fun m => withElements m a b f) (hL : s.cur = some L)
    (hin : inRange s.omWords i = true) (ha : readE L.om a.toNat = some va)
    (hb : readE L.om b.toNat = some vb) :
    exec i s = .next (s.setCur (L.retire (f va vb))) :=
  he.trans (runRule_of_rule hL hin (withElements_eq f ha hb))

theorem exec_of_point {i : Instr} {s : State} {L : Lane} {a : Addr} {f : Point → Result} {p : Point}
    (he : exec i s = s.runRule i fun m => withPoint m a f) (hL : s.cur = some L)
    (hin : inRange s.omWords i = true) (ha : readPt L.om a.toNat = some p) :
    exec i s = .next (s.setCur (L.retire (f p))) :=
  he.trans (runRule_of_rule hL hin (withPoint_eq f ha))

theorem exec_of_points {i : Instr} {s : State} {L : Lane} {a b : Addr} {f : Point → Point → Result}
    {p q : Point} (he : exec i s = s.runRule i fun m => withPoints m a b f) (hL : s.cur = some L)
    (hin : inRange s.omWords i = true) (ha : readPt L.om a.toNat = some p)
    (hb : readPt L.om b.toNat = some q) :
    exec i s = .next (s.setCur (L.retire (f p q))) :=
  he.trans (runRule_of_rule hL hin (withPoints_eq f ha hb))

/-- In range, a command one of whose source words has not been written ends in UNINIT. -/
theorem exec_of_unwritten {i : Instr} {s : State} {L : Lane} (hi : i.wellFormed = true) (hL : s.cur = some L)
    (hin : inRange s.omWords i = true) (hw : sourcesWritten L.om i = false) : exec i s = .fault .uninit := by
  obtain ⟨rule, hr⟩ := exec_rule i hi
  have hnone : rule L.om = none := Option.isNone_iff_eq_none.1 (by simp [← Option.not_isSome, hr.answers, hw])
  rw [hr.exec_eq, State.runRule, hL]
  simp only [hin, if_true, hnone]

end Sys2Proof.Machine
end

