-- ==== Sys2Proof/Laws/Step.lean ====
section
/-! SUPPORT. Once for all moves: which lane a move changes and what it can do to it, and the moves of a step. -/

namespace Sys2Proof.Machine

/-- What a move can do to the lane it is about, given OM_WORDS and the number of the next free value. -/
inductive LaneMove (omWords fresh : Nat) : Move → Lane → Lane → Prop where
  | wrote (l : Nat) (a : Addr) (w : Word) (L : Lane) (h : a.toNat < omWords) :
      LaneMove omWords fresh (.hostWriteOM l a w) L { L.touch with om := L.om.write a.toNat w }
  | wroteOutside (l : Nat) (a : Addr) (w : Word) (L : Lane) (h : omWords ≤ a.toNat) :
      LaneMove omWords fresh (.hostWriteOM l a w) L L.touch
  | readOM (l : Nat) (a : Addr) (L : Lane) : LaneMove omWords fresh (.hostReadOM l a) L L
  | readOMTouch (l : Nat) (a : Addr) (L : Lane) : LaneMove omWords fresh (.hostReadOM l a) L L.touch
  | issued (l : Nat) (c : Cmd) (L : Lane) : LaneMove omWords fresh (.hostIssue l c) L (L.issue c)
  | readStatus (l : Nat) (L : Lane) : LaneMove omWords fresh (.hostReadStatus l) L L
  | wroteStatus (l : Nat) (v : Word) (L : Lane) :
      LaneMove omWords fresh (.hostWriteStatus l v) L (L.writeStatus v)
  | readFCMD (l : Nat) (L : Lane) : LaneMove omWords fresh (.hostReadFCMD l) L L
  | wasReset (l : Nat) (L : Lane) : LaneMove omWords fresh (.hostReset l) L .reset
  | idleTurn (l : Nat) (L : Lane) (h : L.inFlight = none) : LaneMove omWords fresh (.laneTurn l) L L
  | illegal (l : Nat) (L : Lane) (f : InFlight) (hf : L.inFlight = some f) (e : DecodeError)
      (hd : decode f.cmd = .error e) :
      LaneMove omWords fresh (.laneTurn l) L (L.faultEntry .illegalCommand f.cmd)
  | ran (l : Nat) (L : Lane) (f : InFlight) (hf : L.inFlight = some f) (i : Instr)
      (hd : decode f.cmd = .ok i) (L' : Lane) (hr : Ran omWords i L L')
      (hu : f.disturbed = false ∨ inRange omWords i = false) :
      LaneMove omWords fresh (.laneTurn l) L L'
  | ranDisturbed (l : Nat) (L : Lane) (f : InFlight) (hf : L.inFlight = some f) (i : Instr)
      (hd : decode f.cmd = .ok i) (L' : Lane) (hr : Ran omWords i L L')
      (hu : f.disturbed = true) (hin : inRange omWords i = true) :
      LaneMove omWords fresh (.laneTurn l) L (L'.scramble i L.status.dz fresh)

theorem onLane_next {s t : State} {l : Nat} {f : Lane → Out} (h : s.onLane l f = .next t) :
    ∃ L, s.lane l = some L ∧ f L = .next t := by
  rw [State.onLane] at h
  split at h
  · cases h
  · exact ⟨_, ‹_›, h⟩

theorem State.setLane_self {s : State} {l : Nat} {L : Lane} (h : s.lane l = some L) : s.setLane l L = s := by
  have h' : s.lanes.set l L = s.lanes := by
    rw [State.lane, List.getElem?_eq_some_iff] at h
    obtain ⟨hl, rfl⟩ := h
    exact List.set_getElem_self hl
  rw [State.setLane, h']

/-- The lanes of a state after a move: the move's own lane changed as `LaneMove` says, all others as they
were; the sizes and the agenda stay. -/
theorem perform_next {m : Move} {s t : State} (h : perform m s = .next t) :
    ∃ L L', s.lane m.lane = some L ∧ LaneMove s.omWords s.fresh m L L' ∧
      t.lanes = s.lanes.set m.lane L' ∧ t.omWords = s.omWords ∧ t.agenda = s.agenda ∧
      (t.active = s.active ∨ t.active = m.lane) := by
  have self {l : Nat} {L : Lane} (hL : s.lane l = some L) : s.lanes.set l L = s.lanes :=
    congrArg State.lanes (State.setLane_self hL)
  cases m with
  | hostWriteOM l a w =>
    obtain ⟨L, hL, h⟩ := onLane_next h
    split at h
    · cases h; exact ⟨L, _, hL, .wrote l a w L ‹_›, rfl, rfl, rfl, .inl rfl⟩
    · cases h; exact ⟨L, _, hL, .wroteOutside l a w L (by omega), rfl, rfl, rfl, .inl rfl⟩
  | hostReadOM l a =>
    obtain ⟨L, hL, h⟩ := onLane_next h
    split at h
    · split at h
      · cases h
      · split at h
        · cases h; exact ⟨L, _, hL, .readOMTouch l a L, rfl, rfl, rfl, .inl rfl⟩
        · cases h; exact ⟨L, _, hL, .readOM l a L, (self hL).symm, rfl, rfl, .inl rfl⟩
    · cases h; exact ⟨L, _, hL, .readOMTouch l a L, rfl, rfl, rfl, .inl rfl⟩
  | hostIssue l c =>
    obtain ⟨L, hL, h⟩ := onLane_next h
    cases h; exact ⟨L, _, hL, .issued l c L, rfl, rfl, rfl, .inl rfl⟩
  | hostReadStatus l =>
    obtain ⟨L, hL, h⟩ := onLane_next h
    cases h; exact ⟨L, _, hL, .readStatus l L, (self hL).symm, rfl, rfl, .inl rfl⟩
  | hostWriteStatus l v =>
    obtain ⟨L, hL, h⟩ := onLane_next h
    cases h; exact ⟨L, _, hL, .wroteStatus l v L, rfl, rfl, rfl, .inl rfl⟩
  | hostReadFCMD l =>
    obtain ⟨L, hL, h⟩ := onLane_next h
    cases h; exact ⟨L, _, hL, .readFCMD l L, (self hL).symm, rfl, rfl, .inl rfl⟩
  | hostReset l =>
    obtain ⟨L, hL, h⟩ := onLane_next h
    cases h; exact ⟨L, _, hL, .wasReset l L, rfl, rfl, rfl, .inl rfl⟩
  | laneTurn l =>
    obtain ⟨L, hL, h⟩ := onLane_next h
    have hcur : ({ s with active := l } : State).cur = some L := hL
    split at h
    · rename_i hf
      cases h; exact ⟨L, _, hL, .idleTurn l L hf, (self hL).symm, rfl, rfl, .inl rfl⟩
    · rename_i f hf
      rw [runInFlight] at h
      split at h
      · rename_i e hd
        rw [State.enterFault, hcur] at h
        cases h
        exact ⟨L, _, hL, .illegal l L f hf e hd, rfl, rfl, rfl, .inr rfl⟩
      · rename_i i hd
        cases hex : exec i { s with active := l } with
        | fault r => rw [hex] at h; cases h
        | refused r => rw [hex] at h; cases h
        | next u =>
          obtain ⟨L0, L', hL0, hu, hran⟩ := exec_next hex
          obtain rfl : L = L0 := by rw [hcur] at hL0; simpa using hL0
          rw [hex, settle] at h
          split at h
          · rename_i hdist
            rw [Bool.and_eq_true] at hdist
            cases h
            have huc : u.cur = some L' := by rw [hu]; exact State.cur_setCur L' hcur
            have hfresh : u.fresh = s.fresh := by rw [hu]; rfl
            refine ⟨L, _, hL, .ranDisturbed l L f hf i hd L' hran hdist.1 hdist.2, ?_, ?_, ?_, ?_⟩
            · simp only [State.scrambleCur, huc, hfresh]
              rw [hu]
              simp [State.setCur, Move.lane]
            · simp only [State.scrambleCur, huc]; rw [hu]; rfl
            · simp only [State.scrambleCur, huc]; rw [hu]; rfl
            · simp only [State.scrambleCur, huc]; rw [hu]; exact .inr rfl
          · rename_i hdist
            cases h
            refine ⟨L, L', hL, .ran l L f hf i hd L' hran ?_, ?_, ?_, ?_, ?_⟩
            · rw [Bool.and_eq_true, not_and_or] at hdist
              simpa using hdist
            · rw [hu]; rfl
            · rw [hu]; rfl
            · rw [hu]; rfl
            · rw [hu]; exact .inr rfl

theorem firstInFlight_some {Ls : List Lane} {l : Nat} (h : firstInFlight Ls = some l) :
    ∃ L f, Ls[l]? = some L ∧ L.inFlight = some f := by
  induction Ls generalizing l with
  | nil => cases h
  | cons L Ls ih =>
    rw [firstInFlight] at h
    split at h
    · rename_i hf
      obtain ⟨f, hf⟩ := Option.isSome_iff_exists.1 hf
      cases h
      exact ⟨L, f, rfl, hf⟩
    · rw [Option.map_eq_some_iff] at h
      obtain ⟨k, hk, rfl⟩ := h
      simpa using ih hk

theorem firstInFlight_none {Ls : List Lane} (h : firstInFlight Ls = none) :
    ∀ L ∈ Ls, L.inFlight = none := by
  induction Ls with
  | nil => simp
  | cons L Ls ih =>
    rw [firstInFlight] at h
    split at h
    · cases h
    · rename_i hf
      rw [Option.map_eq_none_iff] at h
      simp only [List.mem_cons, forall_eq_or_imp]
      exact ⟨by simpa using hf, ih h⟩

/-- A step is one move, or nothing at all when the agenda is empty and every lane idle. -/
theorem step_next {s t : State} (h : step s = .next t) :
    (∃ m rest, s.agenda = m :: rest ∧ perform m { s with agenda := rest } = .next t) ∨
    (s.agenda = [] ∧ ∃ l, firstInFlight s.lanes = some l ∧ perform (.laneTurn l) s = .next t) ∨
    (s.agenda = [] ∧ firstInFlight s.lanes = none ∧ t = s) := by
  rw [step] at h
  split at h
  · rename_i ha
    rw [quietStep] at h
    split at h
    · cases h; exact .inr (.inr ⟨ha, ‹_›, rfl⟩)
    · exact .inr (.inl ⟨ha, _, ‹_›, h⟩)
  · exact .inl ⟨_, _, ‹_›, h⟩

/-- A turn of a lane with a command in flight runs it. -/
theorem laneTurn_eq {s : State} {l : Nat} {L : Lane} {f : InFlight} (hL : s.lane l = some L)
    (hf : L.inFlight = some f) : perform (.laneTurn l) s = runInFlight { s with active := l } L f := by
  simp only [perform, laneTurn, State.onLane, hL, hf]

/-- The host's run of any machine takes the first step first. -/
theorem run_succ_of_step (M : Host.Core) (n : Nat) {s t : M.State} (h : M.step s = .next t) :
    M.run (n + 1) s = M.run n t := by
  rw [Host.Core.run, h]

/-- And of this one. -/
theorem core_run_succ (n : Nat) {s t : State} (h : step s = .next t) :
    core.run (n + 1) s = core.run n t :=
  run_succ_of_step core n h

/-! ### Host procedures -/

@[simp] theorem andThen_next (t : State) (f : State → Out) : andThen (.next t) f = f t := rfl
@[simp] theorem andThen_fault (r : Fault) (f : State → Out) : andThen (.fault r) f = .fault r := rfl
@[simp] theorem andThen_refused (r : Refusal) (f : State → Out) : andThen (.refused r) f = .refused r := rfl

/-- A procedure that goes on answers next only through a next state. -/
theorem andThen_eq_next_iff {o : Out} {f : State → Out} {t : State} :
    andThen o f = .next t ↔ ∃ u, o = .next u ∧ f u = .next t := by
  cases o <;> simp

end Sys2Proof.Machine
end

