-- ==== Sys2Proof/Tests/Slice0.lean ====
section
/-! SUPPORT. The tests, with expected results from spec/95_test_vectors.md (the subsection stands at each group),
and for every statement with hypotheses a witness: a concrete state and operands that meet them together. -/

-- one theorem at a time: many waiting at once reserve more stacks than the check's memory limit has room for
set_option Elab.async false

namespace Sys2Proof.Tests

open Sys2Proof Sys2Proof.Machine

/-! ### Helpers -/

/-- T of the vectors. -/
def topValue : Nat := 2 ^ 256 - 1

/-- Y1 of the vectors: (1, Y1) is on the curve. -/
def rootOfEight : Nat := 0x4218F20AE6C646B363DB68605822FB14264CA8D2587FDD6FBC750D587E76A7EE

/-- The coordinates of 2G and the negated y of G (section 1 and 3.5). -/
def doubleX : Nat := 0xC6047F9441ED7D6D3045406E95C07CD85C778E4B8CEF3CA7ABAC09B95C709EE5
def doubleY : Nat := 0x1AE168FEA63DC339A3C58419466CEAEEF7F632653266D0E1236431A950CFE52A
def negBaseY : Nat := 0xB7C52588D95C3B9AA25B0403F1EEF75702E84BB7597AABE663B82F6F04EF2777

/-- The base point. -/
def baseG : Point := .aff baseX baseY

/-- A reset lane with this OM. -/
def laneWith (m : Memory) : Lane := { Lane.reset with om := m }

/-- A lane with this command in flight. -/
def busyLane (m : Memory) (c : Cmd) (disturbed : Bool) : Lane :=
  { laneWith m with
    status := { Status.reset with busy := true }
    inFlight := some { cmd := c, disturbed := disturbed } }

/-- A halted lane, after the fault `code` on command `c`. -/
def haltedLane (m : Memory) (code : BitVec 4) (c : Cmd) : Lane :=
  { laneWith m with status := { Status.reset with flt := true, fcause := code }, fcmd := c }

/-- The machine of State.reset, with this one lane and these moves to come. -/
def machine (L : Lane) (moves : List Move) : State := { State.reset with lanes := [L], agenda := moves }

/-- The machine of State.reset with this OM. -/
def machineWith (m : Memory) : State := machine (laneWith m) []

/-- Element A at 0x08 and element B at 0x10. -/
def elements (va vb : Nat) : Memory := writeE (writeE [] 0x08 va) 0x10 vb

/-- A point with its flag word, as a host writes it. -/
def putPoint (m : Memory) (a x y : Nat) (flag : Word) : Memory :=
  (writeE (writeE m a x) (a + 8) y).write (a + 16) flag

/-- Point A at 0x000 and point B at 0x020, affine. -/
def points (x1 y1 x2 y2 : Nat) : Memory := putPoint (putPoint [] 0x000 x1 y1 0) 0x020 x2 y2 0

/-- Infinity at 0x000, as the vectors write it. -/
def infinityAtZero : Memory := putPoint [] 0x000 0 0 1

/-- One step that runs the command word `w` on this OM. -/
def runWord (m : Memory) (w : Nat) : Out := step ((machineWith m).withFetchWord 64 w)

/-- The next state of an answer. -/
def next? : Out → Option State
  | .next t => some t
  | .fault _ => none
  | .refused _ => none

/-- The answer is a next state whose lane 0 has this property. -/
def laneSat (o : Out) (p : Lane → Bool) : Bool := (next? o).any fun t => (t.lane 0).any p

/-- The command completed: element `r` stands at `d`, and STATUS is `st`. -/
def completes (o : Out) (d r : Nat) (st : Word) : Bool :=
  laneSat o fun L => readE L.om d == some r && L.status.word == st && L.inFlight.isNone

/-- The command completed: STATUS is `st` and OM is as before. -/
def completesFlags (o : Out) (m : Memory) (st : Word) : Bool :=
  laneSat o fun L => L.om == m && L.status.word == st && L.inFlight.isNone

/-- The command completed: x, y and the flag word stand at 0x040, and STATUS is `st`. -/
def completesPoint (o : Out) (x y : Nat) (flag st : Word) : Bool :=
  laneSat o fun L => readE L.om 0x040 == some x && readE L.om 0x048 == some y
    && L.om.read 0x050 == some flag && L.status.word == st && L.inFlight.isNone

/-- The command took a fault: STATUS is `st`, FCMD is `w`, OM is as before. -/
def faults (o : Out) (m : Memory) (w : Nat) (st : Word) : Bool :=
  laneSat o fun L => L.om == m && L.status.word == st && L.fcmd == BitVec.ofNat 64 w && L.inFlight.isNone

/-- The answer is the fault UNINIT. -/
def isUninit : Out → Bool
  | .fault r => r == .uninit
  | .next _ | .refused _ => false

/-- The words 0x000 to 0x01F are 0. -/
def zeros : Memory := Memory.writeList [] 0 (List.replicate 32 0)

theorem next_lane {o : Out} {l : Nat} {P : Lane → Prop} [DecidablePred P]
    (h : ((next? o).any fun t => (t.lane l).any fun L => decide (P L)) = true) :
    ∃ t L, o = .next t ∧ t.lane l = some L ∧ P L := by
  cases o with
  | next t =>
    have h' : (t.lane l).any (fun L => decide (P L)) = true := h
    obtain ⟨L, hL, hp⟩ := (Option.any_eq_true _ _).1 h'
    exact ⟨t, L, rfl, hL, of_decide_eq_true hp⟩
  | fault r => exact absurd h Bool.false_ne_true
  | refused r => exact absurd h Bool.false_ne_true

theorem written_of {m : Memory} {i : Instr} (h : ∀ o ∈ sourceTable i, (m.readList o.1 o.2).isSome = true) :
    Written m i :=
  fun o ho x h1 h2 => (Memory.readList_isSome_iff m o.1 o.2).1 (h o ho) x h1 h2

/-! ### Well-formed terms -/

theorem test_wellFormed_refuses_constant_seven : (Instr.ldk 0x18 7).wellFormed = false := by decide

theorem test_wellFormed_takes_constant_six : (Instr.ldk 0x18 6).wellFormed = true := by decide

/-! ### Decoding: the words of the rules' examples (40 to 43), and bit by bit B, A, D, RSV, M, OPC -/

theorem test_decode_adder : ∀ x ∈ ([
    (0x0010000800180001, .add 0x18 0x08 0x10), (0x0010000800180002, .sub 0x18 0x08 0x10),
    (0x0010000800000003, .cmp 0x08 0x10), (0x0000000800000004, .tst 0x08),
    (0x0000000800180005, .shl1 0x18 0x08), (0x0000000800180006, .shr1 0x18 0x08),
    (0x0000000800180007, .mov 0x18 0x08), (0x0000000200180008, .ldk 0x18 2),
    (0x0010000800180010, .addm .p 0x18 0x08 0x10), (0x0010000800180110, .addm .n 0x18 0x08 0x10),
    (0x0010000800180011, .subm .p 0x18 0x08 0x10), (0x0010000800180111, .subm .n 0x18 0x08 0x10),
    (0x0000000800180012, .negm .p 0x18 0x08), (0x0000000800180112, .negm .n 0x18 0x08)] :
    List (Nat × Instr)), decodeTableWord 64 x.1 = some x.2 := by decide +kernel

theorem test_decode_multiplier : ∀ x ∈ ([
    (0x0010000800180020, .mulm .p 0x18 0x08 0x10), (0x0010000800180120, .mulm .n 0x18 0x08 0x10),
    (0x0000000800180021, .invm .p 0x18 0x08), (0x0000000800180121, .invm .n 0x18 0x08)] :
    List (Nat × Instr)), decodeTableWord 64 x.1 = some x.2 := by decide +kernel

theorem test_decode_point_and_table : ∀ x ∈ ([
    (0x0000000000400030, .pdbl 0x40 0x00), (0x0020000000400031, .padd 0x40 0x00 0x20),
    (0x0000000000400032, .pneg 0x40 0x00), (0x0000000000000033, .pchk 0x00),
    (0x0000000000800040, .tbld 0x80 0x00)] :
    List (Nat × Instr)), decodeTableWord 64 x.1 = some x.2 := by decide +kernel

theorem test_decode_add_bits : decodeTableWord 64
    0b0000000000010000_0000000000001000_0000000000011000_0000000_0_00000001 =
    some (.add 0x18 0x08 0x10) := by decide +kernel

theorem test_decode_mulm_bits : decodeTableWord 64
    0b0000000000010000_0000000000001000_0000000000011000_0000000_1_00100000 =
    some (.mulm .n 0x18 0x08 0x10) := by decide +kernel

theorem test_decode_padd_bits : decodeTableWord 64
    0b0000000000100000_0000000000000000_0000000001000000_0000000_0_00110001 =
    some (.padd 0x40 0x00 0x20) := by decide +kernel

theorem test_decode_tbld_bits : decodeTableWord 64
    0b0000000000000000_0000000000000000_0000000010000000_0000000_0_01000000 =
    some (.tbld 0x80 0x00) := by decide +kernel

/-! ### Encoding and faults (section 3.1) -/

theorem test_illegal_command_rows : ∀ w ∈ ([0x0000000000000000, 0x0000000000000009, 0x00000000000000FF,
    0x0010000800180201, 0x0010000800180101, 0x0020000000400131, 0x0010000800180003, 0x0010000800000004,
    0x0000000700180008, 0x0000FFFF00180008, 0x00080000FFFF8020] : List Nat),
    faults (runWord zeros w) zeros w 0x00000140 = true := by decide +kernel

theorem test_address_range_rows : ∀ w ∈ ([0x0008000003F90020, 0x0000000003F00030, 0x0000000003A10040,
    0x0008FFFF00180020] : List Nat),
    faults (runWord zeros w) zeros w 0x00000240 = true := by decide +kernel

theorem test_legal_rows : ∀ x ∈ ([(0x0000000600180008, 0x0), (0x0008000003F80020, 0x2),
    (0x0000000003EF0030, 0x4), (0x0000000003A00040, 0x0)] : List (Nat × Word)),
    laneSat (runWord zeros x.1) (fun L => L.status.word == x.2 && L.inFlight.isNone) = true := by
  decide +kernel

/-! ### Adder/subtractor (sections 3.2 and 3.3) -/

theorem test_add_all_ones : completes (runWord (elements topValue topValue) 0x0010000800180001) 0x18
    0xFFFFFFFFFFFFFFFFFFFFFFFFFFFFFFFFFFFFFFFFFFFFFFFFFFFFFFFFFFFFFFFE 0x1 = true := by decide +kernel

theorem test_add_wraps_to_zero :
    completes (runWord (elements topValue 1) 0x0010000800180001) 0x18 0 0x3 = true := by decide +kernel

theorem test_sub_borrows :
    completes (runWord (elements 0 1) 0x0010000800180002) 0x18 topValue 0x1 = true := by decide +kernel

theorem test_sub_operand_order :
    completes (runWord (elements 7 5) 0x0010000800180002) 0x18 2 0x0 = true := by decide +kernel

theorem test_cmp_below : completesFlags (runWord (elements 0 topValue) 0x0010000800000003)
    (elements 0 topValue) 0x1 = true := by decide +kernel

theorem test_cmp_equal : completesFlags (runWord (elements baseX baseX) 0x0010000800000003)
    (elements baseX baseX) 0x2 = true := by decide +kernel

theorem test_tst_zero : completesFlags (runWord (elements 0 1) 0x0000000800000004) (elements 0 1) 0x2 = true := by
  decide +kernel

theorem test_tst_is_not_modular : completesFlags (runWord (elements primeP 1) 0x0000000800000004)
    (elements primeP 1) 0x0 = true := by decide +kernel

theorem test_shl1_carries_bit_255 :
    completes (runWord (elements (2 ^ 255 + 1) 0) 0x0000000800180005) 0x18 2 0x1 = true := by decide +kernel

theorem test_shl1_crosses_limbs : completes (runWord (elements 0x8000000000000000 0) 0x0000000800180005) 0x18
    0x10000000000000000 0x0 = true := by decide +kernel

theorem test_shr1_carries_bit_0 :
    completes (runWord (elements 3 0) 0x0000000800180006) 0x18 1 0x1 = true := by decide +kernel

theorem test_shr1_is_logical :
    completes (runWord (elements (2 ^ 255) 0) 0x0000000800180006) 0x18 (2 ^ 254) 0x0 = true := by
  decide +kernel

theorem test_mov_copies :
    completes (runWord (elements baseX 0) 0x0000000800180007) 0x18 baseX 0x0 = true := by decide +kernel

theorem test_mov_zero : completes (runWord (elements 0 1) 0x0000000800180007) 0x18 0 0x2 = true := by
  decide +kernel

theorem test_ldk_order : completes (runWord [] 0x0000000300180008) 0x18 orderN 0x0 = true := by decide +kernel

theorem test_ldk_zero : completes (runWord [] 0x0000000000180008) 0x18 0 0x2 = true := by decide +kernel

theorem test_addm_corrects_once :
    completes (runWord (elements primeP primeP) 0x0010000800180010) 0x18 primeP 0x1 = true := by decide +kernel

theorem test_addm_order : completes (runWord (elements (primeP - 1) 1) 0x0010000800180110) 0x18
    0x14551231950B75FC4402DA1722FC9BAEE 0x1 = true := by decide +kernel

theorem test_subm_not_canonical :
    completes (runWord (elements 0 topValue) 0x0010000800180011) 0x18 (primeP + 1) 0x1 = true := by
  decide +kernel

theorem test_subm_order :
    completes (runWord (elements 1 (orderN - 1)) 0x0010000800180111) 0x18 2 0x1 = true := by decide +kernel

theorem test_negm_not_canonical :
    completes (runWord (elements topValue 0) 0x0000000800180012) 0x18 (primeP + 1) 0x1 = true := by
  decide +kernel

theorem test_negm_zero : completes (runWord (elements 0 1) 0x0000000800180112) 0x18 0 0x2 = true := by
  decide +kernel

/-! ### Multiplier (section 3.4) -/

theorem test_mulm_field : completes (runWord (elements topValue topValue) 0x0010000800180020) 0x18
    0x1000007A0000E8900 0x0 = true := by decide +kernel

theorem test_mulm_order : completes (runWord (elements baseX baseY) 0x0010000800180120) 0x18
    0x805714A252D0C0B58910907E85B5B801FFF610A36BDF46847A4BF5D9AE2D10ED 0x0 = true := by decide +kernel

theorem test_invm_zero_sets_dz :
    completes (runWord (elements primeP 0) 0x0000000800180021) 0x18 0 0xA = true := by decide +kernel

theorem test_invm_order : completes (runWord (elements primeP 0) 0x0000000800180121) 0x18
    0xA57BDC004D93728C4BC18A61F6631708569FA14FE13EDB7F8F3107A7A3E12BE1 0x0 = true := by decide +kernel

/-! ### Point unit (section 3.5) -/

theorem test_pdbl_reduces : completesPoint
    (runWord (points (1 + primeP) rootOfEight 0 0) 0x0000000000400030)
    0xC7FFFFFFFFFFFFFFFFFFFFFFFFFFFFFFFFFFFFFFFFFFFFFFFFFFFFFF37FFFD03
    0x4298C557A7DDCC570E8BF054C4CAD9E99F396B3CE19D50F1B91C9DF4BB00D333 0 0x0 = true := by decide +kernel

theorem test_pdbl_y_zero :
    completesPoint (runWord (points 1 primeP 0 0) 0x0000000000400030) 0 0 1 0x4 = true := by decide +kernel

theorem test_padd_chord : completesPoint (runWord (points doubleX doubleY baseX baseY) 0x0020000000400031)
    0xF9308A019258C31049344F85F89D5229B531C845836F99B08601F113BCE036F9
    0x388F7B0F632DE8140FE337E62A37F3566500A99934C2231B6CB9FD7584B8E672 0 0x0 = true := by decide +kernel

theorem test_padd_degenerate :
    completesPoint (runWord (points 1 1 1 2) 0x0020000000400031) 0 0 1 0xC = true := by decide +kernel

theorem test_pneg_base :
    completesPoint (runWord (points baseX baseY 0 0) 0x0000000000400032) baseX negBaseY 0 0x0 = true := by
  decide +kernel

theorem test_pneg_reduces :
    completesPoint (runWord (points 1 primeP 0 0) 0x0000000000400032) 1 0 0 0x0 = true := by decide +kernel

theorem test_pchk_ignores_flag_bits_above_zero :
    completesFlags (runWord (putPoint [] 0 baseX baseY 0xFFFFFFFE) 0x0000000000000033)
      (putPoint [] 0 baseX baseY 0xFFFFFFFE) 0x2 = true := by decide +kernel

theorem test_pchk_not_canonical :
    completesFlags (runWord (points (1 + primeP) rootOfEight 0 0) 0x0000000000000033)
      (points (1 + primeP) rootOfEight 0 0) 0x0 = true := by decide +kernel

/-! ### Table builder (section 3.6) -/

theorem test_tbld_base : laneSat (runWord (points baseX baseY 0 0) 0x0000000000800040) (fun L =>
    readE L.om 0x80 == some baseX && readE L.om 0x88 == some baseY && readE L.om 0x90 == some negBaseY &&
    readE L.om 0x98 == some 0xF9308A019258C31049344F85F89D5229B531C845836F99B08601F113BCE036F9 &&
    readE L.om 0xB8 == some 0xD8AC222636E5E3D6D4DBA9DDA6C9C426F788271BAB0D6840DCA87D3AA6AC62D6 &&
    readE L.om 0xD8 == some 0x951435BF45DAA69F5CE8729279E5AB2457EC2F47EC02184A5AF7D9D6F78D9755 &&
    L.status.word == 0) = true := by decide +kernel

/-- A source word not written since reset is UNINIT (70_reset_and_hazards.md R293), also a coordinate word of
infinity: R68 has every command with a point operand read all 17 words. -/
theorem test_infinity_needs_every_word : ∀ w ∈ [0x0000000000400030, 0x0020000000400031, 0x0000000000400032,
    0x0000000000000033, 0x0000000000800040], isUninit (runWord (Memory.write [] 0x010 1) w) = true := by
  decide +kernel

theorem test_tbld_infinity : laneSat (runWord (putPoint [] 0 0 0 1) 0x0000000000800040) (fun L =>
    (L.om.readList 0x80 96 == some (List.replicate 96 0)) && L.status.word == 0x4) = true := by
  decide +kernel

/-! ### Host actions and STATUS (section 3.7) -/

theorem test_issue_while_halted_is_dropped :
    laneSat (perform (.hostIssue 0 0x0008000000100020) (machine (haltedLane zeros 1 0) [])) (fun L =>
      L.status.word == 0x160 && L.fcmd == 0 && L.om == zeros) = true := by decide +kernel

theorem test_writeStatus_clears_ovr_only :
    laneSat (perform (.hostWriteStatus 0 0x20)
      (machine { haltedLane zeros 1 0 with status := { (haltedLane zeros 1 0).status with ovr := true } } []))
      (fun L => L.status.word == 0x140) = true := by decide +kernel

theorem test_writeStatus_leaves_halted :
    laneSat (perform (.hostWriteStatus 0 0x40) (machine (haltedLane zeros 1 5) [])) (fun L =>
      L.status.word == 0 && L.fcmd == 5) = true := by decide +kernel

theorem test_writeStatus_cannot_set :
    laneSat (perform (.hostWriteStatus 0 0xFFFFFFFF) (machineWith zeros)) (fun L => L.status.word == 0) = true := by
  decide +kernel

theorem test_reset_leaves_words_unwritten :
    laneSat (perform (.hostReset 0) (machine (haltedLane zeros 1 5) [])) (fun L =>
      L.status.word == 0 && L.fcmd == 0 && L.om.read 0 == none) = true := by decide +kernel

theorem test_issue_sets_busy :
    laneSat (perform (.hostIssue 0 0) (machineWith zeros)) (fun L => L.status.word == 0x10) = true := by
  decide +kernel

theorem test_reset_memory_is_canonical : ∀ L ∈ State.reset.lanes, L.om.wf := by decide

/-! ### Witnesses: encoding -/

theorem witness_DecodeOfEncodeIsIdentity : (Instr.ldk 0xFFFF 6).wellFormed = true := by decide

theorem witness_LegalWordsDecodeInjectively : decode? 0x0000000600180008 = some (.ldk 0x18 6) := by
  decide +kernel

/-- The clause on LDK's index, at its boundary. -/
theorem witness_MatchAndMaskDecideLegality :
    ((0x0000000600180008 : Cmd) &&& Opcode.ldk.maskWord = Opcode.ldk.matchWord ∧
      ((0x0000000600180008 : Cmd).extractLsb' 32 16).toNat = 6) ∧
    ((0x0000000700180008 : Cmd) &&& Opcode.ldk.maskWord = Opcode.ldk.matchWord ∧
      ((0x0000000700180008 : Cmd).extractLsb' 32 16).toNat = 7) := by decide +kernel

/-- The OPC values of R94. -/
def codes : List Nat :=
  [0x01, 0x02, 0x03, 0x04, 0x05, 0x06, 0x07, 0x08, 0x10, 0x11, 0x12, 0x20, 0x21, 0x30, 0x31, 0x32, 0x33, 0x40]

/-- OPC of a word. -/
def opcOf (w : Cmd) : Nat := (w.extractLsb' 0 8).toNat

/-! `IllegalExactly`, for the eighteen command statements: for each of its conditions, words of each opcode at
both ends of the field, and a word of each opcode that meets none of them. -/

theorem witness_IllegalExactly_modulusBit : ∀ c ∈ codes,
    opcOf (BitVec.ofNat 64 (c + 2 ^ 8)) = c ∧ mSet (BitVec.ofNat 64 (c + 2 ^ 8)) := by
  unfold mSet; decide +kernel

theorem witness_IllegalExactly_reserved : ∀ c ∈ codes, ∀ b ∈ [2 ^ 9, 2 ^ 15],
    opcOf (BitVec.ofNat 64 (c + b)) = c ∧ rsvSet (BitVec.ofNat 64 (c + b)) := by
  unfold rsvSet; decide +kernel

theorem witness_IllegalExactly_fieldD : ∀ c ∈ codes, ∀ b ∈ [2 ^ 16, 2 ^ 31],
    opcOf (BitVec.ofNat 64 (c + b)) = c ∧ dSet (BitVec.ofNat 64 (c + b)) := by
  unfold dSet; decide +kernel

theorem witness_IllegalExactly_fieldB : ∀ c ∈ codes, ∀ b ∈ [2 ^ 48, 2 ^ 63],
    opcOf (BitVec.ofNat 64 (c + b)) = c ∧ bSet (BitVec.ofNat 64 (c + b)) := by
  unfold bSet; decide +kernel

theorem witness_IllegalExactly_constant : ∀ k ∈ [7, 0xFFFF],
    opcOf (BitVec.ofNat 64 (0x08 + k * 2 ^ 32)) = 0x08 ∧
      7 ≤ ((BitVec.ofNat 64 (0x08 + k * 2 ^ 32)).extractLsb' 32 16).toNat := by decide +kernel

theorem witness_IllegalExactly_none : ∀ c ∈ codes,
    opcOf (BitVec.ofNat 64 c) = c ∧ ¬ mSet (BitVec.ofNat 64 c) ∧ ¬ rsvSet (BitVec.ofNat 64 c) ∧
      ¬ dSet (BitVec.ofNat 64 c) ∧ ¬ bSet (BitVec.ofNat 64 c) := by
  unfold mSet rsvSet dSet bSet; decide +kernel

/-! ### Witnesses: faults and the step -/

/-- Each clause: a word that breaks each condition of R263 in turn. -/
theorem witness_IllegalWordTakesFault_broken :
    opcOf 0x0000000000000009 ∉ codes ∧
    rsvSet 0x0010000800180201 ∧
    (mSet 0x0010000800180101 ∧ opcOf 0x0010000800180101 ∉ [0x10, 0x11, 0x12, 0x20, 0x21]) ∧
    (dSet 0x0010000800180003 ∧ opcOf 0x0010000800180003 ∈ [0x03, 0x04, 0x33]) ∧
    (bSet 0x0010000800000004 ∧
      opcOf 0x0010000800000004 ∉ [0x01, 0x02, 0x03, 0x10, 0x11, 0x20, 0x31]) ∧
    (opcOf 0x0000000700180008 = 0x08 ∧ ¬ ((0x0000000700180008 : Cmd).extractLsb' 32 16).toNat < 7) := by
  unfold mSet rsvSet dSet bSet; decide +kernel

/-- LDK with K = 6 breaks none, and a lane may have any word in flight. -/
theorem witness_IllegalWordTakesFault :
    (opcOf 0x0000000600180008 ∈ codes ∧ ¬ rsvSet 0x0000000600180008 ∧ ¬ mSet 0x0000000600180008 ∧
      ((0x0000000600180008 : Cmd).extractLsb' 32 16).toNat < 7 ∧ ¬ bSet 0x0000000600180008) ∧
    ∀ w : Cmd, (machine (busyLane zeros w false) []).lane 0 = some (busyLane zeros w false) ∧
      (busyLane zeros w false).inFlight = some { cmd := w, disturbed := false } :=
  ⟨by unfold rsvSet mSet bSet; decide +kernel, fun _ => ⟨rfl, rfl⟩⟩

theorem witness_OperandPastEndTakesFault :
    (Instr.mov 0x3F9 0x08).wellFormed = true ∧ (machineWith []).cur = some (laneWith []) ∧
      ¬ Fits (machineWith []).omWords (.mov 0x3F9 0x08) := by
  unfold Fits; decide +kernel

theorem witness_NoOperandValueFaults :
    (Instr.invm .p 0x3F8 0x08).wellFormed = true ∧
      (machineWith (elements 0 0)).cur = some (laneWith (elements 0 0)) ∧
      Fits (machineWith (elements 0 0)).omWords (.invm .p 0x3F8 0x08) ∧
      Written (elements 0 0) (.invm .p 0x3F8 0x08) :=
  ⟨by decide, by decide +kernel, by unfold Fits; decide +kernel, written_of (by decide +kernel)⟩

/-- Each clause: an unwritten element, an unwritten point, an affine point and infinity of which only the flag word
has been written; and an operand that is written. -/
theorem witness_CommandStopsOnlyOnUnwrittenWord :
    ((machineWith []).cur = some (laneWith []) ∧
      Fits (machineWith []).omWords (.mov 0x3F8 0x3F8) ∧ ¬ Written [] (.mov 0x3F8 0x3F8)) ∧
    (Fits (machineWith []).omWords (.pchk 0x3EF) ∧ ¬ Written [] (.pchk 0x3EF)) ∧
    (Fits (machineWith []).omWords (.pchk 0x000) ∧
      ∀ f ∈ [0, 1], ¬ Written (Memory.write [] 0x010 f) (.pchk 0x000)) ∧
    Written infinityAtZero (.pchk 0x000) := by
  refine ⟨⟨by decide, by unfold Fits; decide, fun h => ?_⟩, ⟨by unfold Fits; decide, fun h => ?_⟩,
    ⟨by unfold Fits; decide, fun f hf h => ?_⟩, written_of (by decide +kernel)⟩
  · exact absurd (h (0x3F8, 8) (by decide) 0x3F8 (by decide) (by decide)) (by decide)
  · exact absurd (h (0x3EF, 17) (by decide) 0x3EF (by decide) (by decide)) (by decide)
  · exact absurd (h (0, 17) (by decide) 0 (by decide) (by decide)) Bool.false_ne_true

theorem witness_StepRunsDecodedCommand :
    ((machine (busyLane (elements 5 7) 0x0010000800180001 false) [.laneTurn 0]).agenda = .laneTurn 0 :: [] ∧
      (machine (busyLane (elements 5 7) 0x0010000800180001 false) [.laneTurn 0]).lane 0 =
        some (busyLane (elements 5 7) 0x0010000800180001 false) ∧
      (busyLane (elements 5 7) 0x0010000800180001 false).inFlight =
        some { cmd := 0x0010000800180001, disturbed := false } ∧
      decode 0x0010000800180001 = .ok (.add 0x18 0x08 0x10)) ∧
    ((machine (laneWith []) [.laneTurn 0]).agenda = .laneTurn 0 :: [] ∧
      (machine (laneWith []) [.laneTurn 0]).lane 0 = some (laneWith []) ∧ (laneWith []).inFlight = none) :=
  ⟨⟨rfl, rfl, rfl, rfl⟩, rfl, rfl, rfl⟩

/-! ### Witnesses: the commands -/

/-- What the statements on two element operands assume. -/
abbrev Reads2 (m : Memory) (d a b : Addr) (va vb : Nat) : Prop :=
  (machineWith m).cur = some (laneWith m) ∧ d.toNat + 8 ≤ (machineWith m).omWords ∧
    a.toNat + 8 ≤ (machineWith m).omWords ∧ b.toNat + 8 ≤ (machineWith m).omWords ∧
    readE (laneWith m).om a.toNat = some va ∧ readE (laneWith m).om b.toNat = some vb

/-- What the statements on one element operand assume. -/
abbrev Reads1 (m : Memory) (d a : Addr) (va : Nat) : Prop :=
  (machineWith m).cur = some (laneWith m) ∧ d.toNat + 8 ≤ (machineWith m).omWords ∧
    a.toNat + 8 ≤ (machineWith m).omWords ∧ readE (laneWith m).om a.toNat = some va

/-- What the statements on a point operand and a destination of `n` words assume. -/
abbrev ReadsPoint (m : Memory) (d a : Addr) (n : Nat) (p : Point) : Prop :=
  (machineWith m).cur = some (laneWith m) ∧ d.toNat + n ≤ (machineWith m).omWords ∧
    a.toNat + 17 ≤ (machineWith m).omWords ∧ readPt (laneWith m).om a.toNat = some p

/-- What `RangeFault` assumes. -/
abbrev PastEnd (operands : List (Nat × Nat)) : Prop :=
  (machineWith []).cur = some (laneWith []) ∧ ∃ o ∈ operands, (machineWith []).omWords < o.1 + o.2

/-- `RangeFault`: each operand of three elements in turn is the one past the end, by one word or at the highest
address. -/
theorem witness_RangeFault_elements :
    PastEnd [(0x3F9, 8), (0x08, 8), (0x10, 8)] ∧ PastEnd [(0x18, 8), (0x3F9, 8), (0x10, 8)] ∧
      PastEnd [(0x18, 8), (0x08, 8), (0x3F9, 8)] ∧ PastEnd [(0x18, 8), (0xFFFF, 8)] ∧
      PastEnd [(0x3F9, 8)] := by decide

/-- `RangeFault` of points and tables. -/
theorem witness_RangeFault_points :
    PastEnd [(0x3F0, 17), (0x00, 17), (0x20, 17)] ∧ PastEnd [(0x40, 17), (0x3F0, 17), (0x20, 17)] ∧
      PastEnd [(0x40, 17), (0x00, 17), (0x3F0, 17)] ∧ PastEnd [(0x40, 17), (0xFFFF, 17)] ∧
      PastEnd [(0x3F0, 17)] ∧ PastEnd [(0x3A1, 96), (0x00, 17)] := by decide

theorem witness_AddWritesSumAndCarry :
    Reads2 (elements topValue 1) 0x3F8 0x08 0x10 topValue 1 := by decide +kernel

theorem witness_SubWritesDifferenceAndBorrow :
    Reads2 (elements 0 1) 0x3F8 0x08 0x10 0 1 ∧ Reads2 (elements 7 5) 0x08 0x08 0x10 7 5 := by decide +kernel

theorem witness_CmpOrdersUnsigned :
    Reads2 (elements 0 topValue) 0 0x08 0x10 0 topValue ∧ Reads2 (elements 5 5) 0 0x08 0x08 5 5 := by
  decide +kernel

theorem witness_TstTestsZero : Reads1 (elements 0 1) 0 0x08 0 ∧ Reads1 (elements 0 1) 0 0x10 1 := by
  decide +kernel

theorem witness_ShiftLeftMovesBit255ToCarry :
    Reads1 (elements topValue (2 ^ 255 - 1)) 0x3F8 0x08 topValue ∧
      Reads1 (elements topValue (2 ^ 255 - 1)) 0x3F8 0x10 (2 ^ 255 - 1) := by decide +kernel

theorem witness_ShiftRightMovesBit0ToCarry :
    Reads1 (elements topValue 2) 0x3F8 0x08 topValue ∧ Reads1 (elements topValue 2) 0x3F8 0x10 2 := by
  decide +kernel

/-- Also with an overlap of source and destination. -/
theorem witness_MovCopiesElement :
    Reads1 (elements 5 7) 0x3F8 0x08 5 ∧ Reads1 (elements 5 7) 0x0C 0x08 5 := by decide +kernel

theorem witness_LdkLoadsRomConstant :
    (machineWith []).cur = some (laneWith []) ∧ (0x3F8 : Addr).toNat + 8 ≤ (machineWith []).omWords ∧
      (6 : Addr).toNat < 7 ∧ rom (6 : Addr).toNat = some 7 ∧ rom (0 : Addr).toNat = some 0 := by decide

/-- Both clauses, on a carry, at the modulus, and below it. -/
theorem witness_AddmCorrectsOnce :
    (Reads2 (elements topValue 1) 0x3F8 0x08 0x10 topValue 1 ∧ (topValue + 1) / 2 ^ 256 = 1) ∧
    (Reads2 (elements (primeP - 1) 1) 0x3F8 0x08 0x10 (primeP - 1) 1 ∧
      modulusOf .p ≤ (primeP - 1 + 1) % 2 ^ 256) ∧
    (Reads2 (elements (orderN - 2) 1) 0x3F8 0x08 0x10 (orderN - 2) 1 ∧
      ¬ ((orderN - 2 + 1) / 2 ^ 256 = 1 ∨ modulusOf .n ≤ (orderN - 2 + 1) % 2 ^ 256)) := by decide +kernel

theorem witness_SubmCorrectsOnce :
    (Reads2 (elements 0 1) 0x3F8 0x08 0x10 0 1 ∧ 0 < 1) ∧ Reads2 (elements 5 5) 0x3F8 0x08 0x10 5 5 := by
  decide +kernel

theorem witness_NegmNegates :
    Reads1 (elements 1 0) 0x3F8 0x08 1 ∧ Reads1 (elements 1 0) 0x3F8 0x10 0 := by decide +kernel

theorem witness_AdderUnitLaws :
    (topValue < W ∧ 0 < W) ∧ primeP - 1 < modulusOf .p ∧ orderN - 1 < modulusOf .n := by decide

theorem witness_MulmWritesResidue :
    Reads2 (elements topValue topValue) 0x3F8 0x08 0x10 topValue topValue := by decide +kernel

theorem witness_InvmWritesInverse :
    Reads1 (elements primeP 2) 0x3F8 0x08 primeP ∧ Reads1 (elements primeP 2) 0x3F8 0x10 2 := by
  decide +kernel

theorem witness_InverseIsTheUniqueInverse :
    2 % modulusOf .p ≠ 0 ∧ primeP % modulusOf .p = 0 ∧ (orderN - 1) % modulusOf .n ≠ 0 ∧ 0 % modulusOf .n = 0 := by
  decide

theorem witness_MultiplierUnitLaws : (primeP + 1) % modulusOf .p ≠ 0 ∧ 1 % modulusOf .n ≠ 0 := by decide

theorem witness_DoublingFollowsFormula :
    (baseX < primeP ∧ baseY < primeP ∧ baseY ≠ 0) ∧ 0 < primeP ∧ primeP - 1 < primeP ∧ 1 ≠ 0 := by decide

/-- Each clause: equal points, equal x only, different x; at the ends of the range. -/
theorem witness_AdditionFollowsFormula :
    (0 < primeP ∧ primeP - 1 < primeP) ∧ (baseX = baseX ∧ baseY = baseY) ∧
      (baseX = baseX ∧ baseY ≠ primeP - baseY) ∧ 0 ≠ primeP - 1 := by decide

theorem witness_PdblWritesDouble :
    ReadsPoint (points baseX baseY 0 0) 0x3EF 0x000 17 baseG ∧
      ReadsPoint infinityAtZero 0x3EF 0x000 17 .inf := by decide +kernel

theorem witness_PaddWritesSum :
    ReadsPoint (points baseX baseY 5 0) 0x3EF 0x000 17 baseG ∧
      ReadsPoint (points baseX baseY 5 0) 0x3EF 0x020 17 (.aff 5 0) := by decide +kernel

theorem witness_PnegWritesNegation :
    ReadsPoint (points baseX primeP 0 0) 0x3EF 0x000 17 (.aff baseX primeP) ∧
      ReadsPoint infinityAtZero 0x3EF 0x000 17 .inf := by decide +kernel

theorem witness_PchkChecksCurve :
    ReadsPoint (points (1 + primeP) rootOfEight 0 0) 0 0x000 17 (.aff (1 + primeP) rootOfEight) ∧
      ReadsPoint infinityAtZero 0 0x000 17 .inf := by decide +kernel

theorem reduced_baseG : Reduced baseG := ⟨by decide, by decide⟩

theorem onCurve_baseG : OnCurveOrInf baseG := ⟨by decide, by decide, by decide +kernel⟩

theorem witness_PointUnitLaws : Reduced baseG ∧ Reduced (.aff 0 (primeP - 1)) ∧ Reduced .inf :=
  ⟨reduced_baseG, ⟨by decide, by decide⟩, trivial⟩

theorem witness_PointUnitStaysOnCurve :
    OnCurveOrInf baseG ∧ OnCurveOrInf (.aff 1 rootOfEight) ∧ OnCurveOrInf .inf :=
  ⟨onCurve_baseG, ⟨by decide, by decide, by decide +kernel⟩, trivial⟩

/-- The equations of the chain hold of the four points they define. -/
theorem witness_TbldWritesOddMultiples :
    (ReadsPoint (points baseX baseY 0 0) 0x3A0 0x000 96 baseG ∧
      ReadsPoint infinityAtZero 0x3A0 0x000 96 .inf) ∧
    ∀ p : Point, ∃ b1 b2 b3 b5 b7 z3 z5 z7, b1 = p.reduce ∧ b2 = dbl b1 ∧ (b3, z3) = addp b2 b1 ∧
      (b5, z5) = addp b3 b2 ∧ (b7, z7) = addp b5 b2 :=
  ⟨by decide +kernel, fun _ => ⟨_, _, _, _, _, _, _, _, rfl, rfl, rfl, rfl, rfl⟩⟩

theorem witness_TableEntriesStayOnCurve : OnCurveOrInf baseG ∧ OnCurveOrInf .inf := ⟨onCurve_baseG, trivial⟩

/-- The base point is a point of Mathlib's curve. -/
theorem baseG_represents [Fact (Nat.Prime primeP)] :
    ∃ G, Represents baseG G := by
  have hy : ((2 * baseY : Nat) : ZMod primeP) ≠ 0 := fun h =>
    two_mul_mod_ne_zero (y := baseY) (by decide) (by decide)
      (Nat.mod_eq_zero_of_dvd ((ZMod.natCast_eq_zero_iff _ _).1 h))
  have hc : (baseY : ZMod primeP) * baseY = baseX * baseX * baseX + 7 :=
    curve_iff_cast.1 (by decide +kernel)
  refine ⟨.some baseX baseY ?_, by decide, by decide, rfl, rfl⟩
  rw [WeierstrassCurve.Affine.nonsingular_iff', WeierstrassCurve.Affine.equation_iff]
  simp only [secp256k1]
  refine ⟨by linear_combination hc, .inr fun h => hy ?_⟩
  push_cast
  linear_combination h

/-- The base point and infinity, for each clause. -/
theorem witness_PointUnitIsTheGroupLaw : ∃ _ : Fact (Nat.Prime primeP),
    OnCurveOrInf baseG ∧ (∃ G, Represents baseG G) ∧ Represents .inf (0 : secp256k1.Point) :=
  ⟨⟨prime_primeP⟩, onCurve_baseG, @baseG_represents ⟨prime_primeP⟩, trivial⟩

/-- The base point itself is the multiple with k = 1. -/
theorem witness_BasePointHasPrimeOrder : ∃ (_ : Fact (Nat.Prime primeP)) (G : secp256k1.Point),
    Represents (.aff baseX baseY) G ∧ Represents baseG (1 • G) ∧ baseG ≠ .inf := by
  have hp : Fact (Nat.Prime primeP) := ⟨prime_primeP⟩
  obtain ⟨G, h⟩ := baseG_represents
  exact ⟨hp, G, h, by rw [one_nsmul]; exact h, Point.noConfusion⟩

/-! ### Witnesses: memory -/

theorem witness_ElementIsLittleEndianLimbs :
    (0 < 8 ∧ 7 < 8) ∧ ∀ i : Fin 8, (elements topValue 0).read (0x08 + i) = some 0xFFFFFFFF := by decide +kernel

/-- Flag words 1 and 3 say infinity, 0 and 0xFFFFFFFE do not. -/
theorem witness_PointFlagIsBitZero :
    (infinityAtZero.read (0 + 16) = some 1 ∧ (1 : Word).getLsbD 0 = true ∧ (3 : Word).getLsbD 0 = true ∧
      readE infinityAtZero 0 = some 0 ∧ readE infinityAtZero (0 + 8) = some 0) ∧
    (∀ x ∈ [0, 15], (Memory.write [] 16 1).read x = none) ∧ (Memory.read [] 16 = none) ∧
    ((points baseX baseY 0 0).read (0 + 16) = some 0 ∧ (0 : Word).getLsbD 0 = false ∧
      (0xFFFFFFFE : Word).getLsbD 0 = false ∧ readE (points baseX baseY 0 0) 0 = some baseX ∧
      readE (points baseX baseY 0 0) (0 + 8) = some baseY) ∧ topValue < W := by decide +kernel

theorem witness_RomHoldsCurveConstants : 7 ≤ 7 := by decide

/-! ### Witnesses: the host's moves -/

/-- Each clause: the last word of OM written and not written, and the first address past it. -/
theorem witness_HostAccessesOneWord :
    ((machineWith zeros).lane 0 = some (laneWith zeros) ∧ (laneWith zeros).status.busy = false ∧
      (laneWith zeros).inFlight = none) ∧
    ((0x01F : Addr).toNat < (machineWith zeros).omWords ∧ (laneWith zeros).om.read 0x01F = some 0) ∧
    ((0x3FF : Addr).toNat < (machineWith zeros).omWords ∧ (laneWith zeros).om.read 0x3FF = none) ∧
    (machineWith zeros).omWords ≤ (0x400 : Addr).toNat := by decide +kernel

/-- Each clause: busy, halted, neither; and the command in flight, illegal and legal. -/
theorem witness_HostIssueAcceptsOrDrops :
    ((machine (busyLane zeros 0 false) []).lane 0 = some (busyLane zeros 0 false) ∧
      (busyLane zeros 0 false).status.busy = true ∧
      (busyLane zeros 0 false).inFlight = some { cmd := 0, disturbed := false } ∧
      decode 0 = .error .unassignedOpcode) ∧
    (haltedLane zeros 1 0).status.flt = true ∧
    ((laneWith zeros).status.busy = false ∧ (laneWith zeros).status.flt = false) ∧
    ((machine (busyLane zeros 8 false) []).lane 0 = some (busyLane zeros 8 false) ∧
      (busyLane zeros 8 false).inFlight = some { cmd := 8, disturbed := false } ∧
      decode 8 = .ok (.ldk 0 0)) ∧
    ∃ t L', perform (.laneTurn 0) (machine (busyLane zeros 8 false) []) = .next t ∧ t.lane 0 = some L' ∧
      L'.status.busy = false :=
  ⟨⟨rfl, rfl, rfl, rfl⟩, rfl, ⟨rfl, rfl⟩, ⟨rfl, rfl, rfl⟩, next_lane (by decide +kernel)⟩

/-- The lane that the statements on HostReadStatus, HostWriteStatus, HostReset and HostReadFCMD take, halted; and
the bits of the value written, set and clear. -/
theorem witness_HostReadsStatusWord :
    (machine (haltedLane zeros 2 5) []).lane 0 = some (haltedLane zeros 2 5) := rfl

theorem witness_HostWriteStatusClearsByOnes :
    (machine (haltedLane zeros 2 5) []).lane 0 = some (haltedLane zeros 2 5) ∧
      (0x68 : Word).getLsbD 3 = true ∧ (0x68 : Word).getLsbD 5 = true ∧ (0x68 : Word).getLsbD 6 = true ∧
      (0 : Word).getLsbD 6 = false := by decide +kernel

theorem witness_HostResetClearsLane :
    (machine (busyLane zeros 8 false) []).lane 0 = some (busyLane zeros 8 false) := rfl

theorem inv_of_lane {L : Lane} (moves : List Move) (h : Lane.Inv 1024 L) : (machine L moves).Inv :=
  { sizes := show Config.LegalSizes 1 1024 by decide
    active_lt := Nat.zero_lt_one
    lanes_inv := fun _ hL => by rw [List.mem_singleton.1 hL]; exact h }

theorem zeros_wf : zeros.wf ∧ ∀ c ∈ zeros, c.1 < 1024 := by decide +kernel

theorem inv_idle : Lane.Inv 1024 (laneWith zeros) := by
  constructor <;> first | exact zeros_wf.1 | exact zeros_wf.2 | decide

theorem inv_halted : Lane.Inv 1024 (haltedLane zeros 2 5) := by
  constructor <;> first | exact zeros_wf.1 | exact zeros_wf.2 | decide

theorem inv_busy (c : Cmd) : Lane.Inv 1024 (busyLane zeros c false) := by
  constructor <;> first | exact zeros_wf.1 | exact zeros_wf.2 | simp [busyLane, Status.reset]

theorem witness_HaltedLaneWaitsForHost :
    (machine (haltedLane zeros 2 5) []).Inv ∧
      (machine (haltedLane zeros 2 5) []).lane 0 = some (haltedLane zeros 2 5) ∧
      (haltedLane zeros 2 5).status.flt = true ∧ (0x40 : Word).getLsbD 6 = true :=
  ⟨inv_of_lane [] inv_halted, rfl, rfl, rfl⟩

/-- A busy lane, a written word, one never written and an address past OM_WORDS; MOV 0x3F9, 0x000, touched and
out of range; and MOV 0x008, 0x000, touched. -/
theorem witness_TouchedCommandLeavesUnspecified :
    ((machine (busyLane zeros 7 false) []).lane 0 = some (busyLane zeros 7 false) ∧
      (busyLane zeros 7 false).status.busy = true ∧
      (busyLane zeros 7 false).inFlight = some { cmd := 7, disturbed := false } ∧
      (0x01F : Addr).toNat < (machine (busyLane zeros 7 false) []).omWords ∧
      ((busyLane zeros 7 false).om.read 0x01F).isSome = true ∧
      (0x3FF : Addr).toNat < (machine (busyLane zeros 7 false) []).omWords ∧
      (busyLane zeros 7 false).om.read 0x3FF = none ∧
      (machine (busyLane zeros 7 false) []).omWords ≤ (0x400 : Addr).toNat) ∧
    ((machine (busyLane zeros 0x03F90007 true) []).lane 0 = some (busyLane zeros 0x03F90007 true) ∧
      (busyLane zeros 0x03F90007 true).inFlight = some { cmd := 0x03F90007, disturbed := true } ∧
      decode 0x03F90007 = .ok (.mov 0x3F9 0x00) ∧
      ¬ Fits (machine (busyLane zeros 0x03F90007 true) []).omWords (.mov 0x3F9 0x00)) ∧
    ((machine (busyLane zeros 0x00080007 true) []).lane 0 = some (busyLane zeros 0x00080007 true) ∧
      (busyLane zeros 0x00080007 true).inFlight = some { cmd := 0x00080007, disturbed := true } ∧
      decode 0x00080007 = .ok (.mov 0x08 0x00) ∧
      Fits (machine (busyLane zeros 0x00080007 true) []).omWords (.mov 0x08 0x00) ∧
      Written zeros (.mov 0x08 0x00)) :=
  ⟨⟨rfl, rfl, rfl, by decide, by decide +kernel, by decide, by decide +kernel, by decide⟩,
    ⟨rfl, rfl, rfl, by unfold Fits; decide⟩, rfl, rfl, rfl, by unfold Fits; decide,
    written_of (by decide +kernel)⟩

/-! ### Witnesses: whole-machine rules -/

/-- An illegal word in flight whose turn comes next. -/
def faultNext : State := machine (busyLane zeros 9 false) [.laneTurn 0]

/-- A halted lane with FCMD = 5 and OVR = 1 whose host makes this move next. -/
def haltedNext (m : Move) : State :=
  machine { haltedLane zeros 2 5 with status := { (haltedLane zeros 2 5).status with ovr := true, dz := true } } [m]

/-- FCMD changed by a fault, and by a reset; FLT set by a fault. -/
theorem witness_FcmdWrittenOnlyByFaultOrReset :
    (∃ t L', step faultNext = .next t ∧ t.lane 0 = some L' ∧
      L'.fcmd ≠ (busyLane zeros 9 false).fcmd ∧ L'.status.flt = true) ∧
    (faultNext.lane 0 = some (busyLane zeros 9 false) ∧
      (busyLane zeros 9 false).inFlight = some { cmd := 9, disturbed := false } ∧
      (busyLane zeros 9 false).status.flt = false) ∧
    ∃ t L', step (haltedNext (.hostReset 0)) = .next t ∧ t.lane 0 = some L' ∧ L'.fcmd ≠ 5 :=
  ⟨next_lane (by decide +kernel), ⟨rfl, rfl, rfl⟩, next_lane (by decide +kernel)⟩

/-- A command dropped by a busy and by a halted lane; OVR cleared by a write and by a reset. -/
theorem witness_OvrRecordsDroppedCommands :
    (∃ t L', step (machine (busyLane zeros 8 false) [.hostIssue 0 9]) = .next t ∧ t.lane 0 = some L' ∧
      L'.status.ovr = true ∧ (busyLane zeros 8 false).status.busy = true ∧
      (busyLane zeros 8 false).status.ovr = false) ∧
    (∃ t L', step (machine (haltedLane zeros 2 5) [.hostIssue 0 9]) = .next t ∧ t.lane 0 = some L' ∧
      L'.status.ovr = true ∧ (haltedLane zeros 2 5).status.flt = true ∧
      (haltedLane zeros 2 5).status.ovr = false) ∧
    (∃ t L', step (haltedNext (.hostWriteStatus 0 0x20)) = .next t ∧ t.lane 0 = some L' ∧
      L'.status.ovr = false) ∧
    ∃ t L', step (haltedNext (.hostReset 0)) = .next t ∧ t.lane 0 = some L' ∧ L'.status.ovr = false :=
  ⟨next_lane (by decide +kernel), next_lane (by decide +kernel), next_lane (by decide +kernel),
    next_lane (by decide +kernel)⟩

/-- FLT and FCAUSE set by a fault, cleared by a write and by a reset. -/
theorem witness_FltAndFcauseWrittenTogether :
    faultNext.Inv ∧
    (∃ t L', step faultNext = .next t ∧ t.lane 0 = some L' ∧ L'.status.flt = true ∧
      L'.status.fcause ≠ (busyLane zeros 9 false).status.fcause) ∧
    (machine (haltedLane zeros 2 5) [.hostWriteStatus 0 0x40]).Inv ∧
    (∃ t L', step (machine (haltedLane zeros 2 5) [.hostWriteStatus 0 0x40]) = .next t ∧ t.lane 0 = some L' ∧
      L'.status.flt = false ∧ L'.status.flt ≠ (haltedLane zeros 2 5).status.flt) ∧
    (machine (haltedLane zeros 2 5) [.hostReset 0]).Inv ∧
    ∃ t L', step (machine (haltedLane zeros 2 5) [.hostReset 0]) = .next t ∧ t.lane 0 = some L' ∧
      L'.status.flt = false :=
  ⟨inv_of_lane _ (inv_busy 9), next_lane (by decide +kernel), inv_of_lane _ inv_halted,
    next_lane (by decide +kernel), inv_of_lane _ inv_halted, next_lane (by decide +kernel)⟩

/-- DZ cleared by a write and by a reset; Z changed by a completed command (TST 0x000 of zeros). -/
theorem witness_FlagsChangeOnlyOnCompletion :
    (∃ t L', step (haltedNext (.hostWriteStatus 0 0x08)) = .next t ∧ t.lane 0 = some L' ∧
      L'.status.dz = false) ∧
    (∃ t L', step (haltedNext (.hostReset 0)) = .next t ∧ t.lane 0 = some L' ∧ L'.status.dz = false) ∧
    ∃ t L', step (machine (busyLane zeros 4 false) [.laneTurn 0]) = .next t ∧ t.lane 0 = some L' ∧
      L'.status.z ≠ (busyLane zeros 4 false).status.z :=
  ⟨next_lane (by decide +kernel), next_lane (by decide +kernel), next_lane (by decide +kernel)⟩

/-- With a move to come and with none. -/
theorem witness_StepChangesOneLane :
    (∃ t L', step faultNext = .next t ∧ t.lane 0 = some L' ∧ faultNext.nextMove = some (.laneTurn 0)) ∧
    ∃ t L', step (machine (busyLane zeros 4 false) []) = .next t ∧ t.lane 0 = some L' ∧
      (machine (busyLane zeros 4 false) []).nextMove = none :=
  ⟨next_lane (by decide +kernel), next_lane (by decide +kernel)⟩

/-- A machine of two lanes: lane 0 as given, lane 1 halted. -/
def twoLanes (L : Lane) : State := { machine L [] with lanes := [L, haltedLane [] 1 0] }

/-- Each clause: a next state, a fault and a refusal. -/
theorem witness_LaneDependsOnlyOnItself :
    (∀ L ∈ [busyLane zeros 4 false, busyLane [] 4 false],
      (machine L []).omWords = (twoLanes L).omWords ∧ (machine L []).fresh = (twoLanes L).fresh ∧
      (machine L []).reply = (twoLanes L).reply ∧
      (machine L []).lane (Move.laneTurn 0).lane = (twoLanes L).lane (Move.laneTurn 0).lane) ∧
    (∃ t L', perform (.laneTurn 0) (machine (busyLane zeros 4 false) []) = .next t ∧ t.lane 0 = some L' ∧
      L'.status.busy = false) ∧
    perform (.laneTurn 0) (machine (busyLane [] 4 false) []) = .fault .uninit ∧
    ((machine (laneWith []) []).lane (Move.hostReset 2).lane = (twoLanes (laneWith [])).lane 2 ∧
      perform (.hostReset 2) (machine (laneWith []) []) = .refused .noSuchLane) :=
  ⟨by decide +kernel, next_lane (by decide +kernel), rfl, rfl, rfl⟩

theorem witness_PowerOnIsIdleAndGood :
    (Config.LegalSizes 1 256 ∧ Config.LegalSizes 7 65536) ∧
      (State.powerOn 7 256).lane 6 = some Lane.reset := by decide

theorem witness_EveryStepKeepsInvariant :
    faultNext.Inv ∧ ∃ t L', step faultNext = .next t ∧ t.lane 0 = some L' ∧ L'.status.flt = true :=
  ⟨inv_of_lane _ (inv_busy 9), next_lane (by decide +kernel)⟩

/-- TST 0x000 in flight, undisturbed, with its source written. -/
theorem ready_tst (moves : List Move) : (machine (busyLane zeros 4 false) moves).Ready := by
  intro L hL f hf
  rw [List.mem_singleton.1 hL] at hf ⊢
  cases hf
  exact ⟨rfl, show commandReady 1024 zeros 4 = true by decide +kernel⟩

theorem ready_idle (moves : List Move) : (machine (laneWith zeros) moves).Ready := by
  intro L hL f hf
  rw [List.mem_singleton.1 hL] at hf
  cases hf

theorem witness_QuietMachineComesToRest :
    (machine (busyLane zeros 4 false) []).Inv ∧ (machine (busyLane zeros 4 false) []).Ready ∧
      (machine (busyLane zeros 4 false) []).agenda = [] :=
  ⟨inv_of_lane _ (inv_busy 4), ready_tst [], rfl⟩

/-- A lane with no command in flight is careful. -/
theorem careful_idle (trusted : Point → Bool) (m : Memory) (moves : List Move) :
    (machine (laneWith m) moves).Careful trusted := by
  intro L hL f hf
  rw [List.mem_singleton.1 hL] at hf
  cases hf

/-- (1, 1) and (1, 2), whose PADD is degenerate. -/
def degeneratePair : Memory := points 1 1 1 2

/-- The first clause: each kind of move, dutiful on an idle lane; a turn on a busy one; and a silent host. The
second, with G trusted: the inverse of G's x and the table of G, issued; of an untrusting host, the table of G;
and a PADD in flight that sets DZ. -/
theorem witness_DutifulHostNeverStops :
    (∀ m ∈ [Move.hostWriteOM 0 0x3FF 5, .hostReadOM 0 0x01F, .hostIssue 0 4, .hostReadStatus 0,
        .hostWriteStatus 0 0x68, .hostReadFCMD 0, .hostReset 0, .laneTurn 0],
      (machine (laneWith zeros) [m]).Inv ∧ (machine (laneWith zeros) [m]).Ready ∧
      ∀ m', (machine (laneWith zeros) [m]).nextMove = some m' →
        m'.dutiful (machine (laneWith zeros) [m]) = true) ∧
    ((machine (busyLane zeros 4 false) [.laneTurn 0]).Inv ∧ (machine (busyLane zeros 4 false) [.laneTurn 0]).Ready ∧
      (Move.laneTurn 0).dutiful (machine (busyLane zeros 4 false) [.laneTurn 0]) = true) ∧
    (machine (busyLane zeros 4 false) []).nextMove = none ∧
    (∀ p, decide (p = baseG) = true → OnCurveOrInf p.reduce) ∧
    (∀ m ∈ [Move.hostIssue 0 0x0000000000400021, .hostIssue 0 0x0000000000800040],
      (machine (laneWith (points baseX baseY 1 1)) [m]).Careful (fun p => decide (p = baseG)) ∧
      m.keepsDuties (fun p => decide (p = baseG)) (machine (laneWith (points baseX baseY 1 1)) [m]) = true) ∧
    (Move.hostIssue 0 0x0000000000800040).keepsDuties (fun _ => false)
      (machine (laneWith (points baseX baseY 1 1)) []) = true ∧
    (machine (busyLane degeneratePair 0x0020000000400031 false) []).Inv ∧
    (machine (busyLane degeneratePair 0x0020000000400031 false) []).Ready ∧
    (machine (busyLane degeneratePair 0x0020000000400031 false) []).Careful (fun _ => false) ∧
    ∃ t L', step (machine (busyLane degeneratePair 0x0020000000400031 false) []) = .next t ∧ t.lane 0 = some L' ∧
      L'.status.dz = true := by
  refine ⟨fun m hm => ⟨inv_of_lane _ inv_idle, ready_idle _, fun m' h' => ?_⟩,
    ⟨inv_of_lane _ (inv_busy 4), ready_tst _, rfl⟩, rfl, fun p hp => ?_,
    fun m hm => ⟨careful_idle _ _ _, ?_⟩, by decide +kernel, inv_of_lane _ ?_, fun L hL f hf => ?_,
    fun L hL f hf => ?_, next_lane (by decide +kernel)⟩
  · cases h'
    revert m
    decide +kernel
  · rw [of_decide_eq_true hp]
    exact ⟨by decide, by decide, by decide +kernel⟩
  · revert m
    decide +kernel
  · constructor <;> decide +kernel
  · rw [List.mem_singleton.1 hL] at hf ⊢
    cases hf
    exact ⟨rfl, show commandReady 1024 degeneratePair 0x0020000000400031 = true by decide +kernel⟩
  · rw [List.mem_singleton.1 hL] at hf ⊢
    cases hf
    exact show commandCareful _ 1024 degeneratePair 0x0020000000400031 = true by decide +kernel

/-- The first clause: two inverses, of which the second is of 0 and sets DZ, and the first alone, which does not.
The second: a base on the curve, one off it, and infinity. -/
theorem witness_HostChecksFindZeroAndOffCurve :
    (∀ x ∈ [([0x0000000800180021, 0x0000001000180021], true), (([0x0000000800180021] : List Cmd), false)],
      ∃ t L', checkedSequence 0 x.1 (machineWith (elements 1 0)) = .next t ∧ t.lane 0 = some L' ∧
        L'.status.dz = x.2) ∧
    ((machineWith (elements 1 0)).lane 0 = some (laneWith (elements 1 0)) ∧
      (laneWith (elements 1 0)).status.busy = false ∧ (laneWith (elements 1 0)).status.flt = false ∧
      (laneWith (elements 1 0)).inFlight = none) ∧
    (∀ m, (machineWith m).lane 0 = some (laneWith m) ∧ (laneWith m).status.busy = false ∧
      (laneWith m).status.flt = false ∧ (laneWith m).inFlight = none ∧
      (0x3A0 : Addr).toNat + 96 ≤ (machineWith m).omWords ∧ (0x000 : Addr).toNat + 17 ≤ (machineWith m).omWords) ∧
    (readPt (points baseX baseY 1 1) 0 = some baseG ∧ OnCurveOrInf baseG ∧ baseG ≠ .inf) ∧
    (readPt (points 1 1 1 1) 0 = some (.aff 1 1) ∧ ¬ OnCurveOrInf (.aff 1 1)) ∧
    readPt (putPoint [] 0x000 0 0 1) 0 = some .inf :=
  ⟨fun x hx => next_lane (by revert x; decide +kernel), by decide +kernel,
    fun _ => ⟨rfl, rfl, rfl, rfl, show 928 + 96 ≤ 1024 by decide, show 0 + 17 ≤ 1024 by decide⟩,
    ⟨by decide +kernel, ⟨by decide, by decide, by decide +kernel⟩, by decide⟩,
    ⟨by decide +kernel, fun h => absurd h.2.2 (by decide +kernel)⟩, by decide +kernel⟩

/-- Program P1's first command and one that faults, each with a word written first. -/
theorem witness_PollingHostNeverLosesCommand :
    (∃ t L', runProgram 0 { writes := [(0x010, 0)], commands := [0x0000000400000008] } State.reset = .next t ∧
      t.lane 0 = some L' ∧ L'.status.flt = false) ∧
    ∃ t L', runProgram 0 { writes := [], commands := [0x0000000000000000, 0x0000000400000008] } State.reset =
        .next t ∧
      t.lane 0 = some L' ∧ L'.status.flt = true :=
  ⟨next_lane (by decide +kernel), next_lane (by decide +kernel)⟩

end Sys2Proof.Tests
end

section
/-! Facts the whole-machine rules share: a decoded word is the word of its command (30_encoding.md R91,
R95), a completed turn either faults with that word or retires, and what one step can do to the fault
registers and OVR of one lane. After them, the rules on FCMD, OVR, and FLT with FCAUSE (10_state.md R38, R39,
R41). -/

namespace Sys2Proof

/-! ### The word of a decoded command -/

/-- A command built from fields has these fields, where those its opcode does not use are 0. -/
theorem Opcode.fields_build (op : Opcode) {m : Modulus} {d a b : Addr}
    (hm : m.bit = true → op.takesM = true) (hd : op.kindD = .unused → d = 0)
    (hb : op.kindB = .unused → b = 0) :
    (op.build m d a b).modulus.bit = m.bit ∧ (op.build m d a b).d = d ∧ (op.build m d a b).a = a ∧
      (op.build m d a b).b = b := by
  cases op <;> simp_all [Opcode.build, Instr.modulus, Instr.d, Instr.a, Instr.b, Opcode.takesM,
    Opcode.kindD, Opcode.kindB, Modulus.bit]

@[simp] theorem Modulus.bit_ofBit (b : Bool) : (Modulus.ofBit b).bit = b := by cases b <;> rfl

theorem encode_of_decode {w : Cmd} {i : Instr} (h : decode w = .ok i) : encode i = w := by
  obtain ⟨op, hop, hrsv, hm, hd, -, hb, -, rfl⟩ := (decode_eq_ok_iff w i).1 h
  obtain ⟨hM, hD, hA, hB⟩ := op.fields_build (m := .ofBit (mField w)) (a := aField w) (by simpa using hm)
    ((Kind.clear_iff _ _).1 hd) ((Kind.clear_iff _ _).1 hb)
  have hw := cmd_of_fields w
  rw [hrsv] at hw
  rw [encode, hM, hD, hA, hB, Opcode.opcode_build, Opcode.code_of_ofCode hop, Modulus.bit_ofBit]
  simpa using hw

theorem wellFormed_of_decode {w : Cmd} {i : Instr} (h : decode w = .ok i) : i.wellFormed = true := by
  obtain ⟨op, -, -, -, -, -, -, hk, rfl⟩ := (decode_eq_ok_iff w i).1 h
  cases op with
  | ldk => simpa [Opcode.build, Instr.wellFormed] using hk rfl
  | _ => rfl

end Sys2Proof

namespace Sys2Proof.Machine

/-! ### A turn: the fault entry or completion -/

/-- A decoded command either fails the range check, and its own word goes to FCMD, or retires. -/
theorem Ran.of_decode {omWords : Nat} {w : Cmd} {i : Instr} {L L' : Lane} (hd : decode w = .ok i)
    (h : Ran omWords i L L') :
    (inRange omWords i = false ∧ L' = L.faultEntry .addressRange w) ∨
    (inRange omWords i = true ∧ ∃ r, L' = L.retire r ∧
      (r.words = [] ∨ destOperand i = [(r.dest, r.words.length)]) ∧ r.setDz = setsDz L.om i) := by
  cases h with
  | illegal hi => rw [wellFormed_of_decode hd] at hi; cases hi
  | range _ hin => exact .inl ⟨hin, by rw [encode_of_decode hd]⟩
  | retired _ hin r hw hdz => exact .inr ⟨hin, r, rfl, hw, hdz⟩

/-- The fault registers and OVR are the same on both lanes. -/
structure SameFaultRegs (L L' : Lane) : Prop where
  fcmd : L'.fcmd = L.fcmd
  flt : L'.status.flt = L.status.flt
  fcause : L'.status.fcause = L.status.fcause
  ovr : L'.status.ovr = L.status.ovr

/-- A turn of a lane is the fault entry with the word in flight, or keeps the fault registers and OVR. -/
theorem LaneMove.turn {omWords fresh l : Nat} {L L' : Lane}
    (h : LaneMove omWords fresh (.laneTurn l) L L') :
    (∃ f c, L.inFlight = some f ∧ L' = L.faultEntry c f.cmd) ∨ SameFaultRegs L L' := by
  cases h with
  | idleTurn => exact .inr ⟨rfl, rfl, rfl, rfl⟩
  | illegal _ _ f hf => exact .inl ⟨f, _, hf, rfl⟩
  | ran _ _ f hf i hd _ hr =>
    obtain ⟨-, rfl⟩ | ⟨-, r, rfl, -, -⟩ := hr.of_decode hd
    · exact .inl ⟨f, _, hf, rfl⟩
    · exact .inr ⟨rfl, rfl, rfl, rfl⟩
  | ranDisturbed _ _ f hf i hd _ hr _ hin =>
    obtain ⟨hout, -⟩ | ⟨-, r, rfl, -, -⟩ := hr.of_decode hd
    · rw [hin] at hout; cases hout
    · exact .inr ⟨rfl, rfl, rfl, rfl⟩

/-! ### One step, seen from one lane -/

/-- A step makes the move `m`: the next of the agenda, or, where the host is silent, some lane's turn. -/
def State.Makes (s : State) (m : Move) : Prop :=
  s.nextMove = some m ∨ (s.nextMove = none ∧ ∃ k, m = .laneTurn k)

/-- Of a move that the host's agenda holds next, a step makes no other. -/
theorem State.Makes.eq_nextMove {s : State} {m m' : Move} (h : s.Makes m) (h' : s.nextMove = some m') :
    m' = m := by
  obtain h | ⟨h, -⟩ := h <;> simpa [h] using h'.symm

/-- Host actions are made only off the agenda. -/
theorem State.Makes.nextMove_eq {s : State} {m : Move} (h : s.Makes m) (hm : ∀ k, m ≠ .laneTurn k) :
    s.nextMove = some m := by
  obtain h | ⟨-, k, rfl⟩ := h
  · exact h
  · exact absurd rfl (hm k)

/-- A move changes the lane it is about as `LaneMove` says and no other. -/
theorem perform_lane {m : Move} {s t : State} {l : Nat} {L L' : Lane} (h : perform m s = .next t)
    (hL : s.lane l = some L) (hL' : t.lane l = some L') :
    (m.lane = l ∧ LaneMove s.omWords s.fresh m L L') ∨ (m.lane ≠ l ∧ L' = L) := by
  obtain ⟨K, K', hK, hmove, hlanes, -⟩ := perform_next h
  rw [State.lane, hlanes] at hL'
  by_cases hl : m.lane = l
  · subst hl
    obtain rfl : K = L := Option.some.inj (hK.symm.trans hL)
    rw [List.getElem?_set_self (State.lane_lt hL)] at hL'
    cases hL'
    exact .inl ⟨rfl, hmove⟩
  · rw [List.getElem?_set_ne hl] at hL'
    exact .inr ⟨hl, Option.some.inj (hL'.symm.trans hL)⟩

/-- Every step makes one move, which changes one lane at most. -/
theorem step_lane {s t : State} {l : Nat} {L L' : Lane} (h : step s = .next t) (hL : s.lane l = some L)
    (hL' : t.lane l = some L') :
    ∃ m, s.Makes m ∧
      ((m.lane = l ∧ LaneMove s.omWords s.fresh m L L') ∨ (m.lane ≠ l ∧ L' = L)) := by
  obtain ⟨m, rest, ha, hp⟩ | ⟨ha, k, -, hp⟩ | ⟨ha, hidle, rfl⟩ := step_next h
  · exact ⟨m, .inl (by simp [State.nextMove, ha]), perform_lane (s := { s with agenda := rest }) hp hL hL'⟩
  · exact ⟨.laneTurn k, .inr ⟨by simp [State.nextMove, ha], k, rfl⟩, perform_lane hp hL hL'⟩
  · obtain rfl : L' = L := Option.some.inj (hL'.symm.trans hL)
    exact ⟨.laneTurn l, .inr ⟨by simp [State.nextMove, ha], l, rfl⟩,
      .inl ⟨rfl, .idleTurn l _ (firstInFlight_none hidle _ (State.lane_mem hL))⟩⟩

/-- The host actions that write the fault registers or OVR of lane `l`. -/
@[simp] def Move.writesFaultRegs (l : Nat) : Move → Bool
  | .hostIssue k _ | .hostWriteStatus k _ | .hostReset k => k == l
  | .hostWriteOM _ _ _ | .hostReadOM _ _ | .hostReadStatus _ | .hostReadFCMD _ | .laneTurn _ => false

theorem Move.writesFaultRegs_eq_false {m : Move} {l : Nat} (h : m.lane ≠ l) :
    m.writesFaultRegs l = false := by
  cases m <;> simp_all [Move.lane]

theorem State.Makes.nextMove_ne {s : State} {m m' : Move} {l : Nat} (h : s.Makes m)
    (hm : m.writesFaultRegs l = false) (hm' : m'.writesFaultRegs l = true) : s.nextMove ≠ some m' := by
  intro hnext
  rw [h.eq_nextMove hnext, hm] at hm'
  cases hm'

/-- What a step can do to lane `l`, as far as the fault registers and OVR go. -/
inductive LaneStep (s : State) (l : Nat) (L : Lane) : Lane → Prop where
  | issued (c : Cmd) (hm : s.nextMove = some (.hostIssue l c)) : LaneStep s l L (L.issue c)
  | wroteStatus (v : Word) (hm : s.nextMove = some (.hostWriteStatus l v)) :
      LaneStep s l L (L.writeStatus v)
  | wasReset (hm : s.nextMove = some (.hostReset l)) : LaneStep s l L .reset
  | faulted (f : InFlight) (c : Cause) (hf : L.inFlight = some f)
      (hm : ∀ m : Move, m.writesFaultRegs l = true → s.nextMove ≠ some m) :
      LaneStep s l L (L.faultEntry c f.cmd)
  | kept (L' : Lane) (hsame : SameFaultRegs L L')
      (hm : ∀ m : Move, m.writesFaultRegs l = true → s.nextMove ≠ some m) : LaneStep s l L L'

theorem laneStep_of_step {s t : State} {l : Nat} {L L' : Lane} (h : step s = .next t)
    (hL : s.lane l = some L) (hL' : t.lane l = some L') : LaneStep s l L L' := by
  obtain ⟨m, hm, ⟨rfl, hmove⟩ | ⟨hne, rfl⟩⟩ := step_lane h hL hL'
  · cases m with
    | laneTurn k =>
      obtain ⟨f, c, hf, rfl⟩ | hsame := hmove.turn
      · exact .faulted f c hf fun _ => hm.nextMove_ne rfl
      · exact .kept _ hsame fun _ => hm.nextMove_ne rfl
    | hostIssue k c => cases hmove; exact .issued c (hm.nextMove_eq nofun)
    | hostWriteStatus k v => cases hmove; exact .wroteStatus v (hm.nextMove_eq nofun)
    | hostReset k => cases hmove; exact .wasReset (hm.nextMove_eq nofun)
    | hostWriteOM | hostReadOM | hostReadStatus | hostReadFCMD =>
      cases hmove <;> exact .kept _ ⟨rfl, rfl, rfl, rfl⟩ fun _ => hm.nextMove_ne rfl
  · exact .kept _ ⟨rfl, rfl, rfl, rfl⟩ fun _ => hm.nextMove_ne (Move.writesFaultRegs_eq_false hne)

/-! ### What acceptance and drop leave -/

theorem Lane.issue_dropped {L : Lane} (c : Cmd) (h : L.status.busy = true ∨ L.status.flt = true) :
    L.issue c = { L with status := L.status.drop } := by
  rw [Lane.issue, if_pos (by simpa using h)]

theorem Lane.issue_accepted {L : Lane} (c : Cmd) (h : ¬ (L.status.busy = true ∨ L.status.flt = true)) :
    L.issue c = L.withCommand c := by
  rw [Lane.issue, if_neg (by simpa using h)]; rfl

@[simp] theorem Lane.issue_fcmd (L : Lane) (c : Cmd) : (L.issue c).fcmd = L.fcmd := by
  unfold Lane.issue; split <;> rfl

@[simp] theorem Lane.issue_flt (L : Lane) (c : Cmd) : (L.issue c).status.flt = L.status.flt := by
  unfold Lane.issue; split <;> rfl

@[simp] theorem Lane.issue_fcause (L : Lane) (c : Cmd) : (L.issue c).status.fcause = L.status.fcause := by
  unfold Lane.issue; split <;> rfl

/-! ### FCMD -/

/-- Only a fault and a reset write FCMD (10_state.md R41). -/
theorem LaneStep.fcmd_cases {s : State} {l : Nat} {L L' : Lane} (h : LaneStep s l L L') :
    (s.nextMove = some (.hostReset l) → L'.fcmd = 0) ∧
    (L'.fcmd ≠ L.fcmd →
      (∃ f, L.inFlight = some f ∧ L'.fcmd = f.cmd ∧ L'.status.flt = true) ∨
      s.nextMove = some (.hostReset l)) := by
  cases h with
  | issued c hm | wroteStatus v hm => simp [hm]
  | wasReset hm => exact ⟨fun _ => rfl, fun _ => .inr hm⟩
  | faulted f c hf hm => exact ⟨by simp [hm], fun _ => .inl ⟨f, hf, rfl, rfl⟩⟩
  | kept _ hsame hm => simp [hm, hsame.fcmd]

/-- FLT rises only in the fault entry, which takes the word in flight (60_exceptions.md R266). -/
theorem LaneStep.fcmd_of_flt_rises {s : State} {l : Nat} {L L' : Lane} {f : InFlight}
    (h : LaneStep s l L L') (hf : L.inFlight = some f) (hclear : L.status.flt = false)
    (hset : L'.status.flt = true) : L'.fcmd = f.cmd := by
  cases h with
  | issued | wroteStatus => simp [hclear] at hset
  | wasReset hm => cases hset
  | faulted g c hg hm => rw [hf] at hg; cases hg; rfl
  | kept _ hsame hm => rw [hsame.flt, hclear] at hset; cases hset

/-- Settles O49: of what a step can do to a lane, only the fault entry and the reset write FCMD. -/
theorem fcmdWrittenOnlyByFaultOrReset : Obligations.FcmdWrittenOnlyByFaultOrReset :=
  ⟨fun _ _ _ _ _ h hL hL' => (laneStep_of_step h hL hL').fcmd_cases,
    fun _ _ _ _ _ _ h hL hL' => (laneStep_of_step h hL hL').fcmd_of_flt_rises,
    fun s l L hL => by rw [perform, hostReadFCMD, State.onLane, hL]⟩

/-! ### OVR -/

/-- Settles O50: of what a step can do to a lane, only a dropped HostIssue sets OVR, and only a status write and
the reset clear it. -/
theorem ovrRecordsDroppedCommands : Obligations.OvrRecordsDroppedCommands := by
  intro s t l L L' hstep hL hL'
  cases laneStep_of_step hstep hL hL' with
  | issued c hm =>
    by_cases hdrop : L.status.busy = true ∨ L.status.flt = true
    · simp [hm, Lane.issue_dropped c hdrop, Status.drop, hdrop]
    · simp [hm, Lane.issue_accepted c hdrop, Lane.withCommand, hdrop]
  | wroteStatus v hm => cases hovr : L.status.ovr <;> simp [hm, hovr]
  | wasReset hm => simp [hm, Lane.reset, Status.reset]
  | faulted f c hf hm => simp [hm]
  | kept _ hsame hm => simp [hm, hsame.ovr]

/-! ### FLT and FCAUSE -/

/-- HostWriteStatus with bit 6 clears FLT and FCAUSE together (60_exceptions.md R269). -/
theorem Status.hostWrite_clears_fault (t : Status) {v : Word} (hv : v.getLsbD 6 = true) :
    (t.hostWrite v).flt = false ∧ (t.hostWrite v).fcause = 0 := by
  rw [Status.hostWrite_flt, Status.hostWrite_fcause, hv]
  simp

/-- Without bit 6 it writes neither. -/
theorem Status.hostWrite_keeps_fault (t : Status) {v : Word} (hv : v.getLsbD 6 = false) :
    (t.hostWrite v).flt = t.flt ∧ (t.hostWrite v).fcause = t.fcause := by
  rw [Status.hostWrite_flt, Status.hostWrite_fcause, hv]
  simp

theorem Cause.code_eq (c : Cause) : c.code = 1 ∨ c.code = 2 := by cases c <;> simp [Cause.code]

/-- FCAUSE is a cause while FLT = 1 and 0 while FLT = 0 (10_state.md R39). -/
def Status.FcauseFits (t : Status) : Prop :=
  (t.flt = true → t.fcause = 1 ∨ t.fcause = 2) ∧ (t.flt = false → t.fcause = 0)

/-- Every step keeps FCAUSE in step with FLT. -/
theorem LaneStep.fcauseFits {s : State} {l : Nat} {L L' : Lane} (h : LaneStep s l L L')
    (hL : L.status.FcauseFits) : L'.status.FcauseFits := by
  cases h with
  | issued c hm => simpa [Status.FcauseFits] using hL
  | wroteStatus v hm =>
    rw [Lane.writeStatus_status]
    cases hv : v.getLsbD 6 with
    | true =>
      obtain ⟨hflt, hcause⟩ := L.status.hostWrite_clears_fault hv
      simp only [Status.FcauseFits, hflt, hcause]
      simp
    | false =>
      obtain ⟨hflt, hcause⟩ := L.status.hostWrite_keeps_fault hv
      rwa [Status.FcauseFits, hflt, hcause]
  | wasReset hm => exact ⟨nofun, fun _ => rfl⟩
  | faulted f c hf hm => exact ⟨fun _ => c.code_eq, nofun⟩
  | kept _ hsame hm => rwa [Status.FcauseFits, hsame.flt, hsame.fcause]

/-- Settles O51: FCAUSE stays in step with FLT on every step, and of what a step can do to a lane, only the fault
entry, a status write with bit 6 and the reset write either. -/
theorem fltAndFcauseWrittenTogether : Obligations.FltAndFcauseWrittenTogether := by
  intro s t l L L' hinv hstep hL hL'
  have hlane := laneStep_of_step hstep hL hL'
  have hgood := hinv.lanes_inv L (State.lane_mem hL)
  obtain ⟨hset, hclear⟩ := hlane.fcauseFits ⟨hgood.fcause_flt, hgood.fcause_clear⟩
  refine ⟨hset, hclear, ?_⟩
  cases hlane with
  | issued c hm => simp [hm]
  | wroteStatus v hm =>
    refine ⟨fun v' hm' hv' => ?_, by simp [hm], fun hchange => .inr (.inr ⟨v, hm, ?_⟩)⟩
    · obtain rfl : v = v' := by simpa using hm.symm.trans hm'
      exact L.status.hostWrite_clears_fault hv'
    · by_contra hv
      obtain ⟨hflt, hcause⟩ := L.status.hostWrite_keeps_fault (by simpa using hv)
      exact hchange.elim (absurd hflt) (absurd hcause)
  | wasReset hm => exact ⟨by simp [hm], fun _ => ⟨rfl, rfl⟩, fun _ => .inr (.inl hm)⟩
  | faulted f c hf hm => exact ⟨by simp [hm], by simp [hm], fun _ => .inl ⟨f, c.code, hf, rfl⟩⟩
  | kept _ hsame hm => simp [hm, hsame.flt, hsame.fcause]

end Sys2Proof.Machine
end

section
/-! Elements in operand memory (20_memory.md R61): each word of a written element, and the value read as
the sum of its limbs. -/

namespace Sys2Proof.Machine

/-- The little-endian value as a sum over the limbs, as R61 writes it. -/
theorem valueOfWords_ofFn {n : Nat} (ws : Fin n → Word) :
    valueOfWords (List.ofFn ws) = ∑ i : Fin n, (ws i).toNat * 2 ^ (32 * (i : Nat)) := by
  induction n with
  | zero => rfl
  | succ n ih =>
    have shift (i : Fin n) : (ws i.succ).toNat * 2 ^ (32 * (i.succ : Nat)) =
        2 ^ 32 * ((ws i.succ).toNat * 2 ^ (32 * (i : Nat))) := by
      rw [Fin.val_succ]; ring
    rw [List.ofFn_succ, valueOfWords, ih, Fin.sum_univ_succ, Finset.sum_congr rfl fun i _ => shift i,
      Finset.mul_sum]
    simp

theorem Memory.readList_ofFn {m : Memory} {a n : Nat} {ws : Fin n → Word}
    (h : ∀ i : Fin n, m.read (a + i) = some (ws i)) : m.readList a n = some (List.ofFn ws) := by
  have hread (k : Nat) (w : Word) (hk : (List.ofFn ws)[k]? = some w) : m.read (a + k) = some w := by
    obtain ⟨hlt, rfl⟩ := List.getElem?_eq_some_iff.mp hk
    rw [List.getElem_ofFn]
    exact h ⟨k, by simpa using hlt⟩
  simpa using Memory.readList_eq_some hread

theorem read_writeE (m : Memory) (a v : Nat) {i : Nat} (hi : i < 8) :
    (writeE m a v).read (a + i) = some (BitVec.ofNat 32 (v / 2 ^ (32 * i))) :=
  Memory.read_writeList_inside _ m a (getElem?_wordsOfValue 8 v i hi)

theorem readE_eq_sum {m : Memory} {a : Nat} {ws : Fin 8 → Word}
    (h : ∀ i : Fin 8, m.read (a + i) = some (ws i)) :
    readE m a = some (∑ i : Fin 8, (ws i).toNat * 2 ^ (32 * (i : Nat))) := by
  rw [readE, Memory.readList_ofFn h, Option.map_some, valueOfWords_ofFn]

/-- Settles O39: word i written is limb i, and the value read is the sum over the limbs. -/
theorem elementIsLittleEndianLimbs : Obligations.ElementIsLittleEndianLimbs :=
  ⟨fun m a v _ => read_writeE m a v, fun _ _ _ => readE_eq_sum⟩

end Sys2Proof.Machine
end

section
/-! What the statements on single commands share: a command's word holds its fields and decodes to it
(30_encoding.md R91), the illegal words of an opcode (R95), the fault of an operand past the end of OM
(60_exceptions.md R264), and completion with an element or with flags only. -/

namespace Sys2Proof

/-! ### The word of a command -/

@[simp] theorem Modulus.ofBit_bit (m : Modulus) : Modulus.ofBit m.bit = m := by cases m <;> rfl

theorem Modulus.toNat_bit (m : Modulus) : m.bit.toNat = if m = .n then 1 else 0 := by cases m <;> rfl

theorem Instr.build_fields (i : Instr) : i.opcode.build i.modulus i.d i.a i.b = i := by cases i <;> rfl

/-- What the decoder asks of M, D and B (30_encoding.md R98, R99), a command's own fields keep. -/
theorem Instr.fields_fit (i : Instr) : (i.modulus.bit = true → i.opcode.takesM = true) ∧
    (i.opcode.kindD = .unused → i.d = 0) ∧ (i.opcode.kindB = .unused → i.b = 0) := by
  cases i <;> simp [Instr.opcode, Instr.modulus, Instr.d, Instr.b, Modulus.bit, Opcode.takesM,
    Opcode.kindD, Opcode.kindB]

/-- The one check of a well-formed term is the decoder's on the constant index. -/
theorem Instr.a_le_of_constant {i : Instr} (hi : i.wellFormed = true) (h : i.opcode.kindA = .constant) :
    i.a.toNat ≤ 6 := by
  cases i with
  | ldk d k => simpa [Instr.wellFormed, Instr.a] using hi
  | _ => cases h

/-- A command's word passes the decoder's steps, and its fields build the command again. -/
theorem decode_encode {i : Instr} (hi : i.wellFormed = true) : decode (encode i) = .ok i := by
  obtain ⟨hopc, hrsv, hm, hd, ha, hb⟩ := Laws.EncodedFields.statement i
  obtain ⟨hfitM, hfitD, hfitB⟩ := i.fields_fit
  refine (decode_eq_ok_iff _ _).2 ⟨i.opcode, ?_⟩
  rw [hopc, hrsv, hm, hd, ha, hb, Modulus.ofBit_bit, Instr.build_fields]
  exact ⟨Opcode.ofCode_code _, rfl, hfitM, (Kind.clear_iff _ _).2 hfitD,
    (Kind.clear_iff _ _).2 fun h => absurd h (Opcode.kindA_ne_unused _), (Kind.clear_iff _ _).2 hfitB,
    Instr.a_le_of_constant hi, rfl⟩

end Sys2Proof

namespace Sys2Proof.Machine

theorem encodesAs_fields {i : Instr} (hi : i.wellFormed = true) :
    EncodesAs i i.opcode.code i.modulus.bit.toNat i.d i.a i.b :=
  ⟨rfl, decode_encode hi⟩

/-- A command whose opcode takes a modulus, with M as a case of the modulus. -/
theorem encodesAs_modulus {i : Instr} (hi : i.wellFormed = true) :
    EncodesAs i i.opcode.code (if i.modulus = .n then 1 else 0) i.d i.a i.b :=
  Modulus.toNat_bit _ ▸ encodesAs_fields hi

theorem assembles_of_line {line : String} {i : Instr} {w : Cmd} (hi : i.wellFormed = true)
    (hline : assembleLine line.toList = some i) (hw : encode i = w) : Assembles line i w :=
  ⟨hline, hw, hw ▸ decode_encode hi⟩

/-! ### The illegal words of an opcode -/

/-- One of the conditions holds, as a disjunction. -/
def anyOf : List (Cmd → Prop) → Cmd → Prop
  | [], _ => False
  | [p], w => p w
  | p :: q :: ps, w => p w ∨ anyOf (q :: ps) w

theorem anyOf_cons (p : Cmd → Prop) (ps : List (Cmd → Prop)) (w : Cmd) :
    anyOf (p :: ps) w ↔ p w ∨ anyOf ps w := by
  cases ps <;> simp [anyOf]

theorem anyOf_iff (ps : List (Cmd → Prop)) (w : Cmd) : anyOf ps w ↔ ∃ p ∈ ps, p w := by
  induction ps with
  | nil => simp [anyOf]
  | cons p ps ih => simp [anyOf_cons, ih]

/-- What makes a word of this opcode illegal: M set where the opcode takes none, RSV set, a field set that the
opcode does not use, or a constant index of 7 or more (30_encoding.md R97 to R100). -/
def illegalConditions (op : Opcode) : List (Cmd → Prop) :=
  (if op.takesM = false then [mSet] else []) ++ [rsvSet] ++ (if op.kindD = .unused then [dSet] else []) ++
    (if op.kindB = .unused then [bSet] else []) ++
    (if op.kindA = .constant then [fun w => 7 ≤ (w.extractLsb' 32 16).toNat] else [])

theorem anyOf_illegalConditions_iff (op : Opcode) (w : Cmd) : anyOf (illegalConditions op) w ↔
    (op.takesM = false ∧ mSet w) ∨ rsvSet w ∨ (op.kindD = .unused ∧ dSet w) ∨
      (op.kindB = .unused ∧ bSet w) ∨ (op.kindA = .constant ∧ 7 ≤ (w.extractLsb' 32 16).toNat) := by
  simp [anyOf_iff, illegalConditions, or_and_right, exists_or, and_assoc]

/-- Each condition is the failure of one step of the decoder. -/
theorem illegalExactly_opcode (op : Opcode) : IllegalExactly op.code (anyOf (illegalConditions op)) := by
  intro w hw
  rw [decode_error_iff, decode_ok_of_opcode op w hw, anyOf_illegalConditions_iff,
    and_comm (a := op.takesM = false)]
  simp only [mSet, rsvSet, dSet, bSet, mField, rsvField, dField, bField, aField]
  simp only [not_and_or, Classical.not_imp, not_le, Bool.not_eq_true]
  exact or_left_comm

/-! ### Operands past the end -/

theorem inRange_iff {n : Nat} {i : Instr} :
    inRange n i = true ↔ ∀ o ∈ destOperand i ++ sourceOperands i, o.1 + o.2 ≤ n := by
  simp only [inRange, List.all_eq_true, decide_eq_true_eq]

/-- The range check comes before the rule, so its fault does not depend on the rule. -/
theorem rangeFault_operands {i : Instr} (hi : i.wellFormed = true) :
    RangeFault i (destOperand i ++ sourceOperands i) := by
  rintro s L hL ⟨o, ho, hend⟩
  obtain ⟨rule, hr⟩ := exec_rule i hi
  have hin : inRange s.omWords i = false := by
    rw [← Bool.not_eq_true, inRange_iff]
    exact fun h => absurd (h o ho) (by omega)
  rw [hr.exec_eq, runRule_of_range hL hin]
  rfl

/-! ### Completion -/

theorem completesElement_of_retire {i : Instr} {s : State} {L : Lane} {d : Addr} {r : Nat} {c dz : Bool}
    (h : exec i s = .next (s.setCur (L.retire (.element d r c dz)))) (hr : r < W) :
    CompletesElement i s L d r c dz :=
  ⟨writeE L.om d.toNat r, h, readE_writeE hr, fun _ hx =>
    Memory.read_writeList_outside _ _ (by rwa [length_elementWords])⟩

theorem completesFlags_of_retire {i : Instr} {s : State} {L : Lane} {c z inf : Bool}
    (h : exec i s = .next (s.setCur (L.retire (.flagsOnly ⟨c, z, inf⟩)))) : CompletesFlags i s L c z inf := by
  rw [CompletesFlags, h]
  simp [Lane.retire, Status.retire, Result.flagsOnly, Memory.writeList]

/-- A command that reads one element and answers with an element. -/
theorem completesElement_of_element {i : Instr} {s : State} {L : Lane} {d a : Addr} {f : Nat → Result}
    {va r : Nat} {c dz : Bool} (he : exec i s = s.runRule i fun m => withElement m a f)
    (ho : destOperand i ++ sourceOperands i = [(d.toNat, 8), (a.toNat, 8)]) (hL : s.cur = some L)
    (hd : d.toNat + 8 ≤ s.omWords) (ha : a.toNat + 8 ≤ s.omWords) (hva : readE L.om a.toNat = some va)
    (hf : f va = .element d r c dz) (hr : r < W) : CompletesElement i s L d r c dz :=
  completesElement_of_retire
    (hf ▸ exec_of_element he hL (inRange_iff.2 (by simp [ho, hd, ha])) hva) hr

/-- A command that reads two elements and answers with an element. -/
theorem completesElement_of_elements {i : Instr} {s : State} {L : Lane} {d a b : Addr}
    {f : Nat → Nat → Result} {va vb r : Nat} {c dz : Bool}
    (he : exec i s = s.runRule i fun m => withElements m a b f)
    (ho : destOperand i ++ sourceOperands i = [(d.toNat, 8), (a.toNat, 8), (b.toNat, 8)])
    (hL : s.cur = some L) (hd : d.toNat + 8 ≤ s.omWords) (ha : a.toNat + 8 ≤ s.omWords)
    (hb : b.toNat + 8 ≤ s.omWords) (hva : readE L.om a.toNat = some va) (hvb : readE L.om b.toNat = some vb)
    (hf : f va vb = .element d r c dz) (hr : r < W) : CompletesElement i s L d r c dz :=
  completesElement_of_retire
    (hf ▸ exec_of_elements he hL (inRange_iff.2 (by simp [ho, hd, ha, hb])) hva hvb) hr

/-- A command that reads one element and answers with flags. -/
theorem completesFlags_of_element {i : Instr} {s : State} {L : Lane} {a : Addr} {f : Nat → Result} {va : Nat}
    {c z inf : Bool} (he : exec i s = s.runRule i fun m => withElement m a f)
    (ho : destOperand i ++ sourceOperands i = [(a.toNat, 8)]) (hL : s.cur = some L)
    (ha : a.toNat + 8 ≤ s.omWords) (hva : readE L.om a.toNat = some va)
    (hf : f va = .flagsOnly ⟨c, z, inf⟩) : CompletesFlags i s L c z inf :=
  completesFlags_of_retire (hf ▸ exec_of_element he hL (inRange_iff.2 (by simp [ho, ha])) hva)

/-- A command that reads two elements and answers with flags. -/
theorem completesFlags_of_elements {i : Instr} {s : State} {L : Lane} {a b : Addr} {f : Nat → Nat → Result}
    {va vb : Nat} {c z inf : Bool} (he : exec i s = s.runRule i fun m => withElements m a b f)
    (ho : destOperand i ++ sourceOperands i = [(a.toNat, 8), (b.toNat, 8)]) (hL : s.cur = some L)
    (ha : a.toNat + 8 ≤ s.omWords) (hb : b.toNat + 8 ≤ s.omWords) (hva : readE L.om a.toNat = some va)
    (hvb : readE L.om b.toNat = some vb) (hf : f va vb = .flagsOnly ⟨c, z, inf⟩) :
    CompletesFlags i s L c z inf :=
  completesFlags_of_retire (hf ▸ exec_of_elements he hL (inRange_iff.2 (by simp [ho, ha, hb])) hva hvb)

end Sys2Proof.Machine
end

section
/-! The adder/subtractor unit (40_adder_subtractor.md): its functions on 256-bit values in natural numbers,
and its commands but LDK. -/

namespace Sys2Proof.Machine

/-! ### The functions in natural numbers -/

theorem sub256_eq {va vb : Nat} (ha : va < W) (hb : vb < W) :
    sub256 va vb = (if va < vb then va + W - vb else va - vb, decide (va < vb)) := by
  simp only [sub256, W] at *
  split <;> congr 1 <;> omega

theorem shl256_eq {va : Nat} (ha : va < W) : shl256 va = (va * 2 % W, decide (2 ^ 255 ≤ va)) := by
  rw [shl256, Nat.testBit_eq_decide_div_mod_eq]
  refine Prod.ext rfl (decide_eq_decide.2 ?_)
  simp only [W] at ha
  omega

theorem shr256_eq (va : Nat) : shr256 va = (va / 2, decide (va % 2 = 1)) := by
  rw [shr256, Nat.testBit_zero]

/-- R130's condition for the one subtraction of the modulus: the sum carries or is not below it. -/
theorem addMod_of_correction {md va vb : Nat} (hmd : md < W) (h : (va + vb) / W = 1 ∨ md ≤ (va + vb) % W) :
    addMod md va vb = ((va + vb - md) % W, true) := by
  rw [addMod, if_pos h]
  simp only [W] at *
  congr 1
  omega

theorem add_lt_of_no_carry {va vb : Nat} (ha : va < W) (hb : vb < W) (h : (va + vb) / W ≠ 1) :
    va + vb < W := by
  simp only [W] at *
  omega

theorem addMod_of_no_correction {md va vb : Nat} (ha : va < W) (hb : vb < W)
    (h : ¬ ((va + vb) / W = 1 ∨ md ≤ (va + vb) % W)) : addMod md va vb = (va + vb, false) := by
  have hlt := add_lt_of_no_carry ha hb fun hc => h (.inl hc)
  rw [addMod, if_neg h, Nat.mod_eq_of_lt hlt]

theorem subMod_of_borrow {md va vb : Nat} (hb : vb < W) (h : va < vb) :
    subMod md va vb = ((va + W + md - vb) % W, true) := by
  rw [subMod, if_pos h]
  simp only [W] at *
  congr 1
  omega

theorem subMod_of_no_borrow {md va vb : Nat} (h : ¬ va < vb) : subMod md va vb = (va - vb, false) := by
  rw [subMod, if_neg h]

theorem negMod_of_pos {md va : Nat} (ha : va < W) (h : 0 < va) :
    negMod md va = ((W - va + md) % W, true) := by
  rw [negMod, if_pos h]
  simp only [W] at *
  congr 1
  omega

theorem negMod_of_not_pos {md va : Nat} (h : ¬ 0 < va) : negMod md va = (0, false) := by
  rw [negMod, if_neg h]

theorem mod_W_lt (n : Nat) : n % W < W := Nat.mod_lt _ (by decide)

/-! ### The commands -/

/-- Settles O11: ADD runs `add256` on its two elements. -/
theorem addWritesSumAndCarry : Obligations.AddWritesSumAndCarry :=
  ⟨fun _ _ _ => ⟨encodesAs_fields rfl, rangeFault_operands rfl⟩,
    illegalExactly_opcode .add,
    assembles_of_line rfl (by decide) (by decide),
    fun _ _ _ _ _ _ _ hL hd ha hb hva hvb =>
      completesElement_of_elements rfl rfl hL hd ha hb hva hvb rfl (mod_W_lt _)⟩

/-- Settles O12: SUB runs `sub256` on its two elements. -/
theorem subWritesDifferenceAndBorrow : Obligations.SubWritesDifferenceAndBorrow :=
  ⟨fun _ _ _ => ⟨encodesAs_fields rfl, rangeFault_operands rfl⟩,
    illegalExactly_opcode .sub,
    assembles_of_line rfl (by decide) (by decide),
    fun _ _ _ _ _ va vb hL hd ha hb hva hvb => by
      have hlt : (if va < vb then va + W - vb else va - vb) < W := by
        have := readE_lt hva
        split <;> omega
      exact completesElement_of_elements rfl rfl hL hd ha hb hva hvb
        (by rw [sub256_eq (readE_lt hva) (readE_lt hvb)]) hlt⟩

/-- Settles O13: CMP answers with the flags of the comparison. -/
theorem cmpOrdersUnsigned : Obligations.CmpOrdersUnsigned :=
  ⟨fun _ _ => ⟨encodesAs_fields rfl, rangeFault_operands rfl⟩,
    illegalExactly_opcode .cmp,
    assembles_of_line rfl (by decide) (by decide),
    fun _ _ _ _ _ _ hL ha hb hva hvb => completesFlags_of_elements rfl rfl hL ha hb hva hvb rfl⟩

/-- Settles O14: TST answers with the flags of the zero test. -/
theorem tstTestsZero : Obligations.TstTestsZero :=
  ⟨fun _ => ⟨encodesAs_fields rfl, rangeFault_operands rfl⟩,
    illegalExactly_opcode .tst,
    assembles_of_line rfl (by decide) (by decide),
    fun _ _ _ _ hL ha hva => completesFlags_of_element rfl rfl hL ha hva rfl⟩

/-- Settles O15: SHL1 runs `shl256` on its element. -/
theorem shiftLeftMovesBit255ToCarry : Obligations.ShiftLeftMovesBit255ToCarry :=
  ⟨fun _ _ => ⟨encodesAs_fields rfl, rangeFault_operands rfl⟩,
    illegalExactly_opcode .shl1,
    assembles_of_line rfl (by decide) (by decide),
    fun _ _ _ _ _ hL hd ha hva =>
      completesElement_of_element rfl rfl hL hd ha hva (by rw [shl256_eq (readE_lt hva)]) (mod_W_lt _)⟩

/-- Settles O16: SHR1 runs `shr256` on its element. -/
theorem shiftRightMovesBit0ToCarry : Obligations.ShiftRightMovesBit0ToCarry :=
  ⟨fun _ _ => ⟨encodesAs_fields rfl, rangeFault_operands rfl⟩,
    illegalExactly_opcode .shr1,
    assembles_of_line rfl (by decide) (by decide),
    fun _ _ _ _ _ hL hd ha hva =>
      completesElement_of_element rfl rfl hL hd ha hva (by rw [shr256_eq])
        (lt_of_le_of_lt (Nat.div_le_self _ _) (readE_lt hva))⟩

/-- Settles O17: MOV reads the whole source before it writes, so an overlap does not matter. -/
theorem movCopiesElement : Obligations.MovCopiesElement :=
  ⟨fun _ _ => ⟨encodesAs_fields rfl, rangeFault_operands rfl⟩,
    illegalExactly_opcode .mov,
    assembles_of_line rfl (by decide) (by decide),
    fun _ _ _ _ _ hL hd ha hva =>
      completesElement_of_element rfl rfl hL hd ha hva rfl (readE_lt hva)⟩

/-- Settles O19: the two branches of R130 are the two of `addMod`; where nothing is subtracted the sum does not
carry. -/
theorem addmCorrectsOnce : Obligations.AddmCorrectsOnce :=
  ⟨fun _ _ _ _ => ⟨encodesAs_modulus rfl, rangeFault_operands rfl⟩,
    illegalExactly_opcode .addm,
    assembles_of_line rfl (by decide) (by decide), assembles_of_line rfl (by decide) (by decide),
    fun _ _ m _ _ _ va vb hL hd ha hb hva hvb => by
      split
      case isTrue h =>
        exact completesElement_of_elements rfl rfl hL hd ha hb hva hvb
          (by rw [addMod_of_correction (modulusOf_lt m) h]) (mod_W_lt _)
      case isFalse h =>
        exact completesElement_of_elements rfl rfl hL hd ha hb hva hvb
          (by rw [addMod_of_no_correction (readE_lt hva) (readE_lt hvb) h])
          (add_lt_of_no_carry (readE_lt hva) (readE_lt hvb) fun hc => h (.inl hc))⟩

/-- Settles O20: the two branches of R131 are the two of `subMod`. -/
theorem submCorrectsOnce : Obligations.SubmCorrectsOnce :=
  ⟨fun _ _ _ _ => ⟨encodesAs_modulus rfl, rangeFault_operands rfl⟩,
    illegalExactly_opcode .subm,
    assembles_of_line rfl (by decide) (by decide), assembles_of_line rfl (by decide) (by decide),
    fun _ _ m _ _ _ va vb hL hd ha hb hva hvb => by
      split
      case isTrue h =>
        exact completesElement_of_elements rfl rfl hL hd ha hb hva hvb
          (by rw [subMod_of_borrow (readE_lt hvb) h]) (mod_W_lt _)
      case isFalse h =>
        exact completesElement_of_elements rfl rfl hL hd ha hb hva hvb
          (by rw [subMod_of_no_borrow h]) (lt_of_le_of_lt (Nat.sub_le _ _) (readE_lt hva))⟩

/-- Settles O21: the two branches of R132 are the two of `negMod`, and the negation of 0 is 0. -/
theorem negmNegates : Obligations.NegmNegates :=
  ⟨fun _ _ _ => ⟨encodesAs_modulus rfl, rangeFault_operands rfl⟩,
    illegalExactly_opcode .negm,
    assembles_of_line rfl (by decide) (by decide), assembles_of_line rfl (by decide) (by decide),
    fun _ _ m _ _ va hL hd ha hva => by
      split
      case isTrue h =>
        exact completesElement_of_element rfl rfl hL hd ha hva
          (by rw [negMod_of_pos (readE_lt hva) h]) (mod_W_lt _)
      case isFalse h =>
        exact completesElement_of_element rfl rfl hL hd ha hva (by rw [negMod_of_not_pos h]) (by decide)⟩

end Sys2Proof.Machine
end

section
/-! The multiplier unit (41_multiplier.md): its two commands, whose results are residues below the modulus for
inputs of any value. -/

namespace Sys2Proof.Machine

theorem mod_modulusOf_lt (m : Modulus) (n : Nat) : n % modulusOf m < W :=
  (Nat.mod_lt n (Nat.zero_lt_of_lt (one_lt_modulusOf m))).trans (modulusOf_lt m)

/-- Settles O23: MULM runs `mulMod`, the residue of the full product, on its two elements. -/
theorem mulmWritesResidue : Obligations.MulmWritesResidue :=
  ⟨fun _ _ _ _ => ⟨encodesAs_modulus rfl, rangeFault_operands rfl⟩,
    illegalExactly_opcode .mulm,
    assembles_of_line rfl (by decide) (by decide), assembles_of_line rfl (by decide) (by decide),
    fun _ _ m _ _ _ _ _ hL hd ha hb hva hvb =>
      completesElement_of_elements rfl rfl hL hd ha hb hva hvb rfl (mod_modulusOf_lt m _)⟩

/-- Settles O24: INVM runs `invMod`, whose powers by squaring are the power that R171 writes. -/
theorem invmWritesInverse : Obligations.InvmWritesInverse :=
  ⟨fun _ _ _ => ⟨encodesAs_modulus rfl, rangeFault_operands rfl⟩,
    illegalExactly_opcode .invm,
    assembles_of_line rfl (by decide) (by decide), assembles_of_line rfl (by decide) (by decide),
    fun _ _ m _ _ _ hL hd ha hva =>
      completesElement_of_element rfl rfl hL hd ha hva (by rw [invMod_modulusOf]; rfl) (mod_modulusOf_lt m _)⟩

end Sys2Proof.Machine
end

section
/-! Points in operand memory (20_memory.md R62): the words of a written point, and what the statements on the
point commands share, completion with a point or with flags of commands that read points. -/

namespace Sys2Proof.Machine

/-! ### A written point -/

/-- An element read back from inside a longer write, behind the words `ws`. -/
theorem readE_writeList_append {v : Nat} (hv : v < W) (m : Memory) (a : Nat) (ws vs : List Word) :
    readE (m.writeList a (ws ++ (elementWords v ++ vs))) (a + ws.length) = some v := by
  refine readE_of_words hv fun k w hk => ?_
  have hk8 : k < (elementWords v).length := (List.getElem?_eq_some_iff.1 hk).1
  rw [Nat.add_assoc]
  refine Memory.read_writeList_inside _ m a ?_
  rw [List.getElem?_append_right (Nat.le_add_right _ _), Nat.add_sub_cancel_left,
    List.getElem?_append_left hk8, hk]

/-- Two elements and a flag word, written one behind the other. -/
theorem read_of_writeList_coordinates {x y d : Nat} {f : Word} {m m' : Memory} (hx : x < W) (hy : y < W)
    (hm : m' = m.writeList d (elementWords x ++ elementWords y ++ [f])) :
    readE m' d = some x ∧ readE m' (d + 8) = some y ∧ m'.read (d + 16) = some f := by
  subst hm
  refine ⟨?_, ?_, Memory.read_writeList_inside _ m d (by simp)⟩
  · simpa using readE_writeList_append hx m d [] (elementWords y ++ [f])
  · simpa using readE_writeList_append hy m d (elementWords x) [f]

theorem holdsPoint_writeList {r : Point} (hr : r.Canonical) (m : Memory) (d : Nat) :
    HoldsPoint (m.writeList d (pointWords r)) d r := by
  cases r with
  | inf => exact read_of_writeList_coordinates (by decide) (by decide) rfl
  | aff x y =>
    obtain ⟨hx, hy⟩ := hr
    exact read_of_writeList_coordinates (hx.trans primeP_lt_W) (hy.trans primeP_lt_W) rfl

theorem Point.isInf_eq_decide (p : Point) : p.isInf = decide (p = .inf) := by cases p <;> rfl

/-! ### Completion -/

theorem completesPoint_of_retire {i : Instr} {s : State} {L : Lane} {d : Addr} {r : Point} {dz : Bool}
    (h : exec i s = .next (s.setCur (L.retire (.point d r dz)))) (hr : r.Canonical) :
    CompletesPoint i s L d r dz := by
  refine ⟨L.om.writeList d.toNat (pointWords r), ?_, holdsPoint_writeList hr _ _, fun _ hx =>
    Memory.read_writeList_outside _ _ (by rwa [length_pointWords])⟩
  rw [h, ← Point.isInf_eq_decide]
  rfl

/-- A command that reads one point and answers with a point. -/
theorem completesPoint_of_point {i : Instr} {s : State} {L : Lane} {d a : Addr} {f : Point → Result}
    {p r : Point} {dz : Bool} (he : exec i s = s.runRule i fun m => withPoint m a f)
    (ho : destOperand i ++ sourceOperands i = [(d.toNat, 17), (a.toNat, 17)]) (hL : s.cur = some L)
    (hd : d.toNat + 17 ≤ s.omWords) (ha : a.toNat + 17 ≤ s.omWords) (hp : readPt L.om a.toNat = some p)
    (hf : f p = .point d r dz) (hr : r.Canonical) : CompletesPoint i s L d r dz :=
  completesPoint_of_retire (hf ▸ exec_of_point he hL (inRange_iff.2 (by simp [ho, hd, ha])) hp) hr

/-- A command that reads two points and answers with a point. -/
theorem completesPoint_of_points {i : Instr} {s : State} {L : Lane} {d a b : Addr}
    {f : Point → Point → Result} {p q r : Point} {dz : Bool}
    (he : exec i s = s.runRule i fun m => withPoints m a b f)
    (ho : destOperand i ++ sourceOperands i = [(d.toNat, 17), (a.toNat, 17), (b.toNat, 17)])
    (hL : s.cur = some L) (hd : d.toNat + 17 ≤ s.omWords) (ha : a.toNat + 17 ≤ s.omWords)
    (hb : b.toNat + 17 ≤ s.omWords) (hp : readPt L.om a.toNat = some p) (hq : readPt L.om b.toNat = some q)
    (hf : f p q = .point d r dz) (hr : r.Canonical) : CompletesPoint i s L d r dz :=
  completesPoint_of_retire
    (hf ▸ exec_of_points he hL (inRange_iff.2 (by simp [ho, hd, ha, hb])) hp hq) hr

/-- A command that reads one point and answers with flags. -/
theorem completesFlags_of_point {i : Instr} {s : State} {L : Lane} {a : Addr} {f : Point → Result} {p : Point}
    {c z inf : Bool} (he : exec i s = s.runRule i fun m => withPoint m a f)
    (ho : destOperand i ++ sourceOperands i = [(a.toNat, 17)]) (hL : s.cur = some L)
    (ha : a.toNat + 17 ≤ s.omWords) (hp : readPt L.om a.toNat = some p)
    (hf : f p = .flagsOnly ⟨c, z, inf⟩) : CompletesFlags i s L c z inf :=
  completesFlags_of_retire (hf ▸ exec_of_point he hL (inRange_iff.2 (by simp [ho, ha])) hp)

end Sys2Proof.Machine
end

section
/-! The point unit (42_point.md): its four commands, of which all but PCHK work on the reduced points and so
write canonical coordinates. -/

namespace Sys2Proof.Machine

/-- The negation of the reduced point, in natural numbers (42_point.md R203). -/
theorem neg_reduce_aff (x y : Nat) :
    neg (Point.aff x y).reduce = .aff (x % primeP) ((primeP - y % primeP) % primeP) := by
  rw [Point.reduce, neg, modP_primeP_sub (Nat.mod_lt y (by decide)).le]

/-- Settles O29: PDBL runs `dbl` on the reduced point. -/
theorem pdblWritesDouble : Obligations.PdblWritesDouble :=
  ⟨fun _ _ => ⟨encodesAs_fields rfl, rangeFault_operands rfl⟩,
    illegalExactly_opcode .pdbl,
    assembles_of_line rfl (by decide) (by decide),
    fun _ _ _ _ _ hL hd ha hp => completesPoint_of_point rfl rfl hL hd ha hp rfl (dbl_canonical _)⟩

/-- Settles O30: PADD runs `addp` on the reduced points, and its degenerate bit is the one that sets DZ. -/
theorem paddWritesSum : Obligations.PaddWritesSum :=
  ⟨fun _ _ _ => ⟨encodesAs_fields rfl, rangeFault_operands rfl⟩,
    illegalExactly_opcode .padd,
    assembles_of_line rfl (by decide) (by decide),
    fun _ _ _ _ _ p q hL hd ha hb hp hq =>
      completesPoint_of_points rfl rfl hL hd ha hb hp hq rfl
        (addp_canonical (reduce_canonical p) (reduce_canonical q))⟩

/-- Settles O31: PNEG runs `neg` on the reduced point, infinity or affine. -/
theorem pnegWritesNegation : Obligations.PnegWritesNegation :=
  ⟨fun _ _ => ⟨encodesAs_fields rfl, rangeFault_operands rfl⟩,
    illegalExactly_opcode .pneg,
    assembles_of_line rfl (by decide) (by decide),
    fun s L d a p hL hd ha hp => by
      have h : CompletesPoint (.pneg d a) s L d (neg p.reduce) false :=
        completesPoint_of_point rfl rfl hL hd ha hp rfl (neg_canonical (reduce_canonical p))
      cases p with
      | inf => exact h
      | aff x y => rwa [neg_reduce_aff] at h⟩

/-- Settles O32: PCHK answers with the flags of the check `onCurve` on the coordinates as they stand in OM, and
for infinity with INF alone. -/
theorem pchkChecksCurve : Obligations.PchkChecksCurve :=
  ⟨fun _ => ⟨encodesAs_fields rfl, rangeFault_operands rfl⟩,
    illegalExactly_opcode .pchk,
    assembles_of_line rfl (by decide) (by decide),
    fun _ _ _ x y hL ha hp => onCurve_eq x y ▸ completesFlags_of_point rfl rfl hL ha hp rfl,
    fun _ _ _ hL ha hp => completesFlags_of_point rfl rfl hL ha hp rfl⟩

end Sys2Proof.Machine
end

section
/-! The table builder (43_table_builder.md): the words of a written table (20_memory.md R63), and its command
TBLD, whose entries are canonical because the base is reduced on reading. -/

namespace Sys2Proof.Machine

/-! ### A written table -/

/-- Three elements, written one behind the other and before any words `vs`. -/
theorem readE_of_writeList_elements {x y z d : Nat} {vs : List Word} {m m' : Memory} (hx : x < W) (hy : y < W)
    (hz : z < W) (hm : m' = m.writeList d (elementWords x ++ elementWords y ++ elementWords z ++ vs)) :
    readE m' d = some x ∧ readE m' (d + 8) = some y ∧ readE m' (d + 16) = some z := by
  subst hm
  refine ⟨?_, ?_, ?_⟩
  · simpa using readE_writeList_append hx m d [] (elementWords y ++ (elementWords z ++ vs))
  · simpa using readE_writeList_append hy m d (elementWords x) (elementWords z ++ vs)
  · simpa using readE_writeList_append hz m d (elementWords x ++ elementWords y) vs

/-- The third element of an affine entry is −y, by R203 with the natural numbers of R241. -/
theorem holdsEntry_writeList_entryWords {e : Point} (he : e.Canonical) (m : Memory) (d : Nat)
    (vs : List Word) : HoldsEntry (m.writeList d (entryWords e ++ vs)) d e := by
  cases e with
  | inf => exact readE_of_writeList_elements (by decide) (by decide) (by decide) rfl
  | aff x y =>
    obtain ⟨hx, hy⟩ := he
    rw [HoldsEntry, ← modP_primeP_sub hy.le]
    exact readE_of_writeList_elements (hx.trans primeP_lt_W) (hy.trans primeP_lt_W)
      ((modP_lt _).trans primeP_lt_W) rfl

/-- Entry `k` of a written table stands at offset 24k (20_memory.md R63): the entries after it are written
behind it, those before it move its address. -/
theorem holdsEntry_writeList_tableWords {es : List Point} (hes : ∀ e ∈ es, e.Canonical) (m : Memory) (d : Nat)
    {k : Nat} {e : Point} (he : es[k]? = some e) :
    HoldsEntry (m.writeList d (tableWords es)) (d + 24 * k) e := by
  induction es generalizing m d k with
  | nil => simp at he
  | cons e' es ih =>
    obtain ⟨he', hes⟩ := List.forall_mem_cons.1 hes
    cases k with
    | zero =>
      obtain rfl : e' = e := by simpa using he
      exact holdsEntry_writeList_entryWords he' m d _
    | succ k =>
      rw [tableWords, Memory.writeList_append, length_entryWords,
        show d + 24 * (k + 1) = d + 24 + 24 * k by omega]
      exact ih hes _ _ (by simpa using he)

/-! ### The command -/

/-- The chain of R240, its points and degenerate bits named. -/
theorem tab_of_chain {b1 b2 b3 b5 b7 : Point} {z3 z5 z7 : Bool} (h2 : b2 = dbl b1)
    (h3 : (b3, z3) = addp b2 b1) (h5 : (b5, z5) = addp b3 b2) (h7 : (b7, z7) = addp b5 b2) :
    tab b1 = ([b1, b3, b5, b7], z3 || z5 || z7) := by
  simp only [tab, ← h2, ← h3, ← h5, ← h7]

theorem any_isInf_eq_decide (b1 b3 b5 b7 : Point) : [b1, b3, b5, b7].any Point.isInf =
    decide (b1 = .inf ∨ b3 = .inf ∨ b5 = .inf ∨ b7 = .inf) := by
  simp [Point.isInf_eq_decide]

/-- In range, with the base readable, TBLD retires with the table of the reduced base. -/
theorem exec_tbld_of_readPt {s : State} {L : Lane} {d a : Addr} {p : Point} (hL : s.cur = some L)
    (hd : d.toNat + 96 ≤ s.omWords) (ha : a.toNat + 17 ≤ s.omWords) (hp : readPt L.om a.toNat = some p) :
    exec (.tbld d a) s = .next (s.setCur (L.retire (.table d (tab p.reduce).1 (tab p.reduce).2))) := by
  have ho : destOperand (.tbld d a) ++ sourceOperands (.tbld d a) = [(d.toNat, 96), (a.toNat, 17)] := rfl
  have hin : inRange s.omWords (.tbld d a) = true := inRange_iff.2 (by simp [ho, hd, ha])
  exact exec_of_point (f := fun p => .table d (tab p.reduce).1 (tab p.reduce).2) rfl hL hin hp

/-- Settles O35: TBLD writes the four entries of `tab`, which are those of the chain. -/
theorem tbldWritesOddMultiples : Obligations.TbldWritesOddMultiples :=
  ⟨fun _ _ => ⟨encodesAs_fields rfl, rangeFault_operands rfl⟩,
    illegalExactly_opcode .tbld,
    assembles_of_line rfl (by decide) (by decide),
    fun s L d a p b1 b2 b3 b5 b7 z3 z5 z7 hL hd ha hp h1 h2 h3 h5 h7 => by
      subst h1
      have htab := tab_of_chain h2 h3 h5 h7
      have hexec := exec_tbld_of_readPt hL hd ha hp
      have hcanon := tab_canonical (reduce_canonical p)
      rw [htab] at hexec hcanon
      refine ⟨L.om.writeList d.toNat (tableWords [p.reduce, b3, b5, b7]), ?_, ?_, fun x hx =>
        Memory.read_writeList_outside _ _ (by rwa [length_tableWords])⟩
      · rw [hexec, ← any_isInf_eq_decide]
        rfl
      · have hentry := fun k e => holdsEntry_writeList_tableWords hcanon L.om d.toNat (k := k) (e := e)
        simp only [List.forall_mem_cons]
        exact ⟨hentry 0 _ rfl, hentry 1 _ rfl, hentry 2 _ rfl, hentry 3 _ rfl, by simp⟩⟩

end Sys2Proof.Machine
end

section
/-! Faults and the host's moves (60_exceptions.md): which words decode (R263), the turn of a lane with an illegal
word or a command (R265, R266), the operands past the end (R264), and issue, STATUS read and STATUS write
(R282 to R284). -/

namespace Sys2Proof

/-! ### Opcode numbers with a property -/

theorem Opcode.exists_code_eq_iff (n : Nat) : (∃ op : Opcode, n = op.code) ↔
    n ∈ [0x01, 0x02, 0x03, 0x04, 0x05, 0x06, 0x07, 0x08, 0x10, 0x11, 0x12, 0x20, 0x21,
      0x30, 0x31, 0x32, 0x33, 0x40] := by
  constructor
  · rintro ⟨op, rfl⟩
    cases op <;> decide
  · intro h
    fin_cases h
    exacts [⟨.add, rfl⟩, ⟨.sub, rfl⟩, ⟨.cmp, rfl⟩, ⟨.tst, rfl⟩, ⟨.shl1, rfl⟩, ⟨.shr1, rfl⟩, ⟨.mov, rfl⟩,
      ⟨.ldk, rfl⟩, ⟨.addm, rfl⟩, ⟨.subm, rfl⟩, ⟨.negm, rfl⟩, ⟨.mulm, rfl⟩, ⟨.invm, rfl⟩, ⟨.pdbl, rfl⟩,
      ⟨.padd, rfl⟩, ⟨.pneg, rfl⟩, ⟨.pchk, rfl⟩, ⟨.tbld, rfl⟩]

theorem Opcode.takesM_iff (op : Opcode) :
    op.takesM = true ↔ op.code ∈ [0x10, 0x11, 0x12, 0x20, 0x21] := by cases op <;> decide

theorem Opcode.kindD_eq_unused_iff (op : Opcode) :
    op.kindD = .unused ↔ op.code ∈ [0x03, 0x04, 0x33] := by cases op <;> decide

theorem Opcode.kindB_eq_unused_iff (op : Opcode) :
    op.kindB = .unused ↔ op.code ∉ [0x01, 0x02, 0x03, 0x10, 0x11, 0x20, 0x31] := by cases op <;> decide

theorem Opcode.kindA_eq_constant_iff (op : Opcode) : op.kindA = .constant ↔ op.code = 0x08 := by
  cases op <;> decide

end Sys2Proof

namespace Sys2Proof.Machine

/-! ### The words that decode -/

theorem not_rsvSet_iff (w : Cmd) : ¬ rsvSet w ↔ rsvField w = 0 := not_not

theorem not_dSet_iff (w : Cmd) : ¬ dSet w ↔ dField w = 0 := not_not

theorem not_bSet_iff (w : Cmd) : ¬ bSet w ↔ bField w = 0 := not_not

/-- A word decodes exactly when it meets none of the conditions of R263, each said on its bits. -/
theorem decode_ok_iff_bits (w : Cmd) : (∃ i, decode w = .ok i) ↔
    opcField w ∈ [0x01, 0x02, 0x03, 0x04, 0x05, 0x06, 0x07, 0x08, 0x10, 0x11, 0x12, 0x20, 0x21,
      0x30, 0x31, 0x32, 0x33, 0x40] ∧
    ¬ rsvSet w ∧
    (mSet w → opcField w ∈ [0x10, 0x11, 0x12, 0x20, 0x21]) ∧
    (dSet w → opcField w ∉ [0x03, 0x04, 0x33]) ∧
    (bSet w → opcField w ∈ [0x01, 0x02, 0x03, 0x10, 0x11, 0x20, 0x31]) ∧
    (opcField w = 0x08 → (w.extractLsb' 32 16).toNat < 7) := by
  rw [← Opcode.exists_code_eq_iff]
  by_cases hop : ∃ op : Opcode, opcField w = op.code
  · obtain ⟨op, hop⟩ := hop
    rw [decode_ok_of_opcode op w hop, hop, Opcode.takesM_iff, Opcode.kindD_eq_unused_iff,
      Opcode.kindB_eq_unused_iff, Opcode.kindA_eq_constant_iff, ← not_rsvSet_iff, ← not_dSet_iff,
      imp_not_comm, ← not_bSet_iff, not_imp_not]
    have hcode : ∃ op' : Opcode, op.code = op'.code := ⟨op, rfl⟩
    rw [and_iff_right hcode, ← Nat.lt_succ_iff]
    rfl
  · refine iff_of_false ?_ fun h => hop h.1
    rintro ⟨i, h⟩
    obtain ⟨op, hcode, -⟩ := (decode_eq_ok_iff w i).1 h
    exact hop ⟨op, (Opcode.code_of_ofCode hcode).symm⟩

/-! ### A lane's turn -/

/-- A lane that exists answers as `f` says. -/
theorem State.onLane_eq {s : State} {l : Nat} {L : Lane} (hL : s.lane l = some L) (f : Lane → Out) :
    s.onLane l f = f L := by
  rw [State.onLane, hL]

/-- An illegal word in flight takes the fault entry (R263, R266). -/
theorem laneTurn_of_decode_error {s : State} {l : Nat} {L : Lane} {f : InFlight} {e : DecodeError}
    (hL : s.lane l = some L) (hf : L.inFlight = some f) (he : decode f.cmd = .error e) :
    perform (.laneTurn l) s = .next ({ s with active := l }.setLane l (faulted L 1 f.cmd)) := by
  have hcur : ({ s with active := l } : State).cur = some L := hL
  rw [laneTurn_eq hL hf, runInFlight, he]
  simp only [State.enterFault, hcur]
  rfl

theorem settle_of_undisturbed {s : State} {i : Instr} {f : InFlight} {dz0 : Bool}
    (hf : f.disturbed = false) (o : Out) : settle s i f dz0 o = o := by
  cases o <;> simp [settle, hf]

/-- A command in flight that the host left alone is executed. -/
theorem laneTurn_of_decode_ok {s : State} {l : Nat} {L : Lane} {f : InFlight} {i : Instr}
    (hL : s.lane l = some L) (hf : L.inFlight = some f) (hu : f.disturbed = false)
    (hi : decode f.cmd = .ok i) : perform (.laneTurn l) s = exec i { s with active := l } := by
  rw [laneTurn_eq hL hf, runInFlight, hi]
  exact settle_of_undisturbed hu _

/-- BUSY = 0 and no command is in flight. -/
def Lane.AtRest (L : Lane) : Prop := L.status.busy = false ∧ L.inFlight = none

theorem Ran.atRest {omWords : Nat} {i : Instr} {L L' : Lane} (h : Ran omWords i L L') : L'.AtRest := by
  cases h <;> exact ⟨rfl, rfl⟩

/-- Whatever the command in flight did, its turn leaves the lane at rest (70_reset_and_hazards.md R296). -/
theorem LaneMove.atRest_of_turn {omWords fresh l : Nat} {L L' : Lane} {f : InFlight}
    (h : LaneMove omWords fresh (.laneTurn l) L L') (hf : L.inFlight = some f) : L'.AtRest := by
  cases h with
  | idleTurn _ _ hidle => rw [hf] at hidle; cases hidle
  | illegal => exact ⟨rfl, rfl⟩
  | ran _ _ _ _ _ _ _ hr => exact hr.atRest
  | ranDisturbed _ _ _ _ _ _ _ hr => exact hr.atRest

/-! ### The faults -/

/-- Settles O6: a word that meets a condition of R263 does not decode, so that its turn is the fault entry, and
every other word decodes. -/
theorem illegalWordTakesFault : Obligations.IllegalWordTakesFault := by
  intro s l L f hL hf opc legal
  have hlegal : (∃ i, decode f.cmd = .ok i) ↔ legal := decode_ok_iff_bits f.cmd
  refine ⟨fun hbad => ?_, hlegal.2⟩
  obtain ⟨e, he⟩ := (decode_error_iff f.cmd).2 (hlegal.not.2 hbad)
  exact laneTurn_of_decode_error hL hf he

theorem destTable_eq (i : Instr) : destTable i = destOperand i := by cases i <;> rfl

theorem sourceTable_eq (i : Instr) : sourceTable i = sourceOperands i := by cases i <;> rfl

/-- Settles O7: the statement's operands are those of the range check, which comes before the rule. -/
theorem operandPastEndTakesFault : Obligations.OperandPastEndTakesFault := by
  intro i s L hi hL hfits
  rw [Fits, destTable_eq, sourceTable_eq] at hfits
  push Not at hfits
  exact rangeFault_operands hi s L hL hfits

/-! ### HostIssue -/

/-- Settles O43: issue drops or accepts, and the turn of an accepted word leaves the lane at rest. -/
theorem hostIssueAcceptsOrDrops : Obligations.HostIssueAcceptsOrDrops := by
  refine ⟨fun s l L c hL => ?_, fun s l L c hL hf =>
    ⟨fun e he => laneTurn_of_decode_error hL hf he, fun i hi => laneTurn_of_decode_ok hL hf rfl hi,
      fun t ht => ?_⟩⟩
  · rw [perform, hostIssue, State.onLane_eq hL]
    split
    · rename_i hdrop
      rw [Lane.issue_dropped c hdrop]
      rfl
    · rename_i haccept
      rw [Lane.issue_accepted c haccept]
      rfl
  · obtain ⟨K, L', hK, hmove, hlanes, -⟩ := perform_next ht
    obtain rfl : L = K := Option.some.inj (hL.symm.trans hK)
    have hlane : t.lane l = some L' := by
      rw [State.lane, hlanes]
      exact List.getElem?_set_self (State.lane_lt hL)
    exact ⟨L', hlane, hmove.atRest_of_turn hf⟩

/-! ### STATUS -/

/-- The bits of STATUS, from bit 0 up (10_state.md R36). -/
theorem Status.getLsbD_word (t : Status) {k : Nat} (hk : k < 32) : t.word.getLsbD k =
    Nat.testBit (Nat.bit t.c <| Nat.bit t.z <| Nat.bit t.inf <| Nat.bit t.dz <| Nat.bit t.busy <|
      Nat.bit t.ovr <| Nat.bit t.flt <| Nat.bit false t.fcause.toNat) k := by
  rw [Status.word, BitVec.getLsbD_ofNat, decide_eq_true hk, Bool.true_and]
  simp only [Nat.bit_val, Bool.toNat_false]
  congr 1
  omega

/-- FCAUSE stands above the eight flag bits. -/
theorem Status.toNat_word_div (t : Status) : t.word.toNat / 2 ^ 8 = t.fcause.toNat := by
  have := t.c.toNat_lt; have := t.z.toNat_lt; have := t.inf.toNat_lt; have := t.dz.toNat_lt
  have := t.busy.toNat_lt; have := t.ovr.toNat_lt; have := t.flt.toNat_lt; have := t.fcause.isLt
  rw [Status.word, BitVec.toNat_ofNat]
  omega

theorem Status.extractLsb'_word_fcause (t : Status) : t.word.extractLsb' 8 4 = t.fcause := by
  apply BitVec.eq_of_toNat_eq
  rw [BitVec.extractLsb'_toNat, Nat.shiftRight_eq_div_pow, t.toNat_word_div]
  exact Nat.mod_eq_of_lt t.fcause.isLt

theorem Status.extractLsb'_word_reserved (t : Status) : t.word.extractLsb' 12 20 = 0 := by
  have hdiv := t.toNat_word_div
  have hlt := t.fcause.isLt
  apply BitVec.eq_of_toNat_eq
  rw [BitVec.extractLsb'_toNat, Nat.shiftRight_eq_div_pow]
  change t.word.toNat / 2 ^ 12 % 2 ^ 20 = 0
  omega

/-- Settles O44: the reply is the STATUS word, whose low bits are the flags and above them FCAUSE. -/
theorem hostReadsStatusWord : Obligations.HostReadsStatusWord := by
  intro s l L hL
  refine ⟨L.status.word, by rw [perform, hostReadStatus, State.onLane_eq hL], ?_⟩
  simp (disch := decide) only [Status.getLsbD_word, Status.extractLsb'_word_fcause,
    Status.extractLsb'_word_reserved, Nat.testBit_bit_zero, Nat.testBit_bit_succ, and_self]

theorem and_not_eq_ite (a b : Bool) : (a && !b) = if b = true then false else a := by
  cases b <;> simp

/-- Settles O45: a status write is `Status.hostWrite` on the lane. -/
theorem hostWriteStatusClearsByOnes : Obligations.HostWriteStatusClearsByOnes := by
  intro s l L v hL
  rw [perform, hostWriteStatus, State.onLane_eq hL, Lane.writeStatus, Status.hostWrite]
  simp only [and_not_eq_ite]

end Sys2Proof.Machine
end

section
/-! Commands and their words (30_encoding.md): decoding and encoding are inverse to each other (R102), the match and
mask of an opcode (R103), and the worked lines of assembler text (R105, R106). -/

namespace Sys2Proof

/-! ### The fields of a word -/

/-- Words with the same fields are the same word (R91). -/
theorem cmd_ext {v w : Cmd} (hopc : opcField v = opcField w) (hrsv : rsvField v = rsvField w)
    (hm : mField v = mField w) (hd : dField v = dField w) (ha : aField v = aField w)
    (hb : bField v = bField w) : v = w := by
  rw [← cmd_of_fields v, ← cmd_of_fields w, hopc, hrsv, hm, hd, ha, hb]

/-! ### Match and mask -/

/-- The mask has the ones that `cond` asks for, or none. -/
def onesIf (cond : Bool) (n : Nat) : BitVec n := if cond then BitVec.allOnes n else 0

theorem and_onesIf_eq_zero_iff {n : Nat} (cond : Bool) (x : BitVec n) :
    x &&& onesIf cond n = 0 ↔ (cond = true → x = 0) := by
  cases cond <;> simp [onesIf]

theorem Opcode.maskWord_fields (op : Opcode) :
    op.maskWord.extractLsb' 0 8 = BitVec.allOnes 8 ∧ rsvField op.maskWord = BitVec.allOnes 7 ∧
      mField op.maskWord = !op.takesM ∧ dField op.maskWord = onesIf (op.kindD = .unused) 16 ∧
      aField op.maskWord = 0 ∧ bField op.maskWord = onesIf (op.kindB = .unused) 16 := by
  cases op <;> decide

theorem Opcode.matchWord_fields (op : Opcode) :
    opcField op.matchWord = op.code ∧ rsvField op.matchWord = 0 ∧ mField op.matchWord = false ∧
      dField op.matchWord = 0 ∧ aField op.matchWord = 0 ∧ bField op.matchWord = 0 := by
  cases op <;> decide

/-- Under the mask a word keeps OPC and RSV, and the fields the opcode does not use. -/
theorem Opcode.and_maskWord_fields (op : Opcode) (w : Cmd) :
    opcField (w &&& op.maskWord) = opcField w ∧ rsvField (w &&& op.maskWord) = rsvField w ∧
      mField (w &&& op.maskWord) = (mField w && !op.takesM) ∧
      dField (w &&& op.maskWord) = dField w &&& onesIf (op.kindD = .unused) 16 ∧
      aField (w &&& op.maskWord) = 0 ∧
      bField (w &&& op.maskWord) = bField w &&& onesIf (op.kindB = .unused) 16 := by
  obtain ⟨hopc, hrsv, hm, hd, ha, hb⟩ := op.maskWord_fields
  simp only [opcField, rsvField, mField, dField, aField, bField] at *
  simp only [BitVec.extractLsb'_and, BitVec.getLsbD_and, hopc, hrsv, hm, hd, ha, hb, BitVec.and_allOnes]
  simp

theorem Opcode.and_maskWord_eq_matchWord_iff (op : Opcode) (w : Cmd) : w &&& op.maskWord = op.matchWord ↔
    opcField w = op.code ∧ rsvField w = 0 ∧ (mField w = true → op.takesM = true) ∧
      (op.kindD = .unused → dField w = 0) ∧ (op.kindB = .unused → bField w = 0) := by
  obtain ⟨wopc, wrsv, wm, wd, wa, wb⟩ := op.and_maskWord_fields w
  obtain ⟨mopc, mrsv, mm, md, ma, mb⟩ := op.matchWord_fields
  have hfields : w &&& op.maskWord = op.matchWord ↔
      opcField w = op.code ∧ rsvField w = 0 ∧ (mField w && !op.takesM) = false ∧
        dField w &&& onesIf (op.kindD = .unused) 16 = 0 ∧ bField w &&& onesIf (op.kindB = .unused) 16 = 0 := by
    constructor
    · intro h
      rw [h] at wopc wrsv wm wd wb
      exact ⟨wopc.symm.trans mopc, wrsv.symm.trans mrsv, wm.symm.trans mm, wd.symm.trans md, wb.symm.trans mb⟩
    · rintro ⟨hopc, hrsv, hm, hd, hb⟩
      exact cmd_ext (by rw [wopc, mopc, hopc]) (by rw [wrsv, mrsv, hrsv]) (by rw [wm, mm, hm])
        (by rw [wd, md, hd]) (by rw [wa, ma]) (by rw [wb, mb, hb])
  rw [hfields, and_onesIf_eq_zero_iff, and_onesIf_eq_zero_iff]
  simp

/-- The opcode of a command is the one its word's OPC names. -/
theorem exists_decode_opcode_iff (op : Opcode) (w : Cmd) : (∃ i, decode w = .ok i ∧ i.opcode = op) ↔
    opcField w = op.code ∧ ∃ i, decode w = .ok i := by
  have opcode_of {i : Instr} (h : decode w = .ok i) : opcField w = i.opcode.code := by
    obtain ⟨op', hop', -, -, -, -, -, -, rfl⟩ := (decode_eq_ok_iff w i).1 h
    rw [Opcode.opcode_build, Opcode.code_of_ofCode hop']
  constructor
  · rintro ⟨i, hi, rfl⟩
    exact ⟨opcode_of hi, i, hi⟩
  · rintro ⟨hop, i, hi⟩
    refine ⟨i, hi, Option.some.inj ?_⟩
    rw [← Opcode.ofCode_code, ← Opcode.ofCode_code, ← opcode_of hi, hop]

end Sys2Proof

namespace Sys2Proof.Machine

/-- Settles O1: a command's word passes the decoder's steps, and its fields build the command again. -/
theorem decodeOfEncodeIsIdentity : Obligations.DecodeOfEncodeIsIdentity :=
  fun _ hi => decode_encode hi

/-- Settles O2: the word is that of its command, so that two words of one command are equal. -/
theorem legalWordsDecodeInjectively : Obligations.LegalWordsDecodeInjectively := by
  refine ⟨fun w => ?_, fun w i h => ⟨wellFormed_of_decode h, encode_of_decode h⟩, fun w w' i h h' => ?_⟩
  · cases h : decode w with
    | ok i => exact .inl ⟨i, rfl⟩
    | error e => exact .inr ⟨e, rfl⟩
  · rw [← encode_of_decode h, encode_of_decode h']

/-- Settles O3: match and mask say of a word's fields what the decoder asks of them, but for the constant index of
LDK; the table's values are computed. -/
theorem matchAndMaskDecideLegality : Obligations.MatchAndMaskDecideLegality := by
  refine ⟨fun op w => ?_, by decide⟩
  have hldk : op.kindA = .constant ↔ op = .ldk := by cases op <;> decide
  rw [exists_decode_opcode_iff, Opcode.and_maskWord_eq_matchWord_iff, ← hldk, and_assoc]
  refine and_congr_right fun hop => ?_
  rw [decode_ok_of_opcode op w hop]
  simp only [and_assoc, aField]

/-- Settles O4: the text and the words are computed; each word decodes because its command is well formed. -/
theorem workedEncodingsDecode : Obligations.WorkedEncodingsDecode := by
  unfold Obligations.WorkedEncodingsDecode
  simp only [List.forall_mem_cons]
  exact ⟨assembles_of_line rfl (by decide) (by decide), assembles_of_line rfl (by decide) (by decide),
    assembles_of_line rfl (by decide) (by decide), assembles_of_line rfl (by decide) (by decide),
    assembles_of_line rfl (by decide) (by decide), assembles_of_line rfl (by decide) (by decide), by simp⟩

/-- Settles O5: both lines of each pair assemble, to one command. -/
theorem pseudoInstructionsExpand : Obligations.PseudoInstructionsExpand := by
  unfold Obligations.PseudoInstructionsExpand
  decide

end Sys2Proof.Machine
end

section
/-! One command on the lane under execution (60_exceptions.md R261, 70_reset_and_hazards.md R293): in terms of the
statements' operand tables it completes, takes ADDRESS_RANGE or ends in UNINIT; the turn that runs it; and LDK, which
reads no operand (40_adder_subtractor.md R128). -/

namespace Sys2Proof.Machine

/-! ### The statements' operand tables are the model's -/

theorem fits_iff {n : Nat} {i : Instr} : Fits n i ↔ inRange n i = true := by
  rw [Fits, destTable_eq, sourceTable_eq, inRange_iff]

theorem written_iff {m : Memory} {i : Instr} : Written m i ↔ sourcesWritten m i = true := by
  simp only [Written, sourceTable_eq, sourcesWritten, List.all_eq_true, Memory.readList_isSome_iff]

/-! ### What a command answers -/

/-- Settles O8: in range and with its sources written the command retires, which keeps the fault registers. -/
theorem noOperandValueFaults : Obligations.NoOperandValueFaults := by
  intro i s L hi hL hfits hwritten
  obtain ⟨r, hr, -⟩ := exec_of_written hi hL (fits_iff.1 hfits) (written_iff.1 hwritten)
  exact ⟨L.retire r, hr, rfl, rfl, rfl, rfl, rfl, rfl⟩

/-- Settles O9: out of range the command takes a fault entry, in range it retires or ends in UNINIT, as its sources
are written or not. -/
theorem commandStopsOnlyOnUnwrittenWord : Obligations.CommandStopsOnlyOnUnwrittenWord := by
  intro i s L hi hL
  by_cases hfits : Fits s.omWords i
  · by_cases hwritten : Written L.om i
    · obtain ⟨r, hr, -⟩ := exec_of_written hi hL (fits_iff.1 hfits) (written_iff.1 hwritten)
      simp [hr, hwritten]
    · have hstop : exec i s = .fault .uninit :=
        exec_of_unwritten hi hL (fits_iff.1 hfits) (by simpa [written_iff] using hwritten)
      simp [hstop, hfits, hwritten]
  · simp [operandPastEndTakesFault i s L hi hL hfits, hfits]

/-! ### The turn -/

theorem laneTurn_of_idle {s : State} {l : Nat} {L : Lane} (hL : s.lane l = some L) (hf : L.inFlight = none) :
    perform (.laneTurn l) s = .next s := by
  rw [perform, laneTurn, State.onLane_eq hL, hf]

theorem step_of_agenda {s : State} {m : Move} {rest : List Move} (h : s.agenda = m :: rest) :
    step s = perform m { s with agenda := rest } := by
  rw [step, h]

/-- Settles O10: the step is the turn of the lane, which runs the command in flight or does nothing. -/
theorem stepRunsDecodedCommand : Obligations.StepRunsDecodedCommand := by
  refine ⟨fun s l rest L f i ha hL hf hu hi => ?_, fun s l rest L ha hL hf => ?_⟩
  · exact (step_of_agenda ha).trans (laneTurn_of_decode_ok (s := { s with agenda := rest }) hL hf hu hi)
  · exact (step_of_agenda ha).trans (laneTurn_of_idle (s := { s with agenda := rest }) hL hf)

/-! ### LDK -/

/-- The list of constants that the statement on LDK writes out is the ROM. -/
theorem getElem?_constants (k : Nat) :
    [0, 1, 2 ^ 256 - 2 ^ 32 - 977, orderN, baseX, baseY, 7][k]? = rom k := by
  rcases Nat.lt_or_ge k 7 with hk | hk
  · interval_cases k <;> rfl
  · rw [(rom_eq_none_iff k).2 hk, List.getElem?_eq_none hk]

theorem rom_lt {k v : Nat} (h : rom k = some v) : v < W := by
  unfold rom at h
  split at h <;> cases h <;> decide

/-- Settles O18: LDK runs the rule that answers the constant and reads nothing, so that only d is range-checked. -/
theorem ldkLoadsRomConstant : Obligations.LdkLoadsRomConstant := by
  refine ⟨fun d k hk => ?_, illegalExactly_opcode .ldk, assembles_of_line rfl (by decide) (by decide),
    assembles_of_line rfl (by decide) (by decide), fun s L d k v hL hd hv => ?_⟩
  · have hi : (Instr.ldk d k).wellFormed = true := by simpa [Instr.wellFormed] using Nat.le_of_lt_succ hk
    exact ⟨encodesAs_fields hi, rangeFault_operands hi⟩
  · rw [getElem?_constants] at hv
    have ho : destOperand (.ldk d k) ++ sourceOperands (.ldk d k) = [(d.toNat, 8)] := rfl
    have hin : inRange s.omWords (.ldk d k) = true := inRange_iff.2 (by simp [ho, hd])
    exact completesElement_of_retire (((RuleOf.ofLdk hv).exec_eq s).trans (runRule_of_rule hL hin rfl)) (rom_lt hv)

/-- Settles O41: all of it is computed, but that there is no eighth constant. -/
theorem romHoldsCurveConstants : Obligations.RomHoldsCurveConstants :=
  ⟨by decide, by decide, by decide, rfl, rfl, rfl, rfl, rfl, rfl, rfl, fun k => (rom_eq_none_iff k).2,
    by decide +kernel, by decide⟩

end Sys2Proof.Machine
end

section
/-! The step and the lanes: it changes one lane at most (60_exceptions.md R276), when it changes the flags of a lane
(10_state.md R34), and that it keeps the invariant (10_state.md R36 to R39, 20_memory.md R71), which power-on
establishes. -/

namespace Sys2Proof.Machine

/-! ### The frame of a step -/

theorem State.exists_lane_of_mem {s : State} {L : Lane} (h : L ∈ s.lanes) : ∃ l, s.lane l = some L :=
  List.mem_iff_getElem?.1 h

theorem State.exists_lane_of_lt {s : State} {l : Nat} (h : l < s.lanes.length) : ∃ L, s.lane l = some L :=
  ⟨_, List.getElem?_eq_getElem h⟩

/-- A step performs one move, or nothing where the agenda is empty and every lane idle. -/
theorem step_perform {s t : State} (h : step s = .next t) :
    (∃ m u, s.Makes m ∧ perform m u = .next t ∧ u.lanes = s.lanes ∧ u.omWords = s.omWords ∧
      u.active = s.active) ∨ (s.nextMove = none ∧ t = s) := by
  obtain ⟨m, rest, ha, hp⟩ | ⟨ha, k, -, hp⟩ | ⟨ha, -, rfl⟩ := step_next h
  · exact .inl ⟨m, _, .inl (by simp [State.nextMove, ha]), hp, rfl, rfl, rfl⟩
  · exact .inl ⟨.laneTurn k, s, .inr ⟨by simp [State.nextMove, ha], k, rfl⟩, hp, rfl, rfl, rfl⟩
  · exact .inr ⟨by simp [State.nextMove, ha], rfl⟩

/-- Settles O53: the lanes after a move are those before it with the move's own lane replaced. -/
theorem stepChangesOneLane : Obligations.StepChangesOneLane := by
  intro s t h
  obtain ⟨m, u, hm, hp, hlanes, hom, -⟩ | ⟨hnone, rfl⟩ := step_perform h
  · obtain ⟨L, L', -, -, htlanes, htom, -⟩ := perform_next hp
    rw [hlanes] at htlanes
    refine ⟨htom.trans hom, by simp [htlanes], m.lane, fun m' hm' => by rw [hm.eq_nextMove hm'], fun l hl => ?_⟩
    rw [State.lane, htlanes, List.getElem?_set_ne hl.symm, State.lane]
  · exact ⟨rfl, rfl, 0, by simp [hnone], fun _ _ => rfl⟩

/-- Every lane after a step was one before it. -/
theorem step_exists_lane {s t : State} (h : step s = .next t) {L' : Lane} (hL' : L' ∈ t.lanes) :
    ∃ l L, s.lane l = some L ∧ t.lane l = some L' := by
  obtain ⟨-, hlen, -⟩ := stepChangesOneLane s t h
  obtain ⟨l, hl'⟩ := State.exists_lane_of_mem hL'
  obtain ⟨L, hl⟩ := State.exists_lane_of_lt (hlen ▸ State.lane_lt hl')
  exact ⟨l, L, hl, hl'⟩

/-! ### Flags -/

/-- C, Z and INF are the same in both. -/
structure SameFlags (t t' : Status) : Prop where
  c : t'.c = t.c
  z : t'.z = t.z
  inf : t'.inf = t.inf

/-- The command in flight has completed without a fault. -/
structure Completed (L L' : Lane) : Prop where
  inFlight : ∃ f, L.inFlight = some f
  atRest : L'.AtRest
  regs : SameFaultRegs L L'

theorem Lane.issue_sameFlags (L : Lane) (c : Cmd) :
    SameFlags L.status (L.issue c).status ∧ (L.issue c).status.dz = L.status.dz := by
  unfold Lane.issue
  split <;> exact ⟨⟨rfl, rfl, rfl⟩, rfl⟩

/-- What a move can do to the flags of its lane: a reset clears them, a status write clears at most DZ, a completed
command keeps a DZ that is set, and every other move changes none. -/
inductive FlagMove (L : Lane) : Move → Lane → Prop where
  | wasReset (l : Nat) (L' : Lane) : FlagMove L (.hostReset l) L'
  | wroteStatus (l : Nat) (v : Word) (L' : Lane) (hsame : SameFlags L.status L'.status)
      (hdz : L'.status.dz = (L.status.dz && !v.getLsbD 3)) : FlagMove L (.hostWriteStatus l v) L'
  | completed (m : Move) (L' : Lane) (hdone : Completed L L') (hdz : L.status.dz = true → L'.status.dz = true) :
      FlagMove L m L'
  | kept (m : Move) (L' : Lane) (hsame : SameFlags L.status L'.status) (hdz : L'.status.dz = L.status.dz) :
      FlagMove L m L'

theorem LaneMove.flags {omWords fresh : Nat} {m : Move} {L L' : Lane} (h : LaneMove omWords fresh m L L') :
    FlagMove L m L' := by
  cases h with
  | wasReset l => exact .wasReset l _
  | wroteStatus l v => exact .wroteStatus l v _ ⟨rfl, rfl, rfl⟩ rfl
  | issued l c =>
    obtain ⟨hsame, hdz⟩ := L.issue_sameFlags c
    exact .kept _ _ hsame hdz
  | ran _ _ f hf i hd _ hr =>
    obtain ⟨-, rfl⟩ | ⟨-, r, rfl, -, -⟩ := hr.of_decode hd
    · exact .kept _ _ ⟨rfl, rfl, rfl⟩ rfl
    · exact .completed _ _ ⟨⟨f, hf⟩, ⟨rfl, rfl⟩, ⟨rfl, rfl, rfl, rfl⟩⟩ fun hdz => by simp [hdz]
  | ranDisturbed _ _ f hf i hd _ hr _ hin =>
    obtain ⟨hout, -⟩ | ⟨-, r, rfl, -, -⟩ := hr.of_decode hd
    · rw [hin] at hout; cases hout
    · exact .completed _ _ ⟨⟨f, hf⟩, ⟨rfl, rfl⟩, ⟨rfl, rfl, rfl, rfl⟩⟩ fun hdz => by simp [hdz]
  | wrote | wroteOutside | readOM | readOMTouch | readStatus | readFCMD | idleTurn | illegal =>
    exact .kept _ _ ⟨rfl, rfl, rfl⟩ rfl

/-- Settles O52: of what a move can do to the flags, only a reset and a status write with bit 3 clear DZ, and only a
reset and a completed command write the others. -/
theorem flagsChangeOnlyOnCompletion : Obligations.FlagsChangeOnlyOnCompletion := by
  intro s t l L L' hstep hL hL'
  obtain ⟨m, hm, ⟨rfl, hmove⟩ | ⟨-, rfl⟩⟩ := step_lane hstep hL hL'
  · cases hmove.flags with
    | wasReset l =>
      have hnext := hm.nextMove_eq nofun
      exact ⟨fun _ _ => .inl hnext, fun _ => .inl hnext⟩
    | wroteStatus l v _ hsame hdz =>
      refine ⟨fun hset hclear => .inr ⟨v, hm.nextMove_eq nofun, ?_⟩, by simp [hsame.c, hsame.z, hsame.inf]⟩
      simpa [hdz, hset] using hclear
    | completed _ _ hdone hdz =>
      obtain ⟨hf, ⟨hbusy, hnone⟩, hregs⟩ := hdone
      exact ⟨fun hset hclear => by simp [hdz hset] at hclear,
        fun _ => .inr ⟨hf, hnone, hbusy, hregs.flt, hregs.fcmd⟩⟩
    | kept _ _ hsame hdz =>
      exact ⟨fun hset hclear => by simp [hdz, hset] at hclear, by simp [hsame.c, hsame.z, hsame.inf]⟩
  · exact ⟨fun hset hclear => by simp [hset] at hclear, by simp⟩

/-! ### The invariant -/

/-- OM is canonical and lies below OM_WORDS. -/
def Memory.Good (n : Nat) (m : Memory) : Prop := m.wf ∧ ∀ c ∈ m, c.1 < n

theorem Memory.Good.write {n : Nat} {m : Memory} (h : m.Good n) {a : Nat} (ha : a < n) (w : Word) :
    (m.write a w).Good n := by
  refine ⟨Memory.write_wf h.1 a w, fun c hc => ?_⟩
  obtain rfl | hc := Memory.mem_write hc
  · exact ha
  · exact h.2 c hc

theorem Memory.Good.writeList {n : Nat} {m : Memory} (h : m.Good n) {a : Nat} {ws : List Word}
    (ha : ws = [] ∨ a + ws.length ≤ n) : (m.writeList a ws).Good n := by
  obtain rfl | ha := ha
  · exact h
  · refine ⟨Memory.writeList_wf h.1 a ws, fun c hc => ?_⟩
    obtain hc | ⟨-, hlt⟩ := Memory.mem_writeList hc
    · exact h.2 c hc
    · exact hlt.trans_le ha

theorem Memory.Good.forget {n : Nat} {m : Memory} (h : m.Good n) (a k : Nat) : (m.forget a k).Good n :=
  ⟨Memory.forget_wf h.1 a k, fun c hc => h.2 c (Memory.mem_forget hc)⟩

theorem Memory.Good.foldl_forget {n : Nat} {m : Memory} (h : m.Good n) (os : List (Nat × Nat)) :
    (os.foldl (fun m o => m.forget o.1 o.2) m).Good n := by
  induction os generalizing m with
  | nil => exact h
  | cons o os ih => exact ih (h.forget o.1 o.2)

/-- The part of a lane's invariant that is not about FCAUSE. -/
structure Lane.Sound (n : Nat) (L : Lane) : Prop where
  om : L.om.Good n
  busy_iff : L.status.busy = L.inFlight.isSome
  halted_idle : L.status.flt = true → L.status.busy = false

theorem Lane.inv_iff {n : Nat} {L : Lane} : L.Inv n ↔ L.Sound n ∧ L.status.FcauseFits :=
  ⟨fun h => ⟨⟨⟨h.om_wf, h.om_bound⟩, h.busy_iff, h.halted_idle⟩, h.fcause_flt, h.fcause_clear⟩,
    fun ⟨h, hset, hclear⟩ => ⟨h.om.1, h.om.2, h.busy_iff, h.halted_idle, hset, hclear⟩⟩

theorem Lane.AtRest.sound {n : Nat} {L : Lane} (h : L.AtRest) (hom : L.om.Good n) : L.Sound n :=
  ⟨hom, by rw [h.1, h.2]; rfl, fun _ => h.1⟩

theorem Lane.Sound.touch {n : Nat} {L : Lane} (h : L.Sound n) : L.touch.Sound n :=
  ⟨h.om, by simp [h.busy_iff], h.halted_idle⟩

theorem Lane.Sound.issue {n : Nat} {L : Lane} (h : L.Sound n) (c : Cmd) : (L.issue c).Sound n := by
  by_cases hdrop : L.status.busy = true ∨ L.status.flt = true
  · rw [Lane.issue_dropped c hdrop]
    exact ⟨h.om, h.busy_iff, h.halted_idle⟩
  · rw [Lane.issue_accepted c hdrop]
    exact ⟨h.om, rfl, fun hflt => absurd (.inr hflt) hdrop⟩

theorem Lane.Sound.writeStatus {n : Nat} {L : Lane} (h : L.Sound n) (v : Word) : (L.writeStatus v).Sound n :=
  ⟨h.om, h.busy_iff, fun hflt => h.halted_idle (by simp at hflt; exact hflt.1)⟩

/-- A command in range writes below OM_WORDS. -/
theorem Ran.good_om {n : Nat} {i : Instr} {L L' : Lane} (h : Ran n i L L') (hL : L.om.Good n) : L'.om.Good n := by
  cases h with
  | illegal | range => exact hL
  | retired _ hin r hw =>
    refine hL.writeList (hw.imp_right fun hdest => ?_)
    exact inRange_iff.1 hin (r.dest, r.words.length) (by simp [hdest])

theorem LaneMove.sound {omWords fresh : Nat} {m : Move} {L L' : Lane} (h : LaneMove omWords fresh m L L')
    (hL : L.Sound omWords) : L'.Sound omWords := by
  cases h with
  | wrote l a w _ ha => exact ⟨hL.om.write ha w, hL.touch.busy_iff, hL.halted_idle⟩
  | wroteOutside | readOMTouch => exact hL.touch
  | readOM | readStatus | readFCMD | idleTurn => exact hL
  | issued l c => exact hL.issue c
  | wroteStatus l v => exact hL.writeStatus v
  | wasReset => exact Lane.AtRest.sound ⟨rfl, rfl⟩ ⟨List.Pairwise.nil, by simp [Lane.reset]⟩
  | illegal => exact Lane.AtRest.sound ⟨rfl, rfl⟩ hL.om
  | ran _ _ _ _ _ _ _ hr => exact hr.atRest.sound (hr.good_om hL.om)
  | ranDisturbed _ _ _ _ i _ _ hr =>
    exact Lane.AtRest.sound hr.atRest ((hr.good_om hL.om).foldl_forget (destOperand i))

/-- Settles O56: the sizes stay, the lane under execution is one that the move found, and each lane is kept sound by
the move and in step with FCAUSE by `LaneStep.fcauseFits`. -/
theorem everyStepKeepsInvariant : Obligations.EveryStepKeepsInvariant := by
  intro s t hinv h
  obtain ⟨hom, hlen, -⟩ := stepChangesOneLane s t h
  refine ⟨by rw [hom, hlen]; exact hinv.sizes, ?_, fun L' hL' => ?_⟩
  · rw [hlen]
    obtain ⟨m, u, -, hp, hlanes, -, hactive⟩ | ⟨-, rfl⟩ := step_perform h
    · obtain ⟨L, -, hL, -, -, -, -, hact | hact⟩ := perform_next hp
      · rw [hact, hactive]
        exact hinv.active_lt
      · rw [hact, ← hlanes]
        exact State.lane_lt hL
    · exact hinv.active_lt
  · obtain ⟨l, L, hl, hl'⟩ := step_exists_lane h hL'
    obtain ⟨hsound, hfits⟩ := Lane.inv_iff.1 (hinv.lanes_inv L (State.lane_mem hl))
    refine hom ▸ Lane.inv_iff.2 ⟨?_, (laneStep_of_step h hl hl').fcauseFits hfits⟩
    obtain ⟨m, -, ⟨-, hmove⟩ | ⟨-, rfl⟩⟩ := step_lane h hl hl'
    · exact hmove.sound hsound
    · exact hsound

/-! ### Power-on -/

theorem Lane.reset_inv (n : Nat) : Lane.reset.Inv n :=
  ⟨List.Pairwise.nil, by simp [Lane.reset], rfl, fun _ => rfl, nofun, fun _ => rfl⟩

theorem State.eq_reset_of_mem_powerOn {lanes omWords : Nat} {L : Lane}
    (h : L ∈ (State.powerOn lanes omWords).lanes) : L = .reset :=
  List.eq_of_mem_replicate h

theorem State.powerOn_inv {lanes omWords : Nat} (h : Config.LegalSizes lanes omWords) :
    (State.powerOn lanes omWords).Inv where
  sizes := by simpa [State.powerOn] using h
  active_lt := by simpa [State.powerOn] using Nat.lt_of_succ_le h.1
  lanes_inv L hL := State.eq_reset_of_mem_powerOn hL ▸ Lane.reset_inv omWords

/-- Settles O55: after power-on every lane is the reset lane, and the sizes of State.reset are legal. -/
theorem powerOnIsIdleAndGood : Obligations.PowerOnIsIdleAndGood := by
  refine ⟨fun _ _ => State.powerOn_inv, State.powerOn_inv (by decide), fun L hL => ?_, fun lanes omWords l L hL => ?_⟩
  · rw [State.eq_reset_of_mem_powerOn hL]
    rfl
  · rw [State.eq_reset_of_mem_powerOn (State.lane_mem hL)]
    exact ⟨by decide, rfl, rfl⟩

/-! ### A lane and the moves addressed to it -/

/-- The two machines agree on what a move on lane `l` can see. -/
structure SameView (l : Nat) (s s' : State) : Prop where
  omWords : s.omWords = s'.omWords
  fresh : s.fresh = s'.fresh
  reply : s.reply = s'.reply
  lane : s.lane l = s'.lane l

/-- Both answers are of one kind, with the same reason or with next states that agree on lane `l`. -/
inductive AnswerAlike (l : Nat) : Out → Out → Prop where
  | next {t t' : State} (h : SameView l t t') : AnswerAlike l (.next t) (.next t')
  | fault (r : Fault) : AnswerAlike l (.fault r) (.fault r)
  | refused (r : Refusal) : AnswerAlike l (.refused r) (.refused r)

section
variable {l : Nat} {s s' : State}

theorem SameView.setLane (h : SameView l s s') (L : Lane) : SameView l (s.setLane l L) (s'.setLane l L) where
  omWords := h.omWords
  fresh := h.fresh
  reply := h.reply
  lane := by
    have hlane := h.lane
    simp only [State.lane, State.setLane_lanes, List.getElem?_set_self'] at hlane ⊢
    rw [hlane]

theorem SameView.withReply (h : SameView l s s') (r : Reply) :
    SameView l { s with reply := r } { s' with reply := r } :=
  ⟨h.omWords, h.fresh, rfl, h.lane⟩

theorem SameView.replyFree (h : SameView l s s') : SameView l s.replyFree s'.replyFree :=
  ⟨h.omWords, congrArg (· + 1) h.fresh, by simp only [State.replyFree, h.fresh], h.lane⟩

theorem SameView.withActive (h : SameView l s s') (k : Nat) :
    SameView l { s with active := k } { s' with active := k } :=
  ⟨h.omWords, h.fresh, h.reply, h.lane⟩

theorem SameView.onLane (h : SameView l s s') {f f' : Lane → Out} (hf : ∀ L, AnswerAlike l (f L) (f' L)) :
    AnswerAlike l (s.onLane l f) (s'.onLane l f') := by
  rw [State.onLane, State.onLane, ← h.lane]
  cases s.lane l with
  | none => exact .refused _
  | some L => exact hf L

theorem SameView.enterFault (h : SameView l s s') (ha : s.active = l) (ha' : s'.active = l) (c : Cause) (w : Cmd) :
    AnswerAlike l (s.enterFault c w) (s'.enterFault c w) := by
  rw [State.enterFault, State.enterFault, State.cur, State.cur, ha, ha', ← h.lane]
  cases s.lane l with
  | none => exact .refused _
  | some L =>
    simp only [State.setCur, ha, ha']
    exact .next (h.setLane _)

theorem SameView.runRule (h : SameView l s s') (ha : s.active = l) (ha' : s'.active = l) (i : Instr)
    (rule : Memory → Option Result) : AnswerAlike l (s.runRule i rule) (s'.runRule i rule) := by
  rw [State.runRule, State.runRule, State.cur, State.cur, ha, ha', ← h.lane, ← h.omWords]
  cases s.lane l with
  | none => exact .refused _
  | some L =>
    simp only [State.setCur, ha, ha']
    split
    · cases rule L.om with
      | none => exact .fault _
      | some r => exact .next (h.setLane _)
    · exact .next (h.setLane _)

theorem SameView.exec (h : SameView l s s') (ha : s.active = l) (ha' : s'.active = l) (i : Instr) :
    AnswerAlike l (exec i s) (exec i s') := by
  by_cases hi : i.wellFormed = true
  · obtain ⟨rule, hr⟩ := exec_rule i hi
    rw [hr.exec_eq, hr.exec_eq]
    exact h.runRule ha ha' i rule
  · rw [exec_illFormed (by simpa using hi), exec_illFormed (by simpa using hi)]
    exact h.enterFault ha ha' _ _

theorem SameView.scrambleCur (h : SameView l s s') (ha : s.active = l) (ha' : s'.active = l) (i : Instr)
    (dz0 : Bool) : SameView l (s.scrambleCur i dz0) (s'.scrambleCur i dz0) := by
  rw [State.scrambleCur, State.scrambleCur, State.cur, State.cur, ha, ha', ← h.lane, ← h.fresh]
  cases s.lane l with
  | none => exact h
  | some L =>
    simp only [State.setCur, ha, ha']
    have hset := h.setLane (L.scramble i dz0 s.fresh)
    exact ⟨hset.omWords, rfl, hset.reply, hset.lane⟩

theorem active_of_exec {i : Instr} {s t : State} (h : exec i s = .next t) : t.active = s.active := by
  obtain ⟨L, L', -, rfl, -⟩ := exec_next h
  rfl

theorem SameView.settle {o o' : Out} (h : SameView l s s') (ho : AnswerAlike l o o')
    (ha : ∀ t, o = .next t → t.active = l) (ha' : ∀ t, o' = .next t → t.active = l) (i : Instr) (f : InFlight)
    (dz0 : Bool) : AnswerAlike l (settle s i f dz0 o) (settle s' i f dz0 o') := by
  cases ho with
  | fault r => exact .fault r
  | refused r => exact .refused r
  | next ht =>
    simp only [Machine.settle, ← h.omWords]
    split
    · exact .next (ht.scrambleCur (ha _ rfl) (ha' _ rfl) i dz0)
    · exact .next ht

theorem SameView.runInFlight (h : SameView l s s') (ha : s.active = l) (ha' : s'.active = l) (L : Lane)
    (f : InFlight) : AnswerAlike l (runInFlight s L f) (runInFlight s' L f) := by
  rw [Machine.runInFlight, Machine.runInFlight]
  cases decode f.cmd with
  | error e => exact h.enterFault ha ha' _ _
  | ok i =>
    exact h.settle (h.exec ha ha' i) (fun _ ht => (active_of_exec ht).trans ha)
      (fun _ ht => (active_of_exec ht).trans ha') i f _

/-- A move on lane `l` is answered alike by machines that agree on it. -/
theorem SameView.perform {m : Move} (h : SameView m.lane s s') :
    AnswerAlike m.lane (perform m s) (perform m s') := by
  cases m with
  | hostWriteOM l a w =>
    refine h.onLane fun L => ?_
    rw [← h.omWords]
    split <;> exact .next (h.setLane _)
  | hostReadOM l a =>
    refine h.onLane fun L => ?_
    rw [← h.omWords]
    split
    · cases L.om.read a.toNat with
      | none => exact .fault _
      | some w =>
        dsimp only
        split
        · exact .next (h.setLane _).replyFree
        · exact .next ⟨rfl, h.fresh, rfl, h.lane⟩
    · exact .next (h.setLane _).replyFree
  | hostIssue l c => exact h.onLane fun L => .next (h.setLane _)
  | hostReadStatus l => exact h.onLane fun L => .next (h.withReply _)
  | hostWriteStatus l v => exact h.onLane fun L => .next (h.setLane _)
  | hostReadFCMD l => exact h.onLane fun L => .next (h.withReply _)
  | hostReset l => exact h.onLane fun L => .next (h.setLane _)
  | laneTurn l =>
    refine h.onLane fun L => ?_
    cases L.inFlight with
    | none => exact .next h
    | some f => exact (h.withActive l).runInFlight rfl rfl L f

end

/-- Settles O54: a move reads and writes nothing but its own lane, OM_WORDS, the reply and the number of the next
free value, so that machines which agree on these answer alike. -/
theorem laneDependsOnlyOnItself : Obligations.LaneDependsOnlyOnItself := by
  intro m s s' hom hfresh hreply hlane
  have halike := SameView.perform (m := m) ⟨hom, hfresh, hreply, hlane⟩
  generalize perform m s = o, perform m s' = o' at halike
  cases halike with
  | @next u u' h =>
    refine ⟨fun t ht => ?_, by simp, by simp⟩
    cases ht
    exact ⟨u', rfl, h.lane, h.reply, h.omWords, h.fresh⟩
  | fault r => simp
  | refused r => simp

end Sys2Proof.Machine
end

section
/-! The laws of the arithmetic units: the adder/subtractor on canonical inputs (40_adder_subtractor.md R133) and the
multiplier with its inverse (41_multiplier.md R171, R174). -/

namespace Sys2Proof.Machine

/-! ### The adder/subtractor -/

theorem toNat_decide (p : Prop) [Decidable p] : (decide p).toNat = if p then 1 else 0 := by
  by_cases h : p <;> simp [h]

theorem add_eq_add256 {va vb : Nat} (ha : va < W) (hb : vb < W) :
    va + vb = (add256 va vb).1 + (add256 va vb).2.toNat * W := by
  simp only [add256, toNat_decide, W] at *
  split <;> omega

theorem sub_eq_sub256 {va vb : Nat} (ha : va < W) (hb : vb < W) :
    (va : Int) - vb = ((sub256 va vb).1 : Int) - ((sub256 va vb).2.toNat * W : Nat) := by
  rw [sub256_eq ha hb]
  simp only [toNat_decide, W] at *
  split <;> omega

theorem addMod_of_lt {md va vb : Nat} (hmd : md < W) (ha : va < md) (hb : vb < md) :
    (addMod md va vb).1 = (va + vb) % md := by
  rw [Nat.add_mod_eq_ite, Nat.mod_eq_of_lt ha, Nat.mod_eq_of_lt hb]
  by_cases h : (va + vb) / W = 1 ∨ md ≤ (va + vb) % W
  · rw [addMod_of_correction hmd h]
    simp only [W] at *
    split <;> omega
  · rw [addMod_of_no_correction (ha.trans hmd) (hb.trans hmd) h]
    simp only [W] at *
    split <;> omega

/-- The residue of an integer that is in range, or would be with the modulus added once. -/
theorem eq_emod_of_range {a md r : Int} (h0 : 0 ≤ r) (hlt : r < md) (hr : r = a ∨ r = a + md) : r = a % md := by
  rw [← Int.emod_eq_of_lt h0 hlt]
  obtain rfl | rfl := hr
  · rfl
  · exact Int.add_emod_right a md

theorem subMod_of_lt {md va vb : Nat} (hmd : md < W) (ha : va < md) (hb : vb < md) :
    (((subMod md va vb).1 : Nat) : Int) = ((va : Int) - vb) % (md : Int) := by
  by_cases h : va < vb
  · rw [subMod_of_borrow (hb.trans hmd) h]
    simp only [W] at *
    exact eq_emod_of_range (by omega) (by omega) (.inr (by omega))
  · rw [subMod_of_no_borrow h]
    exact eq_emod_of_range (by omega) (by omega) (.inl (by omega))

theorem negMod_of_lt {md va : Nat} (hmd : md < W) (ha : va < md) :
    (((negMod md va).1 : Nat) : Int) = (-(va : Int)) % (md : Int) := by
  by_cases h : 0 < va
  · rw [negMod_of_pos (ha.trans hmd) h]
    simp only [W] at *
    exact eq_emod_of_range (by omega) (by omega) (.inr (by omega))
  · rw [negMod_of_not_pos h]
    exact eq_emod_of_range (by omega) (by omega) (.inl (by omega))

/-- Settles O22: the three modular operations correct at most once, which is enough for canonical inputs. -/
theorem adderUnitLaws : Obligations.AdderUnitLaws := by
  refine ⟨fun va vb ha hb => ⟨add_eq_add256 ha hb, sub_eq_sub256 ha hb⟩, fun m va vb ha hb => ?_, fun va ha => ?_⟩
  · have hmd := modulusOf_lt m
    refine ⟨addMod_of_lt hmd ha hb, subMod_of_lt hmd ha hb, negMod_of_lt hmd ha, ?_⟩
    rw [addMod_of_lt hmd ha (ha.trans_le' (Nat.zero_le va)), Nat.add_zero, Nat.mod_eq_of_lt ha]
  · simp only [shr256, shl256, W] at *
    omega

/-! ### The multiplier -/

section
variable {m : Modulus} {v : Nat}

theorem mod_lt_modulusOf (m : Modulus) (n : Nat) : n % modulusOf m < modulusOf m :=
  Nat.mod_lt n (Nat.zero_lt_of_lt (one_lt_modulusOf m))

theorem mul_invMod (hv : v % modulusOf m ≠ 0) : v * invMod (modulusOf m) v % modulusOf m = 1 := by
  rw [invMod_modulusOf]
  exact mul_pow_sub_two (modulusOf_prime m) (two_lt_modulusOf m) hv

theorem invMod_of_zero (hv : v % modulusOf m = 0) : invMod (modulusOf m) v = 0 := by
  have hpos : modulusOf m - 2 ≠ 0 := Nat.sub_ne_zero_of_lt (two_lt_modulusOf m)
  rw [invMod_modulusOf, Nat.pow_mod, hv, zero_pow hpos, Nat.zero_mod]

/-- A value that is not 0 modulo a prime can be cancelled, so it has one inverse. -/
theorem mul_mod_eq_one_iff (hv : v % modulusOf m ≠ 0) (u : Nat) :
    (u < modulusOf m ∧ v * u % modulusOf m = 1) ↔ u = invMod (modulusOf m) v := by
  have hlt := invMod_lt (one_lt_modulusOf m) v
  constructor
  · rintro ⟨hu, h⟩
    have hcop : (modulusOf m).gcd v = 1 :=
      ((modulusOf_prime m).coprime_iff_not_dvd).2 fun hd => hv (Nat.mod_eq_zero_of_dvd hd)
    have hcancel : u ≡ invMod (modulusOf m) v [MOD modulusOf m] :=
      Nat.ModEq.cancel_left_of_coprime hcop (h.trans (mul_invMod hv).symm)
    exact Nat.ModEq.eq_of_lt_of_lt hcancel hu hlt
  · rintro rfl
    exact ⟨hlt, mul_invMod hv⟩

theorem invMod_mod_ne_zero (hv : v % modulusOf m ≠ 0) : invMod (modulusOf m) v % modulusOf m ≠ 0 := by
  intro h
  have hone := mul_invMod hv
  rw [Nat.mul_mod, h, Nat.mul_zero, Nat.zero_mod] at hone
  exact absurd hone (by decide)

theorem invMod_invMod (hv : v % modulusOf m ≠ 0) :
    invMod (modulusOf m) (invMod (modulusOf m) v) = v % modulusOf m := by
  refine ((mul_mod_eq_one_iff (invMod_mod_ne_zero hv) _).1 ⟨mod_lt_modulusOf m v, ?_⟩).symm
  rw [Nat.mul_mod_mod, Nat.mul_comm, mul_invMod hv]

end

/-- Settles O25: the modulus is prime, so a value that is not 0 modulo it can be cancelled. -/
theorem inverseIsTheUniqueInverse : Obligations.InverseIsTheUniqueInverse :=
  fun m v => ⟨invMod_modulusOf m v, mul_mod_eq_one_iff, invMod_of_zero⟩

/-- Settles O26: products of residues are residues of products, and the inverse of the inverse is the one value that
is inverse to it. -/
theorem multiplierUnitLaws : Obligations.MultiplierUnitLaws := by
  intro m a b c mul inv
  refine ⟨congrArg (· % modulusOf m) (Nat.mul_comm a b), ?_, ?_, ?_, fun ha => ⟨mul_invMod ha, invMod_invMod ha⟩,
    mod_lt_modulusOf m _, invMod_lt (one_lt_modulusOf m) a⟩
  · simp only [mul, mulMod, Nat.mod_mul_mod, Nat.mul_mod_mod, Nat.mul_assoc]
  · simp only [mul, mulMod, Nat.mul_one]
  · simp only [mul, mulMod, Nat.mul_zero, Nat.zero_mod]

end Sys2Proof.Machine
end

section
/-! The point functions by their formulas (42_point.md R201, R202), in the field of P elements, and the identities that
hold on every reduced point (R208). -/

namespace Sys2Proof.Machine

/-! ### The formulas in the field -/

/-- DBL of a point with y ≠ 0, whose slope is lam. -/
theorem dbl_aff {x y : Nat} (hy : y ≠ 0) : ∃ lam x3 y3 : Nat, dbl (.aff x y) = .aff x3 y3 ∧
    x3 < primeP ∧ y3 < primeP ∧ (lam : ZMod primeP) = 3 * x * x * (invMod primeP (2 * y) : Nat) ∧
    (x3 : ZMod primeP) = lam * lam - 2 * x ∧ (y3 : ZMod primeP) = lam * (x - x3) - y := by
  refine ⟨modP (3 * x * x * invMod primeP (2 * y)), _, _, by rw [dbl, if_neg hy], modP_lt _, modP_lt _,
    ?_, ?_, ?_⟩ <;>
    rw [modP_cast] <;> push_cast <;> rfl

/-- ADDP of points with different x, whose slope is lam. -/
theorem addp_aff {x1 x2 : Nat} (y1 y2 : Nat) (hx : x1 ≠ x2) :
    ∃ lam x3 y3 : Nat, addp (.aff x1 y1) (.aff x2 y2) = (.aff x3 y3, false) ∧ x3 < primeP ∧ y3 < primeP ∧
    (lam : ZMod primeP) = (y2 - y1) * (invMod primeP (modP ((x2 : Int) - x1)) : Nat) ∧
    (x3 : ZMod primeP) = lam * lam - x1 - x2 ∧ (y3 : ZMod primeP) = lam * (x1 - x3) - y1 := by
  refine ⟨modP (((y2 : Int) - y1) * invMod primeP (modP ((x2 : Int) - x1))), _, _, by rw [addp, if_neg hx],
    modP_lt _, modP_lt _, ?_, ?_, ?_⟩ <;>
    rw [modP_cast] <;> push_cast <;> rfl

theorem addp_of_x_eq {x y1 y2 : Nat} (hy : y1 ≠ y2) (h1 : y1 < primeP) :
    addp (.aff x y1) (.aff x y2) = (.inf, decide (y2 ≠ (primeP - y1) % primeP)) := by
  rw [addp, if_pos rfl, if_neg hy, modP_primeP_sub h1.le]

theorem addp_self (x y : Nat) : addp (.aff x y) (.aff x y) = (dbl (.aff x y), false) := by
  rw [addp, if_pos rfl, if_pos rfl]

theorem dbl_y_zero (x : Nat) : dbl (.aff x 0) = .inf := by rw [dbl, if_pos rfl]

/-- Natural numbers that are equal in the field are congruent. -/
theorem modEq_of_cast_eq {a b : Nat} (h : (a : ZMod primeP) = b) : a ≡ b [MOD primeP] :=
  (ZMod.natCast_eq_natCast_iff a b primeP).1 h

theorem cast_add_primeP_sub {a b : Nat} (hb : b < primeP) :
    ((a + primeP - b : Nat) : ZMod primeP) = a - b := by
  rw [Nat.cast_sub (hb.le.trans (Nat.le_add_left _ _)), Nat.cast_add, primeP_cast, add_zero]

/-- The inverse depends on the residue only. -/
theorem invMod_modP_sub {a b : Nat} (hb : b < primeP) :
    invMod primeP (modP ((a : Int) - b)) = (a + primeP - b) ^ (primeP - 2) % primeP := by
  have hres : modP ((a : Int) - b) ≡ a + primeP - b [MOD primeP] :=
    modEq_of_cast_eq (by rw [modP_cast, cast_add_primeP_sub hb]; push_cast; rfl)
  rw [invMod_primeP]
  exact hres.pow _

/-- Settles O27: the branches of `dbl`, its formulas read in the field. -/
theorem doublingFollowsFormula : Obligations.DoublingFollowsFormula := by
  refine ⟨rfl, dbl_y_zero, fun x y _ _ hy => ?_⟩
  obtain ⟨lam, x3, y3, hdbl, hx3, hy3, hlam, hx, hyy⟩ := dbl_aff (x := x) hy
  refine ⟨lam, x3, y3, hdbl, hx3, hy3, ?_, ?_, ?_⟩
  · rw [← invMod_primeP]
    exact modEq_of_cast_eq (by rw [hlam]; push_cast; ring)
  · exact modEq_of_cast_eq (by push_cast; linear_combination hx)
  · exact modEq_of_cast_eq (by push_cast; linear_combination hyy)

/-- Settles O28: the branches of `addp`, its formulas read in the field. -/
theorem additionFollowsFormula : Obligations.AdditionFollowsFormula := by
  refine ⟨fun _ => rfl, fun _ _ => rfl, fun x1 y1 x2 y2 hx1 hy1 _ _ => ⟨?_, ?_, fun hne => ?_⟩⟩
  · rintro rfl rfl
    exact addp_self x1 y1
  · rintro rfl hy
    exact addp_of_x_eq hy hy1
  · obtain ⟨lam, x3, y3, hadd, hx3, hy3, hlam, hx, hyy⟩ := addp_aff y1 y2 hne
    refine ⟨lam, x3, y3, hadd, hx3, hy3, ?_, ?_, ?_⟩
    · rw [← invMod_modP_sub hx1]
      exact modEq_of_cast_eq (by rw [hlam, Nat.cast_mul, cast_add_primeP_sub hy1])
    · exact modEq_of_cast_eq (by push_cast; linear_combination hx)
    · exact modEq_of_cast_eq (by push_cast; linear_combination hyy)

/-! ### Identities on reduced points -/

theorem neg_eq {x y : Nat} (hy : y < primeP) : neg (.aff x y) = .aff x ((primeP - y) % primeP) := by
  rw [neg, modP_primeP_sub hy.le]

theorem primeP_sub_mod {y : Nat} (hy : y < primeP) :
    (primeP - y) % primeP = if y = 0 then 0 else primeP - y := by
  split
  · rename_i h
    rw [h, Nat.sub_zero, Nat.mod_self]
  · exact Nat.mod_eq_of_lt (Nat.sub_lt (Nat.zero_lt_of_lt hy) (by omega))

/-- P is odd, so only 0 is its own negation. -/
theorem eq_zero_of_eq_neg {y : Nat} (hy : y < primeP) (h : y = (primeP - y) % primeP) : y = 0 := by
  have hodd := primeP_odd
  rw [primeP_sub_mod hy] at h
  generalize primeP = p at *
  split at h <;> omega

theorem eq_neg_comm {y1 y2 : Nat} (h1 : y1 < primeP) (h2 : y2 < primeP) :
    y2 = (primeP - y1) % primeP ↔ y1 = (primeP - y2) % primeP := by
  rw [primeP_sub_mod h1, primeP_sub_mod h2]
  generalize primeP = p at *
  split <;> split <;> omega

theorem addp_neg {p : Point} (hp : Reduced p) : addp p (neg p) = (.inf, false) := by
  cases p with
  | inf => rfl
  | aff x y =>
    obtain ⟨-, hy⟩ := hp
    rw [neg_eq hy]
    by_cases h : y = (primeP - y) % primeP
    · obtain rfl := eq_zero_of_eq_neg hy h
      rw [← h, addp_self, dbl_y_zero]
    · rw [addp_of_x_eq h hy]
      simp

theorem addp_self_reduced (p : Point) : addp p p = (dbl p, false) := by
  cases p with
  | inf => rfl
  | aff x y => exact addp_self x y

/-- The inverse function is the inverse of the field, also of 0. -/
theorem invMod_cast [Fact (Nat.Prime primeP)] (v : Nat) :
    ((invMod primeP v : Nat) : ZMod primeP) = (v : ZMod primeP)⁻¹ := by
  by_cases hv : v % primeP = 0
  · have hzero : (v : ZMod primeP) = 0 := (ZMod.natCast_eq_zero_iff v primeP).2 (Nat.dvd_of_mod_eq_zero hv)
    rw [show invMod primeP v = 0 from invMod_of_zero (m := .p) hv, hzero, inv_zero, Nat.cast_zero]
  · exact eq_inv_of_mul_eq_one_right (mul_invMod_cast hv)

theorem invMod_modP_sub_cast [Fact (Nat.Prime primeP)] (x1 x2 : Nat) :
    ((invMod primeP (modP ((x2 : Int) - x1)) : Nat) : ZMod primeP) = ((x2 : ZMod primeP) - x1)⁻¹ := by
  rw [invMod_cast, modP_cast]
  push_cast
  rfl

theorem cast_ne_of_ne {a b : Nat} (ha : a < primeP) (hb : b < primeP) (h : a ≠ b) :
    (a : ZMod primeP) ≠ b := fun hc => h (eq_of_cast_eq ha hb hc)

/-- The chord through two points does not depend on their order. -/
theorem addp_comm_of_x_ne {x1 y1 x2 y2 : Nat} (h1 : x1 < primeP) (h2 : x2 < primeP) (hne : x1 ≠ x2) :
    addp (.aff x1 y1) (.aff x2 y2) = addp (.aff x2 y2) (.aff x1 y1) := by
  have : Fact (Nat.Prime primeP) := ⟨prime_primeP⟩
  obtain ⟨lam, x3, y3, hadd, hx3, hy3, hlam, hx, hy⟩ := addp_aff y1 y2 hne
  obtain ⟨lam', x3', y3', hadd', hx3', hy3', hlam', hx', hy'⟩ := addp_aff y2 y1 hne.symm
  have hd : (x2 : ZMod primeP) - x1 ≠ 0 := sub_ne_zero.2 (cast_ne_of_ne h2 h1 hne.symm)
  have hslope : (lam' : ZMod primeP) = lam := by
    rw [hlam, hlam', invMod_modP_sub_cast, invMod_modP_sub_cast, ← neg_sub (x2 : ZMod primeP), inv_neg]
    ring
  have hchord : (lam : ZMod primeP) * (x2 - x1) = y2 - y1 := by
    rw [hlam, invMod_modP_sub_cast, mul_assoc, inv_mul_cancel₀ hd, mul_one]
  have hx_eq : x3 = x3' := eq_of_cast_eq hx3 hx3' (by rw [hx, hx', hslope]; ring)
  have hy_eq : y3 = y3' := eq_of_cast_eq hy3 hy3' (by
    rw [hy, hy', hslope, ← hx_eq]
    linear_combination -hchord)
  rw [hadd, hadd', hx_eq, hy_eq]

theorem addp_comm {p q : Point} (hp : Reduced p) (hq : Reduced q) : addp p q = addp q p := by
  cases p with
  | inf => cases q <;> rfl
  | aff x1 y1 =>
    cases q with
    | inf => rfl
    | aff x2 y2 =>
      obtain ⟨hx1, hy1⟩ := hp
      obtain ⟨hx2, hy2⟩ := hq
      by_cases hx : x1 = x2
      · subst hx
        by_cases hy : y1 = y2
        · rw [hy]
        · rw [addp_of_x_eq hy hy1, addp_of_x_eq (Ne.symm hy) hy2]
          simp only [ne_eq, eq_neg_comm hy1 hy2]
      · exact addp_comm_of_x_ne hx1 hx2 hx

/-- Settles O33: the branches of `addp` on a point and its negation, on a point twice, and on two points in both
orders. -/
theorem pointUnitLaws : Obligations.PointUnitLaws :=
  ⟨fun _ => addp_neg, fun p _ => addp_self_reduced p, fun p => ⟨rfl, by cases p <;> rfl⟩, fun _ _ => addp_comm⟩

end Sys2Proof.Machine
end

section
/-! The point unit as the group of the curve (42_point.md R208, 43_table_builder.md R240, R242): the points of the model
and Mathlib's represent each other, the functions compute the group's, and so points of the curve stay on it. -/

namespace Sys2Proof.Machine

open WeierstrassCurve.Affine

/-! ### The curve -/

theorem secp256k1_negY (x y : ZMod primeP) : secp256k1.negY x y = -y := by simp [secp256k1]

theorem secp256k1_addX (x1 x2 l : ZMod primeP) : secp256k1.addX x1 x2 l = l * l - x1 - x2 := by
  simp [secp256k1, pow_two]

theorem secp256k1_addY (x1 x2 y1 l : ZMod primeP) :
    secp256k1.addY x1 x2 y1 l = l * (x1 - secp256k1.addX x1 x2 l) - y1 := by
  rw [addY, secp256k1_negY, negAddY]
  ring

/-- The discriminant −21168 is not 0 modulo P. -/
theorem secp256k1_Δ_ne_zero : secp256k1.Δ ≠ 0 := by
  have hnat : ((21168 : Nat) : ZMod primeP) ≠ 0 := fun h =>
    absurd ((ZMod.natCast_eq_zero_iff 21168 primeP).1 h) (by decide)
  have hΔ : secp256k1.Δ = -((21168 : Nat) : ZMod primeP) := by
    simp only [secp256k1, WeierstrassCurve.Δ, WeierstrassCurve.b₂, WeierstrassCurve.b₄, WeierstrassCurve.b₆,
      WeierstrassCurve.b₈]
    push_cast
    ring
  rw [hΔ]
  exact neg_ne_zero.2 hnat

section
variable [Fact (Nat.Prime primeP)]

theorem nonsingular_iff {x y : ZMod primeP} : secp256k1.Nonsingular x y ↔ y * y = x * x * x + 7 := by
  rw [← equation_iff_nonsingular_of_Δ_ne_zero secp256k1_Δ_ne_zero, equation_iff]
  simp only [secp256k1]
  ring_nf

/-! ### Representation -/

theorem Represents.cases {p : Point} {P : secp256k1.Point} (h : Represents p P) : (p = .inf ∧ P = 0) ∨
    ∃ (x y : Nat) (hns : secp256k1.Nonsingular (x : ZMod primeP) y), x < primeP ∧ y < primeP ∧
      p = .aff x y ∧ P = .some (x : ZMod primeP) y hns := by
  cases p with
  | inf =>
    cases P with
    | zero => exact .inl ⟨rfl, rfl⟩
    | some => exact h.elim
  | aff x y =>
    cases P with
    | zero => exact h.elim
    | some X Y hns =>
      obtain ⟨hx, hy, rfl, rfl⟩ := h
      exact .inr ⟨x, y, hns, hx, hy, rfl, rfl⟩

theorem exists_represents {p : Point} (hp : OnCurveOrInf p) : ∃ P, Represents p P := by
  cases p with
  | inf => exact ⟨.zero, trivial⟩
  | aff x y =>
    obtain ⟨hx, hy, hc⟩ := hp
    exact ⟨.some (x : ZMod primeP) y (nonsingular_iff.2 (curve_iff_cast.1 hc)), hx, hy, rfl, rfl⟩

theorem Represents.onCurve {p : Point} {P : secp256k1.Point} (h : Represents p P) : OnCurveOrInf p := by
  obtain ⟨rfl, -⟩ | ⟨x, y, hns, hx, hy, rfl, -⟩ := h.cases
  · trivial
  · exact ⟨hx, hy, curve_iff_cast.2 (nonsingular_iff.1 hns)⟩

theorem exists_represented (P : secp256k1.Point) : ∃ p, OnCurveOrInf p ∧ Represents p P := by
  cases P with
  | zero => exact ⟨.inf, trivial, trivial⟩
  | some X Y hns =>
    have hrep : Represents (.aff X.val Y.val) (.some X Y hns) :=
      ⟨X.val_lt, Y.val_lt, (ZMod.natCast_zmod_val X).symm, (ZMod.natCast_zmod_val Y).symm⟩
    exact ⟨_, hrep.onCurve, hrep⟩

theorem Represents.point_unique {p q : Point} {P : secp256k1.Point} (hp : Represents p P) (hq : Represents q P) :
    p = q := by
  obtain ⟨rfl, rfl⟩ | ⟨x, y, hns, hx, hy, rfl, rfl⟩ := hp.cases
  · obtain ⟨rfl, -⟩ | ⟨x', y', hns', -, -, -, hP⟩ := hq.cases
    · rfl
    · cases hP
  · cases q with
    | inf => exact hq.elim
    | aff x' y' =>
      obtain ⟨hx', hy', hX, hY⟩ := hq
      rw [eq_of_cast_eq hx hx' hX, eq_of_cast_eq hy hy' hY]

theorem Represents.unique {p : Point} {P Q : secp256k1.Point} (hP : Represents p P) (hQ : Represents p Q) :
    P = Q := by
  obtain ⟨rfl, rfl⟩ | ⟨x, y, hns, -, -, rfl, rfl⟩ := hP.cases
  · obtain ⟨-, rfl⟩ | ⟨_, _, _, -, -, hp, -⟩ := hQ.cases
    · rfl
    · cases hp
  · cases Q with
    | zero => exact hQ.elim
    | some X Y hns' =>
      obtain ⟨-, -, rfl, rfl⟩ := hQ
      rfl

/-! ### The group law -/

theorem represents_neg {p : Point} {P : secp256k1.Point} (h : Represents p P) : Represents (neg p) (-P) := by
  obtain ⟨rfl, rfl⟩ | ⟨x, y, hns, hx, hy, rfl, rfl⟩ := h.cases
  · trivial
  · exact ⟨hx, modP_lt _, rfl, by rw [secp256k1_negY, modP_primeP_sub_cast]⟩

/-- The point the chord or tangent formulas give is the sum, if lam is the slope. -/
theorem represents_sum {x1 y1 x2 y2 lam x3 y3 : Nat} {h1 : secp256k1.Nonsingular (x1 : ZMod primeP) y1}
    {h2 : secp256k1.Nonsingular (x2 : ZMod primeP) y2}
    (hxy : ¬ ((x1 : ZMod primeP) = x2 ∧ (y1 : ZMod primeP) = secp256k1.negY x2 y2))
    (hslope : secp256k1.slope (x1 : ZMod primeP) x2 y1 y2 = lam) (hx3 : x3 < primeP) (hy3 : y3 < primeP)
    (hx : (x3 : ZMod primeP) = lam * lam - x1 - x2) (hy : (y3 : ZMod primeP) = lam * (x1 - x3) - y1) :
    Represents (.aff x3 y3) (Point.some _ _ h1 + Point.some _ _ h2) := by
  rw [Point.add_some hxy]
  have hX : secp256k1.addX (x1 : ZMod primeP) x2 lam = x3 := by rw [secp256k1_addX, hx]
  exact ⟨hx3, hy3, by rw [hslope, hX], by rw [hslope, secp256k1_addY, hX, hy]⟩

theorem two_mul_cast_ne_zero {y : Nat} (hy : y < primeP) (h0 : y ≠ 0) : (2 : ZMod primeP) * y ≠ 0 := by
  intro h
  refine two_mul_mod_ne_zero hy h0 (Nat.mod_eq_zero_of_dvd ((ZMod.natCast_eq_zero_iff _ _).1 ?_))
  rw [Nat.cast_mul]
  exact h

theorem represents_dbl {p : Point} {P : secp256k1.Point} (h : Represents p P) : Represents (dbl p) (P + P) := by
  obtain ⟨rfl, rfl⟩ | ⟨x, y, hns, hx, hy, rfl, rfl⟩ := h.cases
  · trivial
  by_cases h0 : y = 0
  · subst h0
    rw [dbl_y_zero, Point.add_self_of_Y_eq (by rw [secp256k1_negY, Nat.cast_zero, neg_zero])]
    trivial
  · have h2y := two_mul_cast_ne_zero hy h0
    have hne : (y : ZMod primeP) ≠ secp256k1.negY x y := fun hc => by
      rw [secp256k1_negY] at hc
      exact h2y (by linear_combination hc)
    obtain ⟨lam, x3, y3, hdbl, hx3, hy3, hlam, hX, hY⟩ := dbl_aff (x := x) h0
    have hslope : secp256k1.slope (x : ZMod primeP) x y y = lam := by
      rw [slope_of_Y_ne rfl hne, hlam, invMod_cast, secp256k1_negY, div_eq_mul_inv]
      simp only [secp256k1]
      push_cast
      ring
    rw [hdbl]
    exact represents_sum (fun hc => hne hc.2) hslope hx3 hy3 (by rw [hX]; ring) hY

/-- On the curve, points with one x and different y are negations of each other. -/
theorem eq_neg_of_x_eq {x y1 y2 : Nat} (h1 : secp256k1.Nonsingular (x : ZMod primeP) y1)
    (h2 : secp256k1.Nonsingular (x : ZMod primeP) y2) (hy1 : y1 < primeP) (hy2 : y2 < primeP) (hne : y1 ≠ y2) :
    (y1 : ZMod primeP) = secp256k1.negY x y2 :=
  (Y_eq_of_X_eq h1.1 h2.1 rfl).resolve_left (cast_ne_of_ne hy1 hy2 hne)

theorem represents_addp {p q : Point} {P Q : secp256k1.Point} (hp : Represents p P) (hq : Represents q Q) :
    Represents (addp p q).1 (P + Q) ∧ (addp p q).2 = false := by
  obtain ⟨rfl, rfl⟩ | ⟨x1, y1, h1, hx1, hy1, rfl, rfl⟩ := hp.cases
  · rw [zero_add]
    exact ⟨hq, rfl⟩
  obtain ⟨rfl, rfl⟩ | ⟨x2, y2, h2, hx2, hy2, rfl, rfl⟩ := hq.cases
  · rw [add_zero]
    exact ⟨hp, rfl⟩
  by_cases hx : x1 = x2
  · subst hx
    by_cases hy : y1 = y2
    · subst hy
      rw [addp_self]
      exact ⟨represents_dbl hp, rfl⟩
    · have hneg := eq_neg_of_x_eq h1 h2 hy1 hy2 hy
      have hy2_eq : y2 = modP ((primeP : Int) - y1) := eq_of_cast_eq hy2 (modP_lt _) (by
        rw [modP_primeP_sub_cast, hneg, secp256k1_negY, neg_neg])
      rw [addp, if_pos rfl, if_neg hy, Point.add_of_Y_eq rfl hneg]
      exact ⟨trivial, decide_eq_false (not_not.2 hy2_eq)⟩
  · have hne := cast_ne_of_ne hx1 hx2 hx
    obtain ⟨lam, x3, y3, hadd, hx3, hy3, hlam, hX, hY⟩ := addp_aff y1 y2 hx
    have hslope : secp256k1.slope (x1 : ZMod primeP) x2 y1 y2 = lam := by
      rw [slope_of_X_ne hne, hlam, invMod_modP_sub_cast, ← neg_sub (y2 : ZMod primeP), ← neg_sub (x2 : ZMod primeP),
        neg_div_neg_eq, div_eq_mul_inv]
    rw [hadd]
    exact ⟨represents_sum (fun hc => hne hc.1) hslope hx3 hy3 hX hY, rfl⟩

/-- The chain of the table is that of the odd multiples, and no addition of it is degenerate. -/
theorem represents_tab {p : Point} {P : secp256k1.Point} (h : Represents p P) :
    List.Forall₂ Represents (tab p).1 [P, 3 • P, 5 • P, 7 • P] ∧ (tab p).2 = false := by
  have h2 := represents_dbl h
  obtain ⟨h3, z3⟩ := represents_addp h2 h
  obtain ⟨h5, z5⟩ := represents_addp h3 h2
  obtain ⟨h7, z7⟩ := represents_addp h5 h2
  rw [show P + P + P = 3 • P by abel] at h3
  rw [show P + P + P + (P + P) = 5 • P by abel] at h5
  rw [show P + P + P + (P + P) + (P + P) = 7 • P by abel] at h7
  exact ⟨.cons h (.cons h3 (.cons h5 (.cons h7 .nil))), by simp [tab, z3, z5, z7]⟩

/-- Every entry of the table is an odd multiple of the base. -/
theorem Represents.of_mem_tab {p e : Point} {P : secp256k1.Point} (h : Represents p P) (he : e ∈ (tab p).1) :
    ∃ j ∈ [1, 3, 5, 7], Represents e (j • P) := by
  have hall := (represents_tab h).1
  simp only [tab, List.forall₂_cons] at hall
  obtain ⟨h1, h3, h5, h7, -⟩ := hall
  simp only [tab, List.mem_cons, List.not_mem_nil, or_false] at he
  obtain rfl | rfl | rfl | rfl := he
  · exact ⟨1, by simp, by rwa [one_nsmul]⟩
  · exact ⟨3, by simp, h3⟩
  · exact ⟨5, by simp, h5⟩
  · exact ⟨7, by simp, h7⟩

end

/-- Settles O37: each point of the curve has one representation, and each function of the point unit represents the
operation of the group. -/
theorem pointUnitIsTheGroupLaw : Obligations.PointUnitIsTheGroupLaw := by
  intro hprime
  refine ⟨fun p => exists_represents, exists_represented, fun p q P => Represents.point_unique,
    fun p P Q => Represents.unique, fun p q P Q hp hq => ?_⟩
  obtain ⟨hsum, hdz⟩ := represents_addp hp hq
  exact ⟨hsum, hdz, two_nsmul P ▸ represents_dbl hp, represents_neg hp, (represents_tab hp).1⟩

/-! ### Points of the curve stay on it -/

theorem factPrimeP : Fact (Nat.Prime primeP) := ⟨prime_primeP⟩

theorem OnCurveOrInf.dbl {p : Point} (hp : OnCurveOrInf p) : OnCurveOrInf (dbl p) := by
  have := factPrimeP
  obtain ⟨P, hP⟩ := exists_represents hp
  exact (represents_dbl hP).onCurve

theorem OnCurveOrInf.neg {p : Point} (hp : OnCurveOrInf p) : OnCurveOrInf (neg p) := by
  have := factPrimeP
  obtain ⟨P, hP⟩ := exists_represents hp
  exact (represents_neg hP).onCurve

theorem OnCurveOrInf.addp {p q : Point} (hp : OnCurveOrInf p) (hq : OnCurveOrInf q) :
    OnCurveOrInf (addp p q).1 ∧ (addp p q).2 = false := by
  have := factPrimeP
  obtain ⟨P, hP⟩ := exists_represents hp
  obtain ⟨Q, hQ⟩ := exists_represents hq
  obtain ⟨hsum, hdz⟩ := represents_addp hP hQ
  exact ⟨hsum.onCurve, hdz⟩

theorem OnCurveOrInf.tab {p : Point} (hp : OnCurveOrInf p) :
    (∀ e ∈ (tab p).1, OnCurveOrInf e) ∧ (tab p).2 = false := by
  have := factPrimeP
  obtain ⟨P, hP⟩ := exists_represents hp
  refine ⟨fun e he => ?_, (represents_tab hP).2⟩
  obtain ⟨j, -, he⟩ := hP.of_mem_tab he
  exact he.onCurve

/-- −7 is no cube modulo P: its power (P − 1) / 3 is not 1. -/
theorem seven_add_cube_ne_zero (x : ZMod primeP) : x * x * x + 7 ≠ 0 := by
  have := factPrimeP
  intro hx
  have hcube : x ^ 3 = ((primeP - 7 : Nat) : ZMod primeP) := by
    rw [Nat.cast_sub (by decide), primeP_cast]
    push_cast
    linear_combination hx
  have hx0 : x ≠ 0 := by
    rintro rfl
    have h7 : ((7 : Nat) : ZMod primeP) = 0 := by push_cast; linear_combination hx
    exact absurd ((ZMod.natCast_eq_zero_iff 7 primeP).1 h7) (by decide)
  have hpow : ((powMod primeP (primeP - 7) ((primeP - 1) / 3) : Nat) : ZMod primeP) = ((1 : Nat) : ZMod primeP) := by
    rw [powMod_eq (by decide) (by decide), ZMod.natCast_mod, Nat.cast_pow, ← hcube, ← pow_mul,
      show 3 * ((primeP - 1) / 3) = primeP - 1 by decide, ZMod.pow_card_sub_one_eq_one hx0, Nat.cast_one]
  have hlt : powMod primeP (primeP - 7) ((primeP - 1) / 3) < primeP := powModLoop_lt (by decide)
  exact absurd (eq_of_cast_eq hlt (by decide) hpow) (by decide +kernel)

/-- Settles O34: the points of the curve are those that represent one of Mathlib's, whose operations the functions
compute; y = 0 would make −7 a cube. -/
theorem pointUnitStaysOnCurve : Obligations.PointUnitStaysOnCurve := by
  refine ⟨fun p hp => ⟨hp.dbl, hp.neg⟩, fun p q hp hq => hp.addp hq, ?_⟩
  rintro x ⟨-, -, hc⟩
  have hcast := curve_iff_cast.1 hc
  rw [Nat.cast_zero, mul_zero] at hcast
  exact seven_add_cube_ne_zero _ hcast.symm

/-- Settles O36: the entries are multiples of the base. -/
theorem tableEntriesStayOnCurve : Obligations.TableEntriesStayOnCurve := by
  intro b hb
  obtain ⟨hall, hdz⟩ := hb.tab
  exact ⟨hdz, rfl, rfl, hall⟩

end Sys2Proof.Machine
end

section
/-! The order of the base point (43_table_builder.md R242): the multiple N·G by doubling and adding, computed with the
point unit's own functions, and what the prime order says of the tables of multiples of G. -/

namespace Sys2Proof.Machine

/-- `acc` plus the multiple `e` of `b`, one round a bit of `e` from the least significant. -/
def mulPointLoop : Nat → Point → Nat → Point → Point
  | 0, _, _, acc => acc
  | k + 1, b, e, acc => mulPointLoop k (dbl b) (e / 2) (if e % 2 = 1 then (addp acc b).1 else acc)

/-- Computed in the kernel's own arithmetic: 256 doublings and an addition for every bit of N that is 1. -/
theorem mulPointLoop_orderN : mulPointLoop 256 (.aff baseX baseY) orderN .inf = .inf := by decide +kernel

theorem base_ne_zero {G : secp256k1.Point} (hG : Represents (.aff baseX baseY) G) : G ≠ 0 := by
  rintro rfl
  exact hG.elim

section
variable [Fact (Nat.Prime primeP)]

theorem represents_mulPointLoop {k e : Nat} {b acc : Point} {B A : secp256k1.Point} (hb : Represents b B)
    (hacc : Represents acc A) (he : e < 2 ^ k) : Represents (mulPointLoop k b e acc) (A + e • B) := by
  induction k generalizing e b acc B A with
  | zero =>
    obtain rfl : e = 0 := by simpa using he
    rwa [zero_nsmul, add_zero]
  | succ k ih =>
    have hhalf : e / 2 < 2 ^ k := by rw [pow_succ] at he; omega
    have hdbl : (e / 2) • (B + B) = (2 * (e / 2)) • B := by rw [← two_nsmul, ← mul_nsmul]
    rw [mulPointLoop]
    split
    · rename_i hodd
      have hsplit : A + e • B = A + B + (e / 2) • (B + B) := by
        rw [hdbl, add_assoc, ← succ_nsmul']
        congr 2
        omega
      rw [hsplit]
      exact ih (represents_dbl hb) (represents_addp hacc hb).1 hhalf
    · rename_i heven
      have hsplit : e • B = (e / 2) • (B + B) := by
        rw [hdbl]
        congr 1
        omega
      rw [hsplit]
      exact ih (represents_dbl hb) hacc hhalf

theorem represents_inf_iff {P : secp256k1.Point} : Represents .inf P ↔ P = 0 := by
  refine ⟨fun h => h.unique (Q := 0) trivial, ?_⟩
  rintro rfl
  trivial

theorem nsmul_eq_zero_of_mulPointLoop {k e : Nat} {b : Point} {B : secp256k1.Point} (hb : Represents b B)
    (he : e < 2 ^ k) (h : mulPointLoop k b e .inf = .inf) : e • B = 0 := by
  have hrep := represents_mulPointLoop hb (represents_inf_iff.2 rfl) he
  rwa [h, represents_inf_iff, zero_add] at hrep

theorem orderN_nsmul_base {G : secp256k1.Point} (hG : Represents (.aff baseX baseY) G) : orderN • G = 0 :=
  nsmul_eq_zero_of_mulPointLoop hG (by decide) mulPointLoop_orderN

theorem addOrderOf_base {G : secp256k1.Point} (hG : Represents (.aff baseX baseY) G) : addOrderOf G = orderN := by
  have : Fact (Nat.Prime orderN) := ⟨prime_orderN⟩
  exact addOrderOf_eq_prime (orderN_nsmul_base hG) (base_ne_zero hG)

/-- A small odd multiple of a multiple of G that is not 0 is not 0: N is prime and greater than 7. -/
theorem nsmul_nsmul_base_ne_zero {G : secp256k1.Point} (hG : Represents (.aff baseX baseY) G) {j k : Nat}
    (hj : j ∈ [1, 3, 5, 7]) (hk : k • G ≠ 0) : j • k • G ≠ 0 := by
  intro h
  rw [← mul_nsmul', ← addOrderOf_dvd_iff_nsmul_eq_zero, addOrderOf_base hG, prime_orderN.dvd_mul] at h
  obtain hdvd | hdvd := h
  · have hsmall : ∀ j ∈ [1, 3, 5, 7], ¬ orderN ∣ j := by decide
    exact hsmall j hj hdvd
  · rw [← addOrderOf_base hG, addOrderOf_dvd_iff_nsmul_eq_zero] at hdvd
    exact hk hdvd

end

/-- Settles O38: N is prime and annihilates G, so it is the order of G, and a multiple of G that is not 0 has no odd
multiple up to 7 that is. -/
theorem basePointHasPrimeOrder : Obligations.BasePointHasPrimeOrder := by
  refine ⟨prime_orderN, ?_⟩
  intro hprime G hG
  refine ⟨base_ne_zero hG, orderN_nsmul_base hG, fun k p hp hne e he hinf => ?_⟩
  have hk : k • G ≠ 0 := fun h => hne (hp.point_unique (h ▸ represents_inf_iff.2 rfl))
  obtain ⟨j, hj, hrep⟩ := hp.of_mem_tab he
  rw [hinf, represents_inf_iff] at hrep
  exact nsmul_nsmul_base_ne_zero hG hj hk hrep

end Sys2Proof.Machine
end

section
/-! The host and operand memory: the flag word of a point (20_memory.md R62), the host's moves on an idle, halted or
busy lane (60_exceptions.md R268 to R270, R281, R286), and a command whose OM the host touched
(70_reset_and_hazards.md R297). -/

namespace Sys2Proof.Machine

/-! ### Points -/

/-- Settles O40: a point is read from two elements and bit 0 of the flag word, each word of which must be written. -/
theorem pointFlagIsBitZero : Obligations.PointFlagIsBitZero := by
  refine ⟨fun m a x y f hf hbit hx hy => ?_, fun m a x y f hf hbit hx hy => ?_, fun m a x h1 h2 hnone => ?_,
    fun m a => read_of_writeList_coordinates (by decide) (by decide) rfl,
    fun m a x y hx hy => read_of_writeList_coordinates hx hy rfl⟩
  · exact readPt_eq_some_iff.2 ⟨x, y, f, hx, hy, hf, by rw [flagIsInf, hbit]; rfl⟩
  · exact readPt_eq_some_iff.2 ⟨x, y, f, hx, hy, hf, by rw [flagIsInf, hbit]; rfl⟩
  · rw [← Option.not_isSome_iff_eq_none, readPt_isSome, Memory.readList_isSome_iff]
    exact fun h => by simpa [hnone] using h x h1 h2

/-! ### Host access to OM -/

theorem Lane.touch_of_idle {L : Lane} (h : L.inFlight = none) : L.touch = L := by
  cases L
  subst h
  rfl

theorem Lane.touch_of_inFlight {L : Lane} {f : InFlight} (h : L.inFlight = some f) :
    L.touch = { L with inFlight := some { f with disturbed := true } } := by
  rw [Lane.touch, h]
  rfl

section
variable {s : State} {l : Nat} {L : Lane} {a : Addr}

theorem perform_writeOM (hL : s.lane l = some L) (ha : a.toNat < s.omWords) (w : Word) :
    perform (.hostWriteOM l a w) s = .next (s.setLane l { L.touch with om := L.om.write a.toNat w }) := by
  rw [perform, hostWriteOM, State.onLane_eq hL, if_pos ha]

theorem perform_writeOM_outside (hL : s.lane l = some L) (ha : s.omWords ≤ a.toNat) (w : Word) :
    perform (.hostWriteOM l a w) s = .next (s.setLane l L.touch) := by
  rw [perform, hostWriteOM, State.onLane_eq hL, if_neg (Nat.not_lt.2 ha)]

theorem perform_readOM_unwritten (hL : s.lane l = some L) (ha : a.toNat < s.omWords)
    (hr : L.om.read a.toNat = none) : perform (.hostReadOM l a) s = .fault .uninit := by
  rw [perform, hostReadOM, State.onLane_eq hL, if_pos ha, hr]

theorem perform_readOM_written {w : Word} (hL : s.lane l = some L) (ha : a.toNat < s.omWords)
    (hr : L.om.read a.toNat = some w) : perform (.hostReadOM l a) s =
      if L.status.busy then .next (s.setLane l L.touch).replyFree else .next { s with reply := .word w } := by
  rw [perform, hostReadOM, State.onLane_eq hL, if_pos ha, hr]

theorem perform_readOM_outside (hL : s.lane l = some L) (ha : s.omWords ≤ a.toNat) :
    perform (.hostReadOM l a) s = .next (s.setLane l L.touch).replyFree := by
  rw [perform, hostReadOM, State.onLane_eq hL, if_neg (Nat.not_lt.2 ha)]

end

/-- Settles O42: with no command in flight there is nothing to mark, so the write is one word and the read changes no
lane. -/
theorem hostAccessesOneWord : Obligations.HostAccessesOneWord := by
  intro s l L a hL hbusy hidle
  have htouch := Lane.touch_of_idle hidle
  refine ⟨fun ha => ⟨fun w => ?_, fun w hr => ?_, perform_readOM_unwritten hL ha⟩, fun ha => ⟨fun w => ?_, ?_⟩⟩
  · exact ⟨_, htouch ▸ perform_writeOM hL ha w, Memory.read_write_same _ _ _,
      fun _ hx => Memory.read_write_ne _ _ hx⟩
  · rw [perform_readOM_written hL ha hr, hbusy]
    rfl
  · rw [perform_writeOM_outside hL ha, htouch, State.setLane_self hL]
  · rw [perform_readOM_outside hL ha, htouch, State.setLane_self hL]
    exact ⟨_, rfl⟩

/-! ### Reset and the halted state -/

/-- Settles O46: the lane becomes the reset lane. -/
theorem hostResetClearsLane : Obligations.HostResetClearsLane := by
  intro s l L hL
  exact ⟨.reset, by rw [perform, hostReset, State.onLane_eq hL], by decide, rfl, rfl, fun _ => rfl⟩

theorem State.Inv.lane {s : State} (h : s.Inv) {l : Nat} {L : Lane} (hL : s.lane l = some L) :
    L.Inv s.omWords :=
  h.lanes_inv L (State.lane_mem hL)

theorem Lane.Inv.inFlight_of_idle {n : Nat} {L : Lane} (h : L.Inv n) (hbusy : L.status.busy = false) :
    L.inFlight = none := by
  simpa [hbusy] using h.busy_iff

theorem perform_issue {s : State} {l : Nat} {L : Lane} (hL : s.lane l = some L) (c : Cmd) :
    perform (.hostIssue l c) s = .next (s.setLane l (L.issue c)) := by
  rw [perform, hostIssue, State.onLane_eq hL]

theorem perform_writeStatus {s : State} {l : Nat} {L : Lane} (hL : s.lane l = some L) (v : Word) :
    perform (.hostWriteStatus l v) s = .next (s.setLane l (L.writeStatus v)) := by
  rw [perform, hostWriteStatus, State.onLane_eq hL]

/-- Settles O47: a halted lane drops what it is issued and, having no command in flight, does nothing at its turn. -/
theorem haltedLaneWaitsForHost : Obligations.HaltedLaneWaitsForHost := by
  intro s l L hinv hL hflt
  have hidle := (hinv.lane hL).inFlight_of_idle ((hinv.lane hL).halted_idle hflt)
  refine ⟨fun c => ?_, laneTurn_of_idle hL hidle, fun v hv => ?_⟩
  · rw [perform_issue hL, Lane.issue_dropped c (.inr hflt)]
    rfl
  · obtain ⟨hclear, hcause⟩ := L.status.hostWrite_clears_fault hv
    exact ⟨L.writeStatus v, perform_writeStatus hL v, hclear, hcause, rfl, rfl⟩

/-! ### A turn is answered -/

theorem settle_next_isNext (s t : State) (i : Instr) (f : InFlight) (dz0 : Bool) :
    ∃ u, settle s i f dz0 (.next t) = .next u := by
  rw [settle]
  split <;> exact ⟨_, rfl⟩

/-- Out of range, a command takes ADDRESS_RANGE with its own word, whether marked or not. -/
theorem laneTurn_of_range {s : State} {l : Nat} {L : Lane} {f : InFlight} {i : Instr} (hL : s.lane l = some L)
    (hf : L.inFlight = some f) (hd : decode f.cmd = .ok i) (hin : inRange s.omWords i = false) :
    perform (.laneTurn l) s = .next ({ s with active := l }.setLane l (faulted L 2 f.cmd)) := by
  have hcur : ({ s with active := l } : State).cur = some L := hL
  have hexec : exec i { s with active := l } = _ :=
    operandPastEndTakesFault i _ L (wellFormed_of_decode hd) hcur (by simpa [fits_iff] using hin)
  rw [laneTurn_eq hL hf, runInFlight, hd]
  simp only [hexec, settle, hin, Bool.and_false, Bool.false_eq_true, if_false, encode_of_decode hd]
  rfl

/-- The turn of a lane whose command has its sources written, or does not read any, does not stop. -/
theorem laneTurn_isNext {s : State} {l : Nat} {L : Lane} (hL : s.lane l = some L)
    (hready : ∀ f, L.inFlight = some f → commandReady s.omWords L.om f.cmd = true) :
    ∃ t, perform (.laneTurn l) s = .next t := by
  cases hf : L.inFlight with
  | none => exact ⟨s, laneTurn_of_idle hL hf⟩
  | some f =>
    have hcmd := hready f hf
    cases hd : decode f.cmd with
    | error e => exact ⟨_, laneTurn_of_decode_error hL hf hd⟩
    | ok i =>
      by_cases hin : inRange s.omWords i = true
      · rw [commandReady, hd] at hcmd
        have hwritten : sourcesWritten L.om i = true := by simpa [hin] using hcmd
        obtain ⟨r, hr, -⟩ := exec_of_written (s := { s with active := l }) (wellFormed_of_decode hd) hL hin hwritten
        rw [laneTurn_eq hL hf, runInFlight, hd]
        simp only [hr]
        exact settle_next_isNext _ _ i f _
      · exact ⟨_, laneTurn_of_range hL hf hd (by simpa using hin)⟩

/-- What a move does to its lane, found again in the next state. -/
theorem perform_lane_self {m : Move} {s t : State} {L : Lane} (h : perform m s = .next t)
    (hL : s.lane m.lane = some L) : ∃ L', t.lane m.lane = some L' ∧ LaneMove s.omWords s.fresh m L L' := by
  obtain ⟨K, L', hK, hmove, hlanes, -⟩ := perform_next h
  obtain rfl : L = K := Option.some.inj (hL.symm.trans hK)
  refine ⟨L', ?_, hmove⟩
  rw [State.lane, hlanes]
  exact List.getElem?_set_self (State.lane_lt hL)

/-! ### A touched command -/

theorem Memory.read_forget_none {m : Memory} {x : Nat} (h : m.read x = none) (a n : Nat) :
    (m.forget a n).read x = none := by
  by_cases hx : x < a ∨ a + n ≤ x
  · rw [Memory.read_forget_outside m hx, h]
  · exact Memory.read_forget_inside m (by omega) (by omega)

theorem Memory.read_foldl_forget_none (os : List (Nat × Nat)) {m : Memory} {x : Nat} (h : m.read x = none) :
    Memory.read (os.foldl (fun m o => m.forget o.1 o.2) m) x = none := by
  induction os generalizing m with
  | nil => exact h
  | cons o os ih => exact ih (Memory.read_forget_none h o.1 o.2)

theorem Memory.read_foldl_forget_inside {os : List (Nat × Nat)} (m : Memory) {x : Nat} {o : Nat × Nat} (ho : o ∈ os)
    (h1 : o.1 ≤ x) (h2 : x < o.1 + o.2) : Memory.read (os.foldl (fun m o => m.forget o.1 o.2) m) x = none := by
  induction os generalizing m with
  | nil => cases ho
  | cons o' os ih =>
    obtain rfl | ho := List.mem_cons.1 ho
    · exact Memory.read_foldl_forget_none os (Memory.read_forget_inside m h1 h2)
    · exact ih _ ho

theorem Memory.read_foldl_forget_outside {os : List (Nat × Nat)} (m : Memory) {x : Nat}
    (h : ∀ o ∈ os, x < o.1 ∨ o.1 + o.2 ≤ x) :
    Memory.read (os.foldl (fun m o => m.forget o.1 o.2) m) x = m.read x := by
  induction os generalizing m with
  | nil => rfl
  | cons o os ih =>
    obtain ⟨ho, hos⟩ := List.forall_mem_cons.1 h
    exact (ih _ hos).trans (Memory.read_forget_outside m ho)

/-- Outside its destination a command writes nothing. -/
theorem read_retire_outside {i : Instr} {r : Result} (L : Lane)
    (hw : r.words = [] ∨ destOperand i = [(r.dest, r.words.length)]) {x : Nat}
    (hx : ∀ o ∈ destOperand i, x < o.1 ∨ o.1 + o.2 ≤ x) : (L.retire r).om.read x = L.om.read x := by
  rw [Lane.retire_om]
  obtain hnil | hdest := hw
  · rw [hnil]
    rfl
  · exact Memory.read_writeList_outside _ _ (hx (r.dest, r.words.length) (by simp [hdest]))

/-- The turn of a marked command in range retires it and then forgets its destination and its flags. -/
theorem LaneMove.of_disturbed {omWords fresh l : Nat} {L L' : Lane} {c : Cmd} {i : Instr}
    (h : LaneMove omWords fresh (.laneTurn l) L L') (hf : L.inFlight = some { cmd := c, disturbed := true })
    (hd : decode c = .ok i) (hin : inRange omWords i = true) :
    ∃ r, L' = (L.retire r).scramble i L.status.dz fresh ∧
      (r.words = [] ∨ destOperand i = [(r.dest, r.words.length)]) := by
  cases h with
  | idleTurn _ _ hidle => rw [hf] at hidle; cases hidle
  | illegal _ _ f hf' e he =>
    obtain rfl := Option.some.inj (hf.symm.trans hf')
    rw [hd] at he
    cases he
  | ran _ _ f hf' j hj _ hr hu =>
    obtain rfl := Option.some.inj (hf.symm.trans hf')
    obtain rfl : i = j := Except.ok.inj (hd.symm.trans hj)
    simp [hin] at hu
  | ranDisturbed _ _ f hf' j hj _ hr =>
    obtain rfl := Option.some.inj (hf.symm.trans hf')
    obtain rfl : i = j := Except.ok.inj (hd.symm.trans hj)
    obtain ⟨hout, -⟩ | ⟨-, r, rfl, hw, -⟩ := hr.of_decode hd
    · rw [hin] at hout; cases hout
    · exact ⟨r, rfl, hw⟩

theorem commandReady_of_written {n : Nat} {m : Memory} {c : Cmd} {i : Instr} (hd : decode c = .ok i)
    (hw : sourcesWritten m i = true) : commandReady n m c = true := by
  simp [commandReady, hd, hw]

/-- Settles O48: an access marks the command in flight; out of range the marked command takes its fault, and in range
its destination is forgotten after it has retired. -/
theorem touchedCommandLeavesUnspecified : Obligations.TouchedCommandLeavesUnspecified := by
  refine ⟨?_, fun s l L c i hL hf hd hfits => laneTurn_of_range hL hf hd (by simpa [fits_iff] using hfits), ?_⟩
  · intro s l L a f hL hbusy hf marked
    have htouch : L.touch = marked := Lane.touch_of_inFlight hf
    refine ⟨fun ha => ⟨fun w => ?_, fun hr => ?_, perform_readOM_unwritten hL ha⟩, fun ha => ⟨fun w => ?_, ?_⟩⟩
    · exact ⟨_, htouch ▸ perform_writeOM hL ha w, Memory.read_write_same _ _ _,
        fun _ hx => Memory.read_write_ne _ _ hx⟩
    · obtain ⟨w, hw⟩ := Option.isSome_iff_exists.1 hr
      rw [perform_readOM_written hL ha hw, if_pos hbusy, htouch]
      exact ⟨_, rfl⟩
    · rw [perform_writeOM_outside hL ha, htouch]
    · rw [perform_readOM_outside hL ha, htouch]
      exact ⟨_, rfl⟩
  · intro s l L c i hL hf hd hfits hwritten
    have hready : ∀ f, L.inFlight = some f → commandReady s.omWords L.om f.cmd = true := fun f hf' => by
      obtain rfl := Option.some.inj (hf.symm.trans hf')
      exact commandReady_of_written hd (written_iff.1 hwritten)
    obtain ⟨t, ht⟩ := laneTurn_isNext hL hready
    obtain ⟨L', hL', hmove⟩ := perform_lane_self ht hL
    obtain ⟨r, rfl, hw⟩ := hmove.of_disturbed hf hd (fits_iff.1 hfits)
    rw [destTable_eq]
    refine ⟨t, _, ht, hL', fun o ho x h1 h2 => Memory.read_foldl_forget_inside _ ho h1 h2, fun x hx => ?_, rfl, rfl,
      rfl, rfl, rfl, rfl, fun hdz => by simp [hdz]⟩
    rw [Lane.scramble_om, Memory.read_foldl_forget_outside _ hx, read_retire_outside L hw hx]

end Sys2Proof.Machine
end

section
/-! A host that keeps its duties (60_exceptions.md R287): its moves are answered and keep every command in flight ready
and careful (70_reset_and_hazards.md R293, R298), and a silent host lets the machine come to rest (R303). -/

namespace Sys2Proof.Machine

/-! ### The duties, seen from one lane -/

/-- What a dutiful move finds on its lane. -/
def Move.DutifulOn (omWords : Nat) (L : Lane) : Move → Prop
  | .hostWriteOM _ a _ => L.status.busy = false ∧ a.toNat < omWords
  | .hostReadOM _ a => L.status.busy = false ∧ a.toNat < omWords ∧ (L.om.read a.toNat).isSome = true
  | .hostIssue _ c => L.status.busy = false ∧ L.status.flt = false ∧ commandReady omWords L.om c = true
  | .hostReadStatus _ | .hostWriteStatus _ _ | .hostReadFCMD _ | .hostReset _ | .laneTurn _ => True

theorem Move.dutiful_iff {m : Move} {s : State} :
    m.dutiful s = true ↔ ∃ L, s.lane m.lane = some L ∧ m.DutifulOn s.omWords L := by
  cases m <;> simp [Move.dutiful, Move.DutifulOn, Move.lane, Option.any_eq_true, Option.isSome_iff_exists, and_assoc]

/-- A dutiful move is answered with a next state. -/
theorem perform_isNext {m : Move} {s : State} {L : Lane} (hL : s.lane m.lane = some L)
    (hduty : m.DutifulOn s.omWords L) (hready : L.Ready s.omWords) : ∃ t, perform m s = .next t := by
  cases m with
  | hostWriteOM l a w => exact ⟨_, perform_writeOM hL hduty.2 w⟩
  | hostReadOM l a =>
    obtain ⟨hbusy, ha, hr⟩ := hduty
    obtain ⟨w, hw⟩ := Option.isSome_iff_exists.1 hr
    have hread := perform_readOM_written hL ha hw
    rw [if_neg (by simp [hbusy])] at hread
    exact ⟨_, hread⟩
  | hostIssue l c => exact ⟨_, perform_issue hL c⟩
  | hostReadStatus l => exact ⟨_, State.onLane_eq hL _⟩
  | hostWriteStatus l v => exact ⟨_, perform_writeStatus hL v⟩
  | hostReadFCMD l => exact ⟨_, State.onLane_eq hL _⟩
  | hostReset l => exact ⟨_, State.onLane_eq hL _⟩
  | laneTurn l => exact laneTurn_isNext hL fun f hf => (hready f hf).2

/-- The moves a step can make are dutiful, if the one the agenda holds next is; a turn always is. -/
theorem State.Makes.dutifulOn {s : State} {m : Move} {L : Lane} (h : s.Makes m)
    (hduty : ∀ m, s.nextMove = some m → m.dutiful s = true) (hL : s.lane m.lane = some L) :
    m.DutifulOn s.omWords L := by
  obtain hnext | ⟨-, k, rfl⟩ := h
  · obtain ⟨K, hK, hon⟩ := Move.dutiful_iff.1 (hduty m hnext)
    exact Option.some.inj (hK.symm.trans hL) ▸ hon
  · trivial

theorem step_isNext {s : State} (hready : s.Ready) (hduty : ∀ m, s.nextMove = some m → m.dutiful s = true) :
    ∃ t, step s = .next t := by
  cases ha : s.agenda with
  | nil =>
    rw [step, ha]
    simp only [quietStep]
    cases hf : firstInFlight s.lanes with
    | none => exact ⟨s, rfl⟩
    | some l =>
      obtain ⟨L, f, hL, -⟩ := firstInFlight_some hf
      exact perform_isNext (m := .laneTurn l) hL trivial (hready L (State.lane_mem hL))
  | cons m rest =>
    obtain ⟨L, hL, hon⟩ := Move.dutiful_iff.1 (hduty m (by simp [State.nextMove, ha]))
    rw [step_of_agenda ha]
    exact perform_isNext (s := { s with agenda := rest }) hL hon (hready L (State.lane_mem hL))

/-! ### Commands in flight -/

/-- The command in flight, if any, is as `Q` asks of it and of OM. -/
def Lane.InFlightSat (Q : Memory → InFlight → Prop) (L : Lane) : Prop := ∀ f, L.inFlight = some f → Q L.om f

theorem Lane.inFlightSat_of_none {Q : Memory → InFlight → Prop} {L : Lane} (h : L.inFlight = none) :
    L.InFlightSat Q := fun f hf => by rw [h] at hf; cases hf

/-- A dutiful move keeps what holds of the command in flight, if it holds of one it issues: the host touches OM only
where no command is in flight. -/
theorem LaneMove.inFlightSat {Q : Memory → InFlight → Prop} {omWords fresh : Nat} {m : Move} {L L' : Lane}
    (h : LaneMove omWords fresh m L L') (hduty : m.DutifulOn omWords L) (hinv : L.Inv omWords)
    (hissue : ∀ l c, m = .hostIssue l c → Q L.om { cmd := c, disturbed := false }) (hQ : L.InFlightSat Q) :
    L'.InFlightSat Q := by
  cases h with
  | wrote | wroteOutside | readOMTouch =>
    exact Lane.inFlightSat_of_none (by simp [hinv.inFlight_of_idle hduty.1])
  | readOM | readStatus | wroteStatus | readFCMD | idleTurn => exact hQ
  | issued l c =>
    obtain ⟨hbusy, hflt, -⟩ := hduty
    rw [Lane.issue_accepted c (by simp [hbusy, hflt])]
    intro f hf
    cases hf
    exact hissue l c rfl
  | wasReset | illegal => exact Lane.inFlightSat_of_none rfl
  | ran _ _ _ _ _ _ _ hr => exact Lane.inFlightSat_of_none hr.atRest.2
  | ranDisturbed _ _ _ _ _ _ _ hr => exact Lane.inFlightSat_of_none hr.atRest.2

/-- The same of every lane and a whole step. -/
theorem step_inFlightSat {Q : Memory → InFlight → Prop} {s t : State} (h : step s = .next t) (hinv : s.Inv)
    (hduty : ∀ m, s.nextMove = some m → m.dutiful s = true)
    (hissue : ∀ l c L, s.nextMove = some (.hostIssue l c) → s.lane l = some L → Q L.om { cmd := c, disturbed := false })
    (hQ : ∀ L ∈ s.lanes, L.InFlightSat Q) : ∀ L' ∈ t.lanes, L'.InFlightSat Q := by
  intro L' hmem
  obtain ⟨l, L, hL, hL'⟩ := step_exists_lane h hmem
  have hQL := hQ L (State.lane_mem hL)
  obtain ⟨m, hm, ⟨rfl, hmove⟩ | ⟨-, rfl⟩⟩ := step_lane h hL hL'
  · refine hmove.inFlightSat (hm.dutifulOn hduty hL) (hinv.lane hL) (fun k c hmc => ?_) hQL
    subst hmc
    exact hissue k c L (hm.nextMove_eq nofun) hL
  · exact hQL

/-! ### Ready commands and OVR -/

theorem step_ready {s t : State} (h : step s = .next t) (hinv : s.Inv) (hready : s.Ready)
    (hduty : ∀ m, s.nextMove = some m → m.dutiful s = true) : t.Ready := by
  have hom : t.omWords = s.omWords := (stepChangesOneLane s t h).1
  rw [State.Ready, hom]
  refine step_inFlightSat (Q := fun m f => f.disturbed = false ∧ commandReady s.omWords m f.cmd = true) h hinv hduty
    (fun l c L hnext hL => ⟨rfl, ?_⟩) hready
  have hmakes : s.Makes (.hostIssue l c) := .inl hnext
  exact (hmakes.dutifulOn hduty hL).2.2

/-- Only a dropped command sets OVR, and a dutiful host issues none that is dropped. -/
theorem LaneMove.ovr_of_dutiful {omWords fresh : Nat} {m : Move} {L L' : Lane} (h : LaneMove omWords fresh m L L')
    (hduty : m.DutifulOn omWords L) (hset : L'.status.ovr = true) : L.status.ovr = true := by
  cases m with
  | laneTurn l =>
    obtain ⟨f, c, -, rfl⟩ | hsame := h.turn
    · exact hset
    · exact hsame.ovr ▸ hset
  | hostIssue l c =>
    obtain ⟨hbusy, hflt, -⟩ := hduty
    cases h
    rwa [Lane.issue_accepted c (by simp [hbusy, hflt])] at hset
  | hostWriteStatus l v =>
    cases h
    simp only [Lane.writeStatus_status, Status.hostWrite_ovr, Bool.and_eq_true] at hset
    exact hset.1
  | hostReset => cases h; cases hset
  | hostWriteOM | hostReadOM | hostReadStatus | hostReadFCMD => cases h <;> exact hset

/-- A dutiful host's step is answered, keeps the machine good and ready, and sets no OVR. -/
theorem step_of_dutiful {s : State} (hinv : s.Inv) (hready : s.Ready)
    (hduty : ∀ m, s.nextMove = some m → m.dutiful s = true) :
    ∃ t, step s = .next t ∧ t.Inv ∧ t.Ready ∧ ∀ (l : Nat) (L L' : Lane), s.lane l = some L →
      t.lane l = some L' → L'.status.ovr = true → L.status.ovr = true := by
  obtain ⟨t, ht⟩ := step_isNext hready hduty
  refine ⟨t, ht, everyStepKeepsInvariant s t hinv ht, step_ready ht hinv hready hduty, fun l L L' hL hL' hset => ?_⟩
  obtain ⟨m, hm, ⟨rfl, hmove⟩ | ⟨-, rfl⟩⟩ := step_lane ht hL hL'
  · exact hmove.ovr_of_dutiful (hm.dutifulOn hduty hL) hset
  · exact hset

/-! ### Careful commands and DZ -/

theorem reduce_of_onCurve {p : Point} (h : OnCurveOrInf p) : p.reduce = p := by
  cases p with
  | inf => rfl
  | aff x y =>
    obtain ⟨hx, hy, -⟩ := h
    rw [Point.reduce, Nat.mod_eq_of_lt hx, Nat.mod_eq_of_lt hy]

/-- A point passes PCHK exactly when it is an affine point of the curve (42_point.md R207). -/
theorem ofCheck_z_iff {p : Point} : (Flags.ofCheck p).z = true ↔ OnCurveOrInf p ∧ p ≠ .inf := by
  cases p with
  | inf => simp [Flags.ofCheck]
  | aff x y => simp [Flags.ofCheck, onCurve_eq, OnCurveOrInf]

/-- A careful command that sets DZ is a PADD: the table of a base on the curve meets no degenerate addition. -/
theorem padd_of_careful {trusted : Point → Bool} (htrusted : ∀ p, trusted p = true → OnCurveOrInf p.reduce)
    {m : Memory} {i : Instr} (hc : operandsCareful trusted m i = true) (hdz : setsDz m i = true) :
    ∃ d a b, i = .padd d a b := by
  cases i with
  | padd d a b => exact ⟨d, a, b, rfl⟩
  | invm md d a =>
    obtain ⟨v, hv, hzero⟩ := (Option.any_eq_true _ _).1 hdz
    simp only [operandsCareful, hv, Option.all_some, bne_iff_ne] at hc
    exact absurd (beq_iff_eq.1 hzero) hc
  | tbld d a =>
    obtain ⟨p, hp, hbit⟩ := (Option.any_eq_true _ _).1 hdz
    simp only [operandsCareful, hp, Option.all_some, Bool.or_eq_true] at hc
    have hcurve : OnCurveOrInf p.reduce := hc.elim (htrusted p) fun hcheck => by
      obtain ⟨hon, -⟩ := ofCheck_z_iff.1 hcheck
      rwa [reduce_of_onCurve hon]
    rw [hcurve.tab.2] at hbit
    cases hbit
  | _ => cases hdz

/-- DZ rises only when a marked command or one that sets it retires. -/
theorem LaneMove.dz_rises {omWords fresh : Nat} {m : Move} {L L' : Lane} (h : LaneMove omWords fresh m L L')
    (hclear : L.status.dz = false) (hset : L'.status.dz = true) : ∃ f, L.inFlight = some f ∧
      (f.disturbed = true ∨ ∃ i, decode f.cmd = .ok i ∧ inRange omWords i = true ∧ setsDz L.om i = true) := by
  cases h with
  | ran _ _ f hf i hd _ hr =>
    obtain ⟨-, rfl⟩ | ⟨hin, r, rfl, -, hdz⟩ := hr.of_decode hd
    · simp [hclear] at hset
    · exact ⟨f, hf, .inr ⟨i, hd, hin, by simpa [hclear, hdz] using hset⟩⟩
  | ranDisturbed _ _ f hf _ _ _ _ hu => exact ⟨f, hf, .inl hu⟩
  | issued l c =>
    rw [(L.issue_sameFlags c).2, hclear] at hset
    cases hset
  | wrote | wroteOutside | readOM | readOMTouch | readStatus | wroteStatus | readFCMD | wasReset | idleTurn | illegal =>
    simp [Lane.reset, Status.reset, hclear] at hset

theorem Move.keepsDuties_iff {trusted : Point → Bool} {s : State} {m : Move} :
    m.keepsDuties trusted s = true ↔ m.dutiful s = true ∧ ∀ l c L, m = .hostIssue l c → s.lane l = some L →
      commandCareful trusted s.omWords L.om c = true := by
  unfold Move.keepsDuties
  rw [Bool.and_eq_true]
  refine and_congr_right fun hduty => ?_
  obtain ⟨K, hK, -⟩ := Move.dutiful_iff.1 hduty
  cases m with
  | hostIssue l c =>
    have hK : s.lane l = some K := hK
    simp only [hK, Option.any_some, Move.hostIssue.injEq, and_imp]
    refine ⟨?_, fun h => h l c K rfl rfl hK⟩
    rintro h _ _ L rfl rfl hL
    exact Option.some.inj (hK.symm.trans hL) ▸ h
  | _ => simp

/-- Settles O58: dutiful moves are answered and keep every command in flight ready; a careful command sets DZ only if
it is a PADD. -/
theorem dutifulHostNeverStops : Obligations.DutifulHostNeverStops := by
  refine ⟨fun s => step_of_dutiful, fun trusted htrusted s hinv hready hcareful hkeeps => ?_⟩
  have hduty (m : Move) (hm : s.nextMove = some m) := (Move.keepsDuties_iff.1 (hkeeps m hm)).1
  obtain ⟨t, ht, -⟩ := step_of_dutiful hinv hready hduty
  refine ⟨t, ht, ?_, fun l L L' hL hL' hclear hset => ?_⟩
  · have hom : t.omWords = s.omWords := (stepChangesOneLane s t ht).1
    rw [State.Careful, hom]
    exact step_inFlightSat (Q := fun m f => commandCareful trusted s.omWords m f.cmd = true) ht hinv hduty
      (fun l c L hnext hL => (Move.keepsDuties_iff.1 (hkeeps _ hnext)).2 l c L rfl hL) hcareful
  · obtain ⟨m, -, ⟨-, hmove⟩ | ⟨-, rfl⟩⟩ := step_lane ht hL hL'
    · obtain ⟨f, hf, hdist | ⟨i, hd, hin, hdz⟩⟩ := hmove.dz_rises hclear hset
      · rw [(hready L (State.lane_mem hL) f hf).1] at hdist
        cases hdist
      · have hc := hcareful L (State.lane_mem hL) f hf
        simp only [commandCareful, hd, hin, Bool.not_true, Bool.false_or] at hc
        obtain ⟨d, a, b, rfl⟩ := padd_of_careful htrusted hc hdz
        exact ⟨f, d, a, b, hf, hd⟩
    · rw [hclear] at hset
      cases hset

/-! ### The silent host -/

/-- The number of lanes with a command in flight. -/
def State.inFlightCount (s : State) : Nat := s.lanes.countP fun L => L.inFlight.isSome

theorem State.idle_of_inFlightCount {s : State} (h : s.inFlightCount = 0) : s.idle :=
  fun L hL => by simpa using List.countP_eq_zero.1 h L hL

/-- A silent step completes one command, if any is in flight. -/
theorem quiet_step {s t : State} (ha : s.agenda = []) (h : step s = .next t) :
    t.agenda = [] ∧ t.inFlightCount ≤ s.inFlightCount - 1 := by
  obtain ⟨m, rest, ha', -⟩ | ⟨-, l, hl, hp⟩ | ⟨-, hidle, rfl⟩ := step_next h
  · rw [ha] at ha'
    cases ha'
  · obtain ⟨L, f, hL, hf⟩ := firstInFlight_some hl
    obtain ⟨K, L', hK, hmove, hlanes, -, hagenda, -⟩ := perform_next hp
    obtain rfl : L = K := Option.some.inj (hL.symm.trans hK)
    obtain ⟨hlt, hget⟩ := List.getElem?_eq_some_iff.1 hL
    have hdone : L'.inFlight = none := (hmove.atRest_of_turn hf).2
    refine ⟨hagenda.trans ha, ?_⟩
    rw [State.inFlightCount, hlanes, State.inFlightCount]
    simp [Move.lane, List.countP_set hlt, hget, hf, hdone]
  · have hzero : t.inFlightCount = 0 :=
      List.countP_eq_zero.2 fun L hL => by simp [firstInFlight_none hidle L hL]
    exact ⟨ha, by rw [hzero]⟩

theorem run_to_rest (n : Nat) {s : State} (hinv : s.Inv) (hready : s.Ready) (ha : s.agenda = [])
    (hn : s.inFlightCount ≤ n) : ∃ t, core.run n s = .next t ∧ t.Inv ∧ t.idle := by
  induction n generalizing s with
  | zero => exact ⟨s, rfl, hinv, State.idle_of_inFlightCount (Nat.le_zero.1 hn)⟩
  | succ n ih =>
    obtain ⟨t, ht, hinv', hready', -⟩ := step_of_dutiful hinv hready (by simp [State.nextMove, ha])
    obtain ⟨ha', hcount⟩ := quiet_step ha ht
    rw [core_run_succ n ht]
    exact ih hinv' hready' ha' (by omega)

/-- Settles O57: every silent step completes a command, and there are at most as many as lanes. -/
theorem quietMachineComesToRest : Obligations.QuietMachineComesToRest :=
  fun _ hinv hready ha => run_to_rest _ hinv hready ha List.countP_le_length

end Sys2Proof.Machine
end

section
/-! The run of a host program (70_reset_and_hazards.md R298, R304) and the two host procedures of 60_exceptions.md R287:
the check of DZ after a sequence, and of a base with PCHK before its table is built. -/

namespace Sys2Proof.Machine

/-! ### Moves in order -/

theorem performAll_cons (m : Move) (ms : List Move) (s : State) :
    performAll (m :: ms) s = andThen (perform m s) (performAll ms) := by
  rw [performAll]
  cases perform m s <;> rfl

theorem runCommands_cons (l : Nat) (c : Cmd) (cs : List Cmd) (s : State) : runCommands l (c :: cs) s =
    andThen (performAll [.hostIssue l c, .laneTurn l] s) fun t =>
      if t.halted l then .next t else runCommands l cs t := by
  rw [runCommands]
  cases performAll [.hostIssue l c, .laneTurn l] s <;> rfl

theorem runProgram_eq (l : Nat) (p : HostProgram) (s : State) : runProgram l p s =
    andThen (performAll (.hostReset l :: p.writes.map fun x => .hostWriteOM l x.1 x.2) s)
      (runCommands l p.commands) := by
  rw [runProgram]
  cases performAll (.hostReset l :: p.writes.map fun x => .hostWriteOM l x.1 x.2) s <;> rfl

theorem State.halted_eq {s : State} {l : Nat} {L : Lane} (hL : s.lane l = some L) : s.halted l = L.status.flt := by
  rw [State.halted, hL]
  rfl

/-! ### One command, issued and completed -/

theorem Lane.issue_of_atRest {L : Lane} (hrest : L.AtRest) (hflt : L.status.flt = false) (c : Cmd) :
    L.issue c = L.withCommand c :=
  Lane.issue_accepted c (by simp [hrest.1, hflt])

/-- The turn of a command the host left alone sets DZ if the command does, and otherwise keeps it. -/
theorem LaneMove.dz_of_undisturbed {omWords fresh l : Nat} {L L' : Lane} {c : Cmd}
    (h : LaneMove omWords fresh (.laneTurn l) L L') (hf : L.inFlight = some { cmd := c, disturbed := false }) :
    L'.status.dz = (L.status.dz || commandSetsDz omWords L.om c) := by
  cases h with
  | idleTurn _ _ hidle => rw [hf] at hidle; cases hidle
  | illegal _ _ f hf' e he =>
    obtain rfl := Option.some.inj (hf.symm.trans hf')
    simp [commandSetsDz, he]
  | ran _ _ f hf' i hd _ hr =>
    obtain rfl := Option.some.inj (hf.symm.trans hf')
    obtain ⟨hin, rfl⟩ | ⟨hin, r, rfl, -, hdz⟩ := hr.of_decode hd
    · simp [commandSetsDz, hd, hin]
    · simp [commandSetsDz, hd, hin, hdz]
  | ranDisturbed _ _ f hf' _ _ _ _ hu =>
    obtain rfl := Option.some.inj (hf.symm.trans hf')
    cases hu

theorem LaneMove.ovr_of_turn {omWords fresh l : Nat} {L L' : Lane}
    (h : LaneMove omWords fresh (.laneTurn l) L L') : L'.status.ovr = L.status.ovr := by
  obtain ⟨f, c, -, rfl⟩ | hsame := h.turn
  · rfl
  · exact hsame.ovr

/-- A command issued to a lane at rest is accepted, and its turn leaves the lane at rest. -/
theorem lane_of_issue_turn {s t : State} {l : Nat} {L : Lane} {c : Cmd}
    (h : performAll [.hostIssue l c, .laneTurn l] s = .next t) (hL : s.lane l = some L) (hrest : L.AtRest)
    (hflt : L.status.flt = false) : ∃ L', t.lane l = some L' ∧ L'.AtRest ∧ L'.status.ovr = L.status.ovr ∧
      L'.status.dz = (L.status.dz || commandSetsDz s.omWords L.om c) := by
  rw [performAll_cons, perform_issue hL, andThen_next, Lane.issue_of_atRest hrest hflt, performAll_cons,
    andThen_eq_next_iff] at h
  obtain ⟨u, hu, ht⟩ := h
  obtain rfl : u = t := by simpa [performAll] using ht
  obtain ⟨L', hL', hmove⟩ := perform_lane_self hu (State.lane_setLane_same (L.withCommand c) hL)
  exact ⟨L', hL', hmove.atRest_of_turn rfl, hmove.ovr_of_turn, hmove.dz_of_undisturbed rfl⟩

/-! ### A sequence of commands -/

/-- A sequence issued to a lane at rest leaves it at rest, loses no command, and sets DZ if one of its commands
does. -/
theorem lane_of_runCommands {cs : List Cmd} {s t : State} {l : Nat} {L : Lane} (h : runCommands l cs s = .next t)
    (hL : s.lane l = some L) (hrest : L.AtRest) (hflt : L.status.flt = false) :
    ∃ L', t.lane l = some L' ∧ L'.AtRest ∧ L'.status.ovr = L.status.ovr ∧
      L'.status.dz = (L.status.dz || commandsSetDz l cs s) := by
  induction cs generalizing s L with
  | nil =>
    obtain rfl : s = t := by simpa [runCommands] using h
    exact ⟨L, hL, hrest, rfl, by simp [commandsSetDz]⟩
  | cons c cs ih =>
    rw [runCommands_cons, andThen_eq_next_iff] at h
    obtain ⟨u, hu, ht⟩ := h
    obtain ⟨K, hK, hKrest, hKovr, hKdz⟩ := lane_of_issue_turn hu hL hrest hflt
    have hsets : commandsSetDz l (c :: cs) s =
        (commandSetsDz s.omWords L.om c || (!K.status.flt && commandsSetDz l cs u)) := by
      simp only [commandsSetDz, hL, hu, State.halted_eq hK, Option.any_some]
    rw [State.halted_eq hK] at ht
    rw [hsets]
    cases hKflt : K.status.flt with
    | true =>
      obtain rfl : u = t := by simpa [hKflt] using ht
      exact ⟨K, hK, hKrest, hKovr, by simpa using hKdz⟩
    | false =>
      obtain ⟨L', hL', hrest', hovr', hdz'⟩ := ih (by simpa [hKflt] using ht) hK hKrest hKflt
      exact ⟨L', hL', hrest', hovr'.trans hKovr, by simp [hdz', hKdz, Bool.or_assoc]⟩

/-! ### A host program -/

theorem lane_of_writes {ws : List (Addr × Word)} {s t : State} {l : Nat} {L : Lane}
    (h : performAll (ws.map fun x => .hostWriteOM l x.1 x.2) s = .next t) (hL : s.lane l = some L)
    (hidle : L.inFlight = none) :
    ∃ L', t.lane l = some L' ∧ L'.status = L.status ∧ L'.inFlight = none := by
  induction ws generalizing s L with
  | nil =>
    obtain rfl : s = t := by simpa [performAll] using h
    exact ⟨L, hL, rfl, hidle⟩
  | cons w ws ih =>
    rw [List.map_cons, performAll_cons, andThen_eq_next_iff] at h
    obtain ⟨u, hu, ht⟩ := h
    obtain ⟨K, hK, hmove⟩ := perform_lane_self hu hL
    have hsame : K.status = L.status ∧ K.inFlight = none := by cases hmove <;> simp [hidle]
    obtain ⟨L', hL', hstatus, hnone⟩ := ih ht hK hsame.2
    exact ⟨L', hL', hstatus.trans hsame.1, hnone⟩

/-- Settles O59: the reset leaves the lane at rest, the writes keep it so, and then every command is accepted. -/
theorem pollingHostNeverLosesCommand : Obligations.PollingHostNeverLosesCommand := by
  intro s t l p h
  rw [runProgram_eq, andThen_eq_next_iff] at h
  obtain ⟨u, hu, ht⟩ := h
  rw [performAll_cons, andThen_eq_next_iff] at hu
  obtain ⟨s0, hs0, hu⟩ := hu
  obtain ⟨K, -, hK, -⟩ := perform_next hs0
  obtain ⟨R, hR, hmove⟩ := perform_lane_self hs0 hK
  cases hmove
  obtain ⟨L, hL, hstatus, hidle⟩ := lane_of_writes hu hR rfl
  obtain ⟨L', hL', hrest, hovr, -⟩ := lane_of_runCommands ht hL ⟨by rw [hstatus]; rfl, hidle⟩ (by rw [hstatus]; rfl)
  have hclear : L'.status.ovr = false := by rw [hovr, hstatus]; rfl
  refine ⟨L', hL', hclear, hrest.1, ?_⟩
  rw [Lane.observe, hclear]
  cases L'.status.flt <;> exact nofun

/-! ### The check of DZ -/

theorem dz_of_checkedSequence {cs : List Cmd} {s t : State} {l : Nat} {L : Lane} (hL : s.lane l = some L)
    (hrest : L.AtRest) (hflt : L.status.flt = false) (h : checkedSequence l cs s = .next t) :
    ∃ s1 v, perform (.hostWriteStatus l 0x08) s = .next s1 ∧ t.reply = .word v ∧
      (v.getLsbD 3 = true ↔ commandsSetDz l cs s1 = true) := by
  rw [checkedSequence, perform_writeStatus hL, andThen_next, andThen_eq_next_iff] at h
  obtain ⟨u, hu, ht⟩ := h
  obtain ⟨L', hL', -, -, hdz⟩ := lane_of_runCommands hu (State.lane_setLane_same (L.writeStatus 0x08) hL) hrest
    (by simp [hflt])
  obtain ⟨v, hv, -, -, -, hbit, -⟩ := hostReadsStatusWord u l L' hL'
  obtain rfl : { u with reply := .word v } = t := by simpa using hv.symm.trans ht
  refine ⟨_, v, perform_writeStatus hL _, rfl, ?_⟩
  have hcleared : (L.writeStatus 0x08).status.dz = false := by simp
  rw [hbit, hdz, hcleared, Bool.false_or]

/-! ### The check of a base -/

/-- A command that reads one point, in range and issued to a lane at rest, retires with its result. -/
theorem performAll_issue_turn_point {s : State} {l : Nat} {L : Lane} {i : Instr} {a : Addr} {p : Point}
    (f : Point → Result) (hi : i.wellFormed = true)
    (he : ∀ s, exec i s = s.runRule i fun m => withPoint m a f) (hL : s.lane l = some L) (hrest : L.AtRest)
    (hflt : L.status.flt = false) (hin : inRange s.omWords i = true) (hp : readPt L.om a.toNat = some p)
    (ms : List Move) : performAll (.hostIssue l (encode i) :: .laneTurn l :: ms) s =
      performAll ms ({ s with active := l }.setLane l (L.retire (f p))) := by
  have hL' := State.lane_setLane_same (L.withCommand (encode i)) hL
  have hexec := exec_of_point (s := { s.setLane l (L.withCommand (encode i)) with active := l }) (he _) hL' hin hp
  rw [performAll_cons, perform_issue hL, andThen_next, Lane.issue_of_atRest hrest hflt, performAll_cons,
    laneTurn_of_decode_ok hL' rfl rfl (decode_encode hi), hexec, andThen_next]
  exact congrArg (performAll ms) (State.setLane_setLane { s with active := l } l _ _)

theorem inRange_pchk {n : Nat} {a : Addr} (ha : a.toNat + 17 ≤ n) : inRange n (.pchk a) = true := by
  have ho : destOperand (.pchk a) ++ sourceOperands (.pchk a) = [(a.toNat, 17)] := rfl
  exact inRange_iff.2 (by simpa [ho] using ha)

theorem inRange_tbld {n : Nat} {d a : Addr} (hd : d.toNat + 96 ≤ n) (ha : a.toNat + 17 ≤ n) :
    inRange n (.tbld d a) = true := by
  have ho : destOperand (.tbld d a) ++ sourceOperands (.tbld d a) = [(d.toNat, 96), (a.toNat, 17)] := rfl
  exact inRange_iff.2 (by simp [ho, hd, ha])

section
variable {s : State} {l : Nat} {L : Lane} {a : Addr} {p : Point}

/-- PCHK of a readable base completes, and the STATUS read then shows Z of the check. -/
theorem performAll_pchk (hL : s.lane l = some L) (hrest : L.AtRest) (hflt : L.status.flt = false)
    (ha : a.toNat + 17 ≤ s.omWords) (hp : readPt L.om a.toNat = some p) : ∃ t,
      performAll [.hostIssue l (encode (.pchk a)), .laneTurn l, .hostReadStatus l] s = .next t ∧
      t.omWords = s.omWords ∧ t.lane l = some (L.retire (.flagsOnly (.ofCheck p))) ∧
      t.reply.showsCheckPassed = (Flags.ofCheck p).z := by
  have hrun := performAll_issue_turn_point (i := .pchk a) (fun p => .flagsOnly (.ofCheck p)) rfl (fun _ => rfl)
    hL hrest hflt (inRange_pchk ha) hp [.hostReadStatus l]
  have hlane := State.lane_setLane_same (s := { s with active := l }) (L.retire (.flagsOnly (.ofCheck p))) hL
  obtain ⟨v, hv, -, hz, -, -, hbusy, -, hf, -⟩ := hostReadsStatusWord _ l _ hlane
  rw [performAll_cons (.hostReadStatus l) [], hv] at hrun
  refine ⟨_, hrun, rfl, hlane, ?_⟩
  simp only [Reply.showsCheckPassed, hz, hbusy, hf, Lane.retire_status, Status.retire_z, Status.retire_busy,
    Status.retire_flt, hflt, Bool.not_false, Bool.and_true, Result.flagsOnly]

/-- TBLD of a base on the curve completes: its entries stand in OM and on the curve, and DZ is as before. -/
theorem performAll_tbld {d : Addr} (hL : s.lane l = some L) (hrest : L.AtRest) (hflt : L.status.flt = false)
    (hd : d.toNat + 96 ≤ s.omWords) (ha : a.toNat + 17 ≤ s.omWords) (hp : readPt L.om a.toNat = some p)
    (hcurve : OnCurveOrInf p) : ∃ t L',
      performAll [.hostIssue l (encode (.tbld d a)), .laneTurn l] s = .next t ∧ t.lane l = some L' ∧
      L'.status.dz = L.status.dz ∧ ∀ (k : Nat) (e : Point), (tab p).1[k]? = some e →
        OnCurveOrInf e ∧ HoldsEntry L'.om (d.toNat + 24 * k) e := by
  obtain ⟨hentries, hdz⟩ := hcurve.tab
  have hcanon := tab_canonical (reduce_canonical p)
  have hrun := performAll_issue_turn_point (i := .tbld d a) (fun p => .table d (tab p.reduce).1 (tab p.reduce).2)
    rfl (fun _ => rfl) hL hrest hflt (inRange_tbld hd ha) hp []
  rw [reduce_of_onCurve hcurve] at hrun hcanon
  refine ⟨_, _, hrun, State.lane_setLane_same _ hL, by simp [Result.table, hdz], fun k e he => ?_⟩
  exact ⟨hentries e (List.mem_of_getElem? he), holdsEntry_writeList_tableWords hcanon L.om d.toNat he⟩

end

/-- Settles O60: DZ, cleared before the sequence, is set by the commands that set it; and the table is built exactly
where Z of PCHK is 1, of a base on the curve. -/
theorem hostChecksFindZeroAndOffCurve : Obligations.HostChecksFindZeroAndOffCurve := by
  refine ⟨fun l cs s t L hL hbusy hflt hidle => dz_of_checkedSequence hL ⟨hbusy, hidle⟩ hflt,
    fun l d a s L p hL hbusy hflt hidle hd ha hp => ?_⟩
  obtain ⟨t, ht, hom, hlane, hshows⟩ := performAll_pchk hL ⟨hbusy, hidle⟩ hflt ha hp
  rw [checkedTable, ht, andThen_next, hshows]
  have hdz : (L.retire (.flagsOnly (.ofCheck p))).status.dz = L.status.dz := by simp [Result.flagsOnly]
  by_cases hz : (Flags.ofCheck p).z = true
  · obtain ⟨hcurve, hne⟩ := ofCheck_z_iff.1 hz
    rw [if_pos hz]
    obtain ⟨u, L', hu, hL', hdz', hentries⟩ :=
      performAll_tbld hlane ⟨rfl, rfl⟩ hflt (hom ▸ hd) (hom ▸ ha) hp hcurve
    exact ⟨u, L', hu, hL', hdz'.trans hdz, fun _ => hentries, fun hoff => absurd hoff (by simp [hcurve, hne])⟩
  · have hoff : ¬ (OnCurveOrInf p ∧ p ≠ .inf) := ofCheck_z_iff.not.1 hz
    rw [if_neg hz]
    exact ⟨t, _, rfl, hlane, hdz, fun h => absurd h hoff, fun _ => rfl⟩

end Sys2Proof.Machine
end
